-- ==== Sys2Proof/Word.lean ====
section
/-! DEFINITION. The machine words of the ENS frame receiver (R10 of 00_scope.md): bytes, 16-bit registers,
32-bit descriptor words, 12-bit field identifiers. -/

namespace Sys2Proof

/-- A byte of the stream, of the buffer or of the payload (R10). -/
abbrev Byte := BitVec 8

/-- A 16-bit register: SUM, RCV, DP (R20). -/
abbrev Half := BitVec 16

/-- A word of a layout ROM, bit 31 the most significant (R90). -/
abbrev Word := BitVec 32

/-- A field identifier, FID_W = 12 bits (R9, R34). -/
abbrev Fid := BitVec 12

/-- The 10-bit port command word `cmd` (R84). -/
abbrev Cmd := BitVec 10

end Sys2Proof
end

