-- ==== Sys2Proof/Config.lean ====
section
/-! DEFINITION. The constants the source fixes (R8) and the parameters of an instance (R9), with the default of each.
The parameters stand in State (field `params`), so every statement about every state holds for every value of them.
One value is free: what the 16-bit register LEN reads as when a BUF_CAP of 65536 or more lets the count outgrow it. -/

namespace Sys2Proof

/-- MARKER, the start-marker byte (R8). -/
def Config.marker : Byte := 0x3A#8

/-- HDR_LEN, offsets 0 to 8 of a frame (R8). -/
def Config.hdrLen : Nat := 9

/-- CK_LEN, the bytes of the checksum (R8). -/
def Config.ckLen : Nat := 2

/-- MIN_FRAME, the shortest whole frame (R8). -/
def Config.minFrame : Nat := 11

/-- MAX_FRAME, the longest frame (R8), and the least capacity BUF_CAP may have (R9). -/
def Config.maxFrame : Nat := 266

/-- The most words a layout ROM may have (`wf_len` of R104). -/
def Config.maxRom : Nat := 65536

/-- DESIGN CHOICE (log entry 20), a free value: what the register LEN, 16 bits wide (R20), reads as when it counts more bytes
than 16 bits hold, which a BUF_CAP of 65536 or more (R9) lets happen. The spec states no result there. -/
opaque Config.wideLen : Nat → BitVec 16

/-- The device role of an instance (R26): 0 device-telemetry, 1 logger/gateway. -/
inductive Role where
  | deviceTelemetry
  | loggerGateway
  deriving DecidableEq, Repr

/-- The parameters of one instance (R9, R20): constant from the release of reset. -/
structure Params where
  /-- TS_W, the width in bits of `now` and LAST_TS. -/
  tsW     : Nat
  /-- BUF_CAP, the capacity of BUF in bytes. -/
  bufCap  : Nat
  /-- TIMEOUT, the inter-byte timeout. -/
  timeout : Nat
  /-- ROLE. -/
  role    : Role
  /-- ROM[0], the routines of the device-telemetry role. -/
  rom0    : List Word
  /-- ROM[1], the routines of the logger/gateway role. -/
  rom1    : List Word
  /-- WS, the bytes TEXT trims at the edges. -/
  ws      : List Byte
  deriving DecidableEq, Repr

/-- The defaults of R9: TIMEOUT 50, TS_W 32, BUF_CAP 266, WS the six bytes.
DESIGN CHOICE (log entry 5): ROLE 0 and both ROMs empty, which R9 leaves open. -/
def Params.default : Params where
  tsW := 32
  bufCap := 266
  timeout := 50
  role := .deviceTelemetry
  rom0 := []
  rom1 := []
  ws := [0x09#8, 0x0A#8, 0x0B#8, 0x0C#8, 0x0D#8, 0x20#8]

end Sys2Proof
end

