-- ==== Sys2Proof/Syntax.lean ====
section
/-! DEFINITION. The instructions: one constructor per row of spec/opcode_table.json (R85, R86, R90 to R95), the routine a
layout ROM holds (R102), and the names under which a descriptor word is illegal (R98). -/

namespace Sys2Proof

/-- CONV and DIVSEL of an unsigned integer descriptor (R93). -/
inductive Conv where
  /-- CONV = 0b00: a number with divisor 10^k (R200). -/
  | num (k : BitVec 2)
  /-- CONV = 0b01: the run-state string (R201). -/
  | rs
  /-- CONV = 0b10: the packed firmware version (R202). -/
  | fw
  deriving DecidableEq, Repr

/-- The port commands (format PORT), the status read (format STAT) and the descriptors (formats H, L, I, S, E). -/
inductive Instr where
  | reset
  | idle
  /-- FEED of one byte; its operand `now` is read from the port beside the command word (R84). -/
  | feed (b : Byte)
  | regrd (n : BitVec 3)
  | rtn (lg : Bool) (ctl fn explen : Byte)
  | nodata (ctl fn : Byte)
  | lgcy (fid : Fid)
  | u8 (conv : Conv) (fid : Fid)
  | u16 (conv : Conv) (fid : Fid)
  | u24 (conv : Conv) (fid : Fid)
  | u32 (conv : Conv) (fid : Fid)
  /-- A signed read: CONV is NUM, `k` is DIVSEL (R93). -/
  | s8 (k : BitVec 2) (fid : Fid)
  | s16 (k : BitVec 2) (fid : Fid)
  | s24 (k : BitVec 2) (fid : Fid)
  | s32 (k : BitVec 2) (fid : Fid)
  | skip (n : Byte)
  | text (supp : Bool) (n : Byte) (fid : Fid)
  | bits (n : Byte) (fid : Fid)
  | end_
  deriving DecidableEq, Repr

/-- An instruction as the hardware is given it (R80): the port command word, the status read port's register number, or a
word of a layout ROM. -/
inductive Encoded where
  | port (cmd : Cmd)
  | stat (n : BitVec 3)
  | word (w : Word)
  deriving DecidableEq, Repr

/-- Why a descriptor word is illegal, one name for each clause of R98. -/
inductive Illegal where
  /-- Class 0x0 or 0x5 to 0xE. -/
  | noClass
  /-- Class 0xF and not exactly 0xF0000000. -/
  | badEnd
  /-- A bit marked reserved is 1. -/
  | reservedBit
  /-- KIND is 0b10 or 0b11. -/
  | badKind
  /-- NODATA with LG = 1. -/
  | nodataLegacy
  /-- NODATA with EXPLEN not 0. -/
  | nodataLength
  /-- CONV is 0b11. -/
  | badConv
  /-- DIVSEL not 0 with CONV other than NUM. -/
  | divselWithoutNum
  /-- SGN = 1 with CONV other than NUM. -/
  | signedConversion
  /-- REND is 0b11. -/
  | badRender
  /-- SUPP = 1 with REND other than TEXT. -/
  | suppressWithoutText
  /-- LENF is 0. -/
  | zeroLength
  /-- SKIP with FID not 0. -/
  | skipFid
  deriving DecidableEq, Repr

/-- What a routine does with its frame (R102). -/
inductive Kind where
  | decode
  | noData
  deriving DecidableEq, Repr

/-- One routine of a layout ROM in the abstract form of R102; `fields` are its field descriptors in order. -/
structure Routine where
  control  : Byte
  function : Byte
  kind     : Kind
  explen   : Byte
  legacy   : Option Fid
  fields   : List Instr
  /-- The word address of its header. -/
  start    : Nat
  deriving DecidableEq, Repr

end Sys2Proof
end

