-- ==== Sys2Proof/Machine/State.lean ====
section
/-! DEFINITION. The state of the ENS frame receiver as plain data (10_state.md), the reasons a step can stop, and the state
after reset (R38). -/

namespace Sys2Proof.Machine

/-- A published value (R34). -/
inductive Value where
  /-- `Num(m, k)`: exactly m / 10^k. -/
  | num (m : Int) (k : BitVec 2)
  /-- `Str(s)`: a byte string. -/
  | str (s : List Byte)
  deriving DecidableEq, Repr

/-- An event record (R33). -/
inductive Event where
  | checksumMismatch (computed received : Half) (raw : List Byte)
  | unknownKey (role : Role) (control function : Byte)
  | sizeMismatch (expected actual : Byte)
  | publish (fid : Fid) (value : Value)
  | overrun (dp : Half) (cur width plen : Byte)
  deriving DecidableEq, Repr

/-- The result codes of R24, by name; their bits are `Code.toBits` (Machine/Flags.lean). -/
inductive Code where
  | incomplete
  | malformedStart
  | decoded
  | noData
  | checksum
  | size
  | unknown
  | overrun
  deriving DecidableEq, Repr

/-- What the block is doing between two steps (log entry 1): waiting for a command (R271), or inside a FEED, running the
routine at DP (R226). -/
inductive Phase where
  | rest
  | decode
  deriving DecidableEq, Repr

/-- What the host presents in one tick (R84, R86): the command word, the value on `now`, and perhaps a register number on
the status read port. -/
structure Tick where
  cmd  : Cmd
  now  : Nat
  stat : Option (BitVec 3)
  deriving DecidableEq, Repr

/-- The five named checks of a ROM's well-formedness (R104). -/
inductive RomCheck where
  | wfWords
  | wfGrammar
  | wfSum
  | wfKeys
  | wfLen
  deriving DecidableEq, Repr

/-- The state. Every field but the last group is named by 10_state.md; the last group is the input port and the model's
own bookkeeping (log entries 1 to 4). -/
structure State where
  /-- BUF (R21): strictly rising addresses; an unlisted byte has no value (log entry 7). -/
  mem    : List Host.Cell
  /-- LEN, the count of the valid bytes, 0 to BUF_CAP (R22). R20 gives it 16 bits, which hold every count when BUF_CAP is
  below 65536; what the register reads as above is free (log entry 20). -/
  len    : Nat
  /-- LAST_TS (R23), below 2^TS_W. -/
  lastTs : Nat
  /-- RES (R24). -/
  res    : BitVec 4
  /-- TIMEOUT, ROLE, ROM[0], ROM[1] and the sizing parameters (R9, R25 to R27). -/
  params : Params
  /-- N (R29). -/
  n      : Byte
  /-- SUM (R29). -/
  sum    : Half
  /-- RCV (R29). -/
  rcv    : Half
  /-- CTL (R29). -/
  ctl    : Byte
  /-- FN (R29). -/
  fn     : Byte
  /-- PLEN (R29). -/
  plen   : Byte
  /-- CUR, the Cursor (R30). -/
  cur    : Byte
  /-- DP, the descriptor pointer (R31). -/
  dp     : Half
  /-- ACC (R32). -/
  acc    : Word
  /-- PEND (R32). -/
  pend   : List Event
  /-- The output `ready` of the last command (R35). -/
  ready  : Bool
  /-- The output `events` of the last command, or of the FEED in progress so far (R33, R35). -/
  events : List Event
  /-- The read data of the last command, if that was a REGRD (R28, R35). -/
  data   : Option Nat
  /-- Waiting for a command, or running a routine (log entry 1). -/
  phase  : Phase
  /-- The value on the input `now` in this tick (R84). -/
  now    : Nat
  /-- A register number presented with this tick and not yet answered (R86, log entry 4). -/
  stat   : Option (BitVec 3)
  /-- The ticks the host has yet to present, first one first (log entry 2). -/
  inputs : List Tick
  deriving DecidableEq, Repr

/-- Why the machine stops. Each is safe: the model stops where the spec says the access cannot happen. -/
inductive Fault where
  /-- A read of a BUF byte at index LEN or above, or of one nothing has written, which has no value (R21, R63). Raised by
  FEED's validation and by the field descriptors. Safe; unreachable from a state that meets the invariant. -/
  | bufferNoValue
  /-- A descriptor fetch at or beyond ROM_LEN (R62). Raised by `step`. Safe; unreachable with a well-formed ROM. -/
  | fetchBeyondRom
  deriving DecidableEq, Repr

/-- Why the model gives no meaning. Each is safe: the spec's own treatment is `refuse`. -/
inductive Refusal where
  /-- An instruction that has no meaning yet. Raised by `exec`'s arms only. Safe. -/
  | notModelled (mnemonic : String)
  /-- The ROM of the instance's role fails a check of R104 (R273, U6). Raised by `step` before anything runs, and by FEED's
  dispatch where the scan meets what is no header. Safe. -/
  | illFormedRom (check : RomCheck)
  /-- BUF_CAP below 266 (R126, U14). Raised by `step`. Safe. -/
  | bufCapTooSmall
  /-- TIMEOUT not below 2^TS_W (R9, R25). Raised by `step`. Safe. -/
  | timeoutTooWide
  deriving DecidableEq, Repr

/-- What a step or a meaning answers. -/
abbrev Outcome := Host.Outcome State Fault Refusal

/-- What a read of the payload window answers (R161). -/
inductive PayRead where
  /-- It passes the payload end: Overrun. -/
  | beyondEnd
  /-- It reads a BUF byte that has no value (R63). -/
  | noValue
  | bytes (s : List Byte)
  deriving DecidableEq, Repr

/-- What the scan of the headers of a ROM answers (R224). -/
inductive Scan where
  /-- The word address of the matching header. -/
  | found (dp : Nat)
  /-- No header matches; DP has reached ROM_LEN. -/
  | absent (dp : Nat)
  /-- What stands where a header must stand is none, or a routine has no END. -/
  | illFormed
  deriving DecidableEq, Repr

/-- What the next step runs. -/
inductive Fetched where
  /-- No command is presented (R271). -/
  | wait
  /-- DP is at or beyond ROM_LEN (R62). -/
  | beyondRom
  /-- The word at DP is illegal (R98). -/
  | illegal (why : Illegal)
  /-- The instruction, and the state it runs in. -/
  | run (i : Instr) (s : State)
  deriving DecidableEq, Repr

/-- Where a suffix of a ROM begins, as the grammar of R100 reads it. -/
inductive Suffix where
  /-- At a header or at the ROM's end: whole routines follow. -/
  | atHeader (rs : List Routine)
  /-- Inside a routine: these fields up to its END, then whole routines. -/
  | inFields (fields : List Instr) (rs : List Routine)
  /-- At a LGCY word: then these fields up to the END, then whole routines. -/
  | atLegacy (fid : Fid) (fields : List Instr) (rs : List Routine)
  deriving DecidableEq, Repr

/-- A routine set up around one descriptor word (log entry 16): the ROM, the word's address in it, the payload length and
the key of the frame that is being decoded. -/
structure Placement where
  rom      : List Word
  dp       : Nat
  plen     : Byte
  control  : Byte
  function : Byte
  deriving DecidableEq, Repr

/-- The state after reset (R38): the buffer empty, LAST_TS 0, RES 0x0, no output, the straps at their defaults.
DESIGN CHOICE (log entries 5, 8, 13): the role, the ROMs, the transient registers and the absent read data. -/
def State.reset : State where
  mem := []
  len := 0
  lastTs := 0
  res := 0x0#4
  params := Params.default
  n := 0#8
  sum := 0#16
  rcv := 0#16
  ctl := 0#8
  fn := 0#8
  plen := 0#8
  cur := 0#8
  dp := 0#16
  acc := 0#32
  pend := []
  ready := false
  events := []
  data := none
  phase := .rest
  now := 0
  stat := none
  inputs := []

end Sys2Proof.Machine
end

