-- ==== Sys2Proof/Machine/Flags.lean ====
section
/-! DEFINITION. The result code, the only flag-like state of the block (R24): its four bits and its *consumed* bit. -/

namespace Sys2Proof.Machine

/-- The four bits of a result code (R24). -/
def Code.toBits : Code → BitVec 4
  | .incomplete => 0x0#4
  | .malformedStart => 0x1#4
  | .decoded => 0x8#4
  | .noData => 0x9#4
  | .checksum => 0xA#4
  | .size => 0xB#4
  | .unknown => 0xC#4
  | .overrun => 0xD#4

/-- Bit 3, the *consumed* bit: 1 means FrameReady (R24, R128). -/
def Code.consumed (c : Code) : Bool := c.toBits.getLsbD 3

end Sys2Proof.Machine
end

