-- ==== Sys2Proof/WellFormed.lean ====
section
/-! DEFINITION. Which instructions have an encoding (R94, R98): a slice length is 1 to 255. Every other field of R91 to R95
takes every value of its type, because the operands that R98 forbids together cannot be written as a term of Instr.
The well-formedness of a whole ROM (R104) is in Sys2Proof/Machine/Rom.lean. -/

namespace Sys2Proof

/-- The instruction has an encoding: LENF = 0 is illegal in SKIP, TEXT and BITS (R98). -/
def Instr.wf : Instr → Bool
  | .reset => true
  | .idle => true
  | .feed _ => true
  | .regrd _ => true
  | .rtn _ _ _ _ => true
  | .nodata _ _ => true
  | .lgcy _ => true
  | .u8 _ _ => true
  | .u16 _ _ => true
  | .u24 _ _ => true
  | .u32 _ _ => true
  | .s8 _ _ => true
  | .s16 _ _ => true
  | .s24 _ _ => true
  | .s32 _ _ => true
  | .skip n => n != 0#8
  | .text _ n _ => n != 0#8
  | .bits n _ => n != 0#8
  | .end_ => true

end Sys2Proof
end

