-- ==== Sys2Proof/Decode.lean ====
section
/-! DEFINITION. The decoder of the port command word (R85), of the status read port (R86) and of descriptor words (R90 to
R95, rejecting the words of R98 by name), and after it the encoder written from the same tables. -/

namespace Sys2Proof

/-- `w[lo+len-1 : lo]` (R10). -/
def bitField (w : Word) (lo len : Nat) : BitVec len := w.extractLsb' lo len

/-- The port command word (R85): every word is one of the three, and rst wins over valid. -/
def decodeCommand (c : Cmd) : Instr :=
  if c.getLsbD 9 then .reset
  else if c.getLsbD 8 then .feed (c.extractLsb' 0 8)
  else .idle

/-- Format H (R91). -/
def decodeHeader (w : Word) : Except Illegal Instr :=
  let kind := bitField w 26 2
  let lg := w.getLsbD 25
  let control := bitField w 16 8
  let function := bitField w 8 8
  let explen := bitField w 0 8
  if w.getLsbD 24 then .error .reservedBit
  else if kind = 0b00#2 then .ok (.rtn lg control function explen)
  else if kind = 0b01#2 then
    if lg then .error .nodataLegacy
    else if explen ≠ 0#8 then .error .nodataLength
    else .ok (.nodata control function)
  else .error .badKind

/-- Format L (R92). -/
def decodeLegacy (w : Word) : Except Illegal Instr :=
  if bitField w 12 16 ≠ 0#16 then .error .reservedBit
  else .ok (.lgcy (bitField w 0 12))

/-- CONV and DIVSEL together (R93, R98). -/
def decodeConv (conv k : BitVec 2) : Except Illegal Conv :=
  if conv = 0b00#2 then .ok (.num k)
  else if conv = 0b01#2 then (if k ≠ 0#2 then .error .divselWithoutNum else .ok .rs)
  else if conv = 0b10#2 then (if k ≠ 0#2 then .error .divselWithoutNum else .ok .fw)
  else .error .badConv

/-- The unsigned descriptor of width `wsel + 1` bytes (R93). -/
def unsignedRead (wsel : BitVec 2) (conv : Conv) (fid : Fid) : Instr :=
  if wsel = 0#2 then .u8 conv fid
  else if wsel = 1#2 then .u16 conv fid
  else if wsel = 2#2 then .u24 conv fid
  else .u32 conv fid

/-- The signed descriptor of width `wsel + 1` bytes (R93). -/
def signedRead (wsel : BitVec 2) (k : BitVec 2) (fid : Fid) : Instr :=
  if wsel = 0#2 then .s8 k fid
  else if wsel = 1#2 then .s16 k fid
  else if wsel = 2#2 then .s24 k fid
  else .s32 k fid

/-- Format I (R93); SGN = 1 requires CONV = NUM. -/
def decodeInteger (w : Word) : Except Illegal Instr :=
  let wsel := bitField w 25 2
  let fid := bitField w 0 12
  if bitField w 12 9 ≠ 0#9 then .error .reservedBit
  else match decodeConv (bitField w 23 2) (bitField w 21 2) with
    | .error e => .error e
    | .ok conv =>
      if w.getLsbD 27 then
        match conv with
        | .num k => .ok (signedRead wsel k fid)
        | .rs => .error .signedConversion
        | .fw => .error .signedConversion
      else .ok (unsignedRead wsel conv fid)

/-- Format S (R94). -/
def decodeSlice (w : Word) : Except Illegal Instr :=
  let rend := bitField w 26 2
  let supp := w.getLsbD 25
  let n := bitField w 16 8
  let fid := bitField w 0 12
  if w.getLsbD 24 then .error .reservedBit
  else if bitField w 12 4 ≠ 0#4 then .error .reservedBit
  else if rend = 0b11#2 then .error .badRender
  else if supp = true ∧ rend ≠ 0b01#2 then .error .suppressWithoutText
  else if n = 0#8 then .error .zeroLength
  else if rend = 0b00#2 then (if fid ≠ 0#12 then .error .skipFid else .ok (.skip n))
  else if rend = 0b01#2 then .ok (.text supp n fid)
  else .ok (.bits n fid)

/-- A word of a layout ROM (R90): the class in bits 31:28 selects the format. -/
def decodeDescriptor (w : Word) : Except Illegal Instr :=
  let cls := bitField w 28 4
  if cls = 0x1#4 then decodeHeader w
  else if cls = 0x2#4 then decodeLegacy w
  else if cls = 0x3#4 then decodeInteger w
  else if cls = 0x4#4 then decodeSlice w
  else if cls = 0xF#4 then (if w = 0xF0000000#32 then .ok .end_ else .error .badEnd)
  else .error .noClass

/-- The decoder: total on what the port, the status read port or the ROM holds. -/
def decode : Encoded → Except Illegal Instr
  | .port c => .ok (decodeCommand c)
  | .stat n => .ok (.regrd n)
  | .word w => decodeDescriptor w

/-- CONV of R93. -/
def Conv.sel : Conv → BitVec 2
  | .num _ => 0b00#2
  | .rs => 0b01#2
  | .fw => 0b10#2

/-- DIVSEL of R93: 0 unless CONV = NUM. -/
def Conv.divsel : Conv → BitVec 2
  | .num k => k
  | .rs => 0#2
  | .fw => 0#2

/-- A field of a descriptor word, its least significant bit at `lo` (R10). -/
def placeField {k : Nat} (lo : Nat) (x : BitVec k) : Word := x.setWidth 32 <<< lo

/-- A word of format H (R91). -/
def headerWord (kind : BitVec 2) (lg : Bool) (control function explen : Byte) : Word :=
  placeField 28 0x1#4 ||| placeField 26 kind ||| placeField 25 (BitVec.ofBool lg) ||| placeField 16 control |||
    placeField 8 function ||| placeField 0 explen

/-- A word of format L (R92). -/
def legacyWord (fid : Fid) : Word := placeField 28 0x2#4 ||| placeField 0 fid

/-- A word of format I (R93). -/
def integerWord (sgn : Bool) (wsel : BitVec 2) (conv : Conv) (fid : Fid) : Word :=
  placeField 28 0x3#4 ||| placeField 27 (BitVec.ofBool sgn) ||| placeField 25 wsel ||| placeField 23 conv.sel |||
    placeField 21 conv.divsel ||| placeField 0 fid

/-- A word of format S (R94). -/
def sliceWord (rend : BitVec 2) (supp : Bool) (n : Byte) (fid : Fid) : Word :=
  placeField 28 0x4#4 ||| placeField 26 rend ||| placeField 25 (BitVec.ofBool supp) ||| placeField 16 n |||
    placeField 0 fid

/-- The word of format E (R95). -/
def endWord : Word := 0xF0000000#32

/-- The encoder (R85, R86, R91 to R95). The bits a PORT row leaves open are 0. -/
def encode : Instr → Encoded
  | .reset => .port 0x200#10
  | .idle => .port 0x000#10
  | .feed b => .port (0x100#10 ||| b.setWidth 10)
  | .regrd n => .stat n
  | .rtn lg control function explen => .word (headerWord 0b00#2 lg control function explen)
  | .nodata control function => .word (headerWord 0b01#2 false control function 0#8)
  | .lgcy fid => .word (legacyWord fid)
  | .u8 conv fid => .word (integerWord false 0#2 conv fid)
  | .u16 conv fid => .word (integerWord false 1#2 conv fid)
  | .u24 conv fid => .word (integerWord false 2#2 conv fid)
  | .u32 conv fid => .word (integerWord false 3#2 conv fid)
  | .s8 k fid => .word (integerWord true 0#2 (.num k) fid)
  | .s16 k fid => .word (integerWord true 1#2 (.num k) fid)
  | .s24 k fid => .word (integerWord true 2#2 (.num k) fid)
  | .s32 k fid => .word (integerWord true 3#2 (.num k) fid)
  | .skip n => .word (sliceWord 0b00#2 false n 0#12)
  | .text supp n fid => .word (sliceWord 0b01#2 supp n fid)
  | .bits n fid => .word (sliceWord 0b10#2 false n fid)
  | .end_ => .word endWord

/-- What `nbits` bits numbered as spec/opcode_table.json numbers them are to the hardware (R84, R86, R90): the rows of at
most 8 bits are the status read port's, those of at most 16 bits the command word's, the others ROM words. Bits a port has
no line for are not looked at (log entry 18). -/
def tableEncoding (nbits w : Nat) : Encoded :=
  if nbits ≤ 8 then .stat (BitVec.ofNat 3 w)
  else if nbits ≤ 16 then .port (BitVec.ofNat 10 w)
  else .word (BitVec.ofNat 32 w)

/-- The decoder asked about a row of the opcode table. -/
def decodeTableWord (nbits w : Nat) : Option Instr :=
  match decode (tableEncoding nbits w) with
  | .ok i => some i
  | .error _ => none

end Sys2Proof
end

