-- ==== Sys2Proof/Machine/Operands.lean ====
section
/-! DEFINITION. Operand forms and value computations: big-endian and two's-complement readings (R10), the conversions NUM,
RS and FW (R200 to R202), the text and bit-vector renderings (R173, R174), the frame checksum (R145), the widths of
descriptors (R96). -/

namespace Sys2Proof.Machine

/-- `be(S)`, the big-endian unsigned value of a byte sequence (R10). -/
def bigEndian (s : List Byte) : Nat := s.foldl (fun acc b => 256 * acc + b.toNat) 0

/-- `sext_N(v)` (R10): the two's-complement reading of `v < 2^bits`. PRESUMED by the spec (G1, log entry 11). -/
def signExtend (bits v : Nat) : Int := if v < 2 ^ (bits - 1) then (v : Int) else (v : Int) - 2 ^ bits

/-- The value of an integer field of `w` bytes whose unsigned value is `v` (R162). -/
def reading (signed : Bool) (w v : Nat) : Int := if signed then signExtend (8 * w) v else (v : Int)

/-- The ASCII character of a decimal digit. -/
def digitByte (d : Nat) : Byte := BitVec.ofNat 8 (0x30 + d)

/-- The decimal digits of `v` before `tail`, at most `fuel` of them. -/
def decimalDigits : Nat → Nat → List Byte → List Byte
  | 0, _, tail => tail
  | fuel + 1, v, tail =>
    if v < 10 then digitByte v :: tail else decimalDigits fuel (v / 10) (digitByte (v % 10) :: tail)

/-- `dec(v)`, the shortest decimal numeral in ASCII (R201). A numeral has at most `log2 v + 1` digits. -/
def decimal (v : Nat) : List Byte := decimalDigits (v.log2 + 1) v []

/-- `dec2(v)`, exactly two decimal digits, for `v` in 0..99 (R202). -/
def decimal2 (v : Nat) : List Byte := [digitByte (v / 10), digitByte (v % 10)]

/-- The ASCII bytes of a text. -/
def ascii (s : List Char) : List Byte := s.map (fun c => BitVec.ofNat 8 c.toNat)

/-- RS (R201). -/
def runState (v : Nat) : List Byte :=
  if v = 0 then ascii ['S', 't', 'a', 'r', 't', 'u', 'p']
  else if v = 1 then ascii ['O', 'n', 'l', 'i', 'n', 'e']
  else if v = 2 then ascii ['W', 'a', 'i', 't', 'i', 'n', 'g']
  else decimal v

/-- FW (R202): base-10000 and base-100 positional decomposition. -/
def firmware (v : Nat) : List Byte :=
  let build := v % 10000
  let q := v / 10000
  let minor := q % 100
  let major := q / 100
  ascii ['V'] ++ decimal major ++ ascii ['.'] ++ decimal2 minor ++ ascii ['B', 'u', 'i', 'l', 'd'] ++ decimal build

/-- `convert(conv, k, v)` (R200 to R202). RS and FW stand in unsigned descriptors only, so there `v` is not negative. -/
def convertValue (conv : Conv) (v : Int) : Value :=
  match conv with
  | .num k => .num v k
  | .rs => .str (runState v.toNat)
  | .fw => .str (firmware v.toNat)

/-- The text of a slice (R173): every null removed, then the bytes of WS trimmed at both edges. -/
def textOf (ws : List Byte) (s : List Byte) : List Byte :=
  (((s.filter (· != 0#8)).dropWhile ws.contains).reverse.dropWhile ws.contains).reverse

/-- The suppression test of SUPP (R173): the text is empty, or the raw slice begins with a null byte. -/
def suppressed (ws : List Byte) (s : List Byte) : Bool :=
  (textOf ws s).isEmpty || s.head? == some 0#8

/-- The eight characters of a byte, most-significant bit first (R174). -/
def bitChars (x : Byte) : List Byte :=
  [7, 6, 5, 4, 3, 2, 1, 0].map (fun i => if x.getLsbD i then 0x31#8 else 0x30#8)

/-- The bit-vector rendering of a slice (R174). -/
def bitString (s : List Byte) : List Byte := s.flatMap bitChars

/-- The computed checksum: the low 16 bits of the arithmetic sum of the bytes (R145). -/
def checksumOf (s : List Byte) : Half := BitVec.ofNat 16 (s.map BitVec.toNat).sum

/-- The received checksum: the big-endian 16-bit value of two bytes (R146). -/
def receivedOf (s : List Byte) : Half := BitVec.ofNat 16 (bigEndian s)

/-- `elapsed = (now - last) mod 2^TS_W` (R123). -/
def elapsed (tsW now last : Nat) : Nat := (((now : Int) - (last : Int)) % ((2 ^ tsW : Nat) : Int)).toNat

end Sys2Proof.Machine

namespace Sys2Proof

/-- The width of a descriptor in payload bytes (R96): `WSEL + 1` for format I, `LENF` for format S, 0 for H, L and E. -/
def Instr.width : Instr → Nat
  | .u8 _ _ => 1
  | .u16 _ _ => 2
  | .u24 _ _ => 3
  | .u32 _ _ => 4
  | .s8 _ _ => 1
  | .s16 _ _ => 2
  | .s24 _ _ => 3
  | .s32 _ _ => 4
  | .skip n => n.toNat
  | .text _ n _ => n.toNat
  | .bits n _ => n.toNat
  | .reset => 0
  | .idle => 0
  | .feed _ => 0
  | .regrd _ => 0
  | .rtn _ _ _ _ => 0
  | .nodata _ _ => 0
  | .lgcy _ => 0
  | .end_ => 0

/-- The `field` of the grammar of R100: the descriptors of formats I and S. -/
def Instr.isField : Instr → Bool
  | .u8 _ _ => true
  | .u16 _ _ => true
  | .u24 _ _ => true
  | .u32 _ _ => true
  | .s8 _ _ => true
  | .s16 _ _ => true
  | .s24 _ _ => true
  | .s32 _ _ => true
  | .skip _ => true
  | .text _ _ _ => true
  | .bits _ _ => true
  | .reset => false
  | .idle => false
  | .feed _ => false
  | .regrd _ => false
  | .rtn _ _ _ _ => false
  | .nodata _ _ => false
  | .lgcy _ => false
  | .end_ => false

end Sys2Proof
end

