-- ==== Sys2Proof/Machine/Rom.lean ====
section
/-! DEFINITION. A layout ROM as a whole: its parse into routines (R100, R102), the five checks of its well-formedness (R104),
the checks of the parameters (R9), and the scan of the headers for a key (R224). -/

namespace Sys2Proof.Machine

/-- The words of a ROM as instructions, if none is illegal (`wf_words` of R104). -/
def decodeRom : List Word → Option (List Instr)
  | [] => some []
  | w :: ws =>
    match decodeDescriptor w with
    | .error _ => none
    | .ok i => (decodeRom ws).map (i :: ·)

/-- One instruction at address `a` before a suffix of a ROM (R100): END closes the routine that begins before it, a header
opens the routine that follows it, a field or a LGCY word joins it. -/
def parseStep (a : Nat) (i : Instr) (q : Suffix) : Option Suffix :=
  match q with
  | .atHeader rs =>
    match i with
    | .end_ => some (.inFields [] rs)
    | _ => none
  | .atLegacy fid fs rs =>
    match i with
    | .rtn true c f e =>
      some (.atHeader ({ control := c, function := f, kind := .decode, explen := e, legacy := some fid, fields := fs,
                         start := a } :: rs))
    | _ => none
  | .inFields fs rs =>
    match i with
    | .lgcy fid => some (.atLegacy fid fs rs)
    | .rtn false c f e =>
      some (.atHeader ({ control := c, function := f, kind := .decode, explen := e, legacy := none, fields := fs,
                         start := a } :: rs))
    | .nodata c f =>
      if fs = [] then
        some (.atHeader ({ control := c, function := f, kind := .noData, explen := 0#8, legacy := none, fields := [],
                           start := a } :: rs))
      else none
    | i => if i.isField then some (.inFields (i :: fs) rs) else none

/-- The grammar of R100 read from the end of the ROM: what the words from address `a` on are, if they end a ROM that
parses. A suffix that begins inside a routine is told from one that begins at a header. -/
def parseFrom : Nat → List Instr → Option Suffix
  | _, [] => some (.atHeader [])
  | a, i :: is =>
    match parseFrom (a + 1) is with
    | none => none
    | some q => parseStep a i q

/-- The routines of a ROM (R102), if it parses (`wf_grammar` of R104). -/
def routines (is : List Instr) : Option (List Routine) :=
  match parseFrom 0 is with
  | some (.atHeader rs) => some rs
  | _ => none

/-- The words of one routine as instructions (R100): the inverse of the parse (R102). -/
def assembleRoutine (r : Routine) : List Instr :=
  match r.kind, r.legacy with
  | .noData, _ => [.nodata r.control r.function, .end_]
  | .decode, none => .rtn false r.control r.function r.explen :: (r.fields ++ [.end_])
  | .decode, some fid => .rtn true r.control r.function r.explen :: .lgcy fid :: (r.fields ++ [.end_])

/-- The sum of the widths of fields (R96). -/
def widthSum (fs : List Instr) : Nat := (fs.map Instr.width).sum

/-- `wf_sum` of R104: the widths of every RTN routine's fields add up to its EXPLEN. -/
def wfSum (rs : List Routine) : Bool :=
  rs.all (fun r => r.kind == .noData || widthSum r.fields == r.explen.toNat)

/-- `wf_keys` of R104: no two routines have the same (CONTROL, FUNCTION). -/
def wfKeys : List Routine → Bool
  | [] => true
  | r :: rs => rs.all (fun q => !(q.control == r.control && q.function == r.function)) && wfKeys rs

/-- The first check of R104 a ROM fails; none for a well-formed ROM. -/
def romDefect (rom : List Word) : Option RomCheck :=
  if rom.length ≤ Config.maxRom then
    match decodeRom rom with
    | none => some .wfWords
    | some is =>
      match routines is with
      | none => some .wfGrammar
      | some rs => if wfSum rs then (if wfKeys rs then none else some .wfKeys) else some .wfSum
  else some .wfLen

/-- `ROM[ROLE]`: the only ROM an instance reads (R62, R222). -/
def roleRom (p : Params) : List Word :=
  match p.role with
  | .deviceTelemetry => p.rom0
  | .loggerGateway => p.rom1

/-- Why parameters are refused (R104, R273, U6; R126, U14; R9; log entry 6); none for parameters an instance may have. -/
def paramsDefect (p : Params) : Option Refusal :=
  if p.bufCap < Config.maxFrame then some .bufCapTooSmall
  else if 2 ^ p.tsW ≤ p.timeout then some .timeoutTooWide
  else (romDefect (roleRom p)).map .illFormedRom

/-- The key of a header word (R96), none for any other word. -/
def headerKey (w : Word) : Option (Byte × Byte) :=
  match decodeDescriptor w with
  | .ok (.rtn _ c f _) => some (c, f)
  | .ok (.nodata c f) => some (c, f)
  | _ => none

/-- The loop of R224 over the words from address `a` on: at a header it compares the key, and after a header that does not
match it steps over everything up to the END that closes the routine. -/
def scanHeaders (control function : Byte) : Bool → Nat → List Word → Scan
  | true, a, [] => .absent a
  | false, _, [] => .illFormed
  | true, a, w :: ws =>
    match headerKey w with
    | none => .illFormed
    | some key =>
      if key = (control, function) then .found a else scanHeaders control function false (a + 1) ws
  | false, a, w :: ws =>
    if w = endWord then scanHeaders control function true (a + 1) ws
    else scanHeaders control function false (a + 1) ws

/-- The lookup of R223: the routine of a ROM that has the key. -/
def lookup (rs : List Routine) (control function : Byte) : Option Routine :=
  rs.find? (fun r => r.control == control && r.function == function)

end Sys2Proof.Machine
end

