-- ==== Sys2Proof/Machine/Ops.lean ====
section
/-! DEFINITION. The named operations over memory and registers: reads and the append of BUF (R51, R63, R125), the payload
window (R53, R161), the timeout and the timestamp (R123, R124), events and PEND (R11, R32), the end of a FEED (R127, R128,
R251), the Overrun (R161, R247), the status registers (R28), and what the next step runs. -/

namespace Sys2Proof.Machine

/-- The byte a memory lists at an address; an unlisted byte has no value (log entry 7). -/
def Memory.read : List Host.Cell → Nat → Option Byte
  | [], _ => none
  | (x, v) :: m, a => if a = x then some v else Memory.read m a

/-- A store of one byte, keeping the addresses strictly rising. -/
def Memory.write : List Host.Cell → Nat → Byte → List Host.Cell
  | [], a, b => [(a, b)]
  | (x, v) :: m, a, b =>
    if a < x then (a, b) :: (x, v) :: m
    else if a = x then (a, b) :: m
    else (x, v) :: Memory.write m a b

/-- The addresses rise strictly and none is below `lo`. -/
def Memory.wfFrom : Nat → List Host.Cell → Bool
  | _, [] => true
  | lo, (x, _) :: m => lo ≤ x && Memory.wfFrom (x + 1) m

/-- The canonical form of a memory. -/
def Memory.wf (m : List Host.Cell) : Bool := Memory.wfFrom 0 m

/-- `n` reads from `a` on, none where one of them has no value. -/
def readRun (f : Nat → Option Byte) : Nat → Nat → Option (List Byte)
  | _, 0 => some []
  | a, n + 1 =>
    match f a with
    | none => none
    | some b => (readRun f (a + 1) n).map (b :: ·)

/-- `BUF[i]`, defined for `i < LEN` only (R21, R51). -/
def State.buf (s : State) (i : Nat) : Option Byte :=
  if i < s.len then Memory.read s.mem i else none

/-- `BUF[a : a+n)`. -/
def State.bufSlice (s : State) (a n : Nat) : Option (List Byte) := readRun s.buf a n

/-- `ROM[ROLE]` (R62). -/
def State.rom (s : State) : List Word := roleRom s.params

/-- `MemRead(a, n)` of the payload window, `PAY[i] = BUF[9 + i]` (R53, R161). -/
def State.payRead (s : State) (a n : Nat) : PayRead :=
  if a + n ≤ s.plen.toNat then
    match s.bufSlice (Config.hdrLen + a) n with
    | none => .noValue
    | some bytes => .bytes bytes
  else .beyondEnd

/-- `emit(e)` (R11). -/
def State.emit (s : State) (e : Event) : State := { s with events := s.events ++ [e] }

/-- `pend(e)` (R11). -/
def State.pendEvent (s : State) (e : Event) : State := { s with pend := s.pend ++ [e] }

/-- The outputs at the start of a port command: nothing produced yet (R33, R35). -/
def State.startCommand (s : State) : State := { s with ready := false, events := [], data := none }

/-- The end of a FEED, for every class of outcome: RES and `ready` take the code, and a consumed frame leaves the buffer
(R127, R128, R251). The block then waits for the next command. Nothing is saved and there is no return (R252, R253). -/
def State.finish (s : State) (c : Code) : State :=
  { s with
    res := c.toBits
    ready := c.consumed
    len := if c.consumed then 0 else s.len
    phase := .rest }

/-- `raise Overrun` by a read of `width` bytes (R161, R247): PEND is dropped, the event is emitted, the FEED ends. -/
def State.raiseOverrun (s : State) (width : Nat) : State :=
  (({ s with pend := [] } : State).emit (.overrun s.dp s.cur (BitVec.ofNat 8 width) s.plen)).finish .overrun

/-- `DP <- DP + k` (R31, R226). -/
def State.advance (s : State) (k : Nat) : State := { s with dp := s.dp + BitVec.ofNat 16 k }

/-- The port `now`, TS_W bits wide (R84). -/
def State.nowPort (s : State) : Nat := s.now % 2 ^ s.params.tsW

/-- `elapsed > TIMEOUT` (R123). -/
def State.timedOut (s : State) : Bool := decide (s.params.timeout < elapsed s.params.tsW s.nowPort s.lastTs)

/-- The timeout discard (R123). -/
def State.timeoutDiscard (s : State) : State := if s.timedOut then { s with len := 0 } else s

/-- `LAST_TS <- now` (R124). -/
def State.stamp (s : State) : State := { s with lastTs := s.nowPort }

/-- The address the append of the next byte stores to, none at saturation (R125). -/
def State.appendAddr (s : State) : Option Nat :=
  if s.len < s.params.bufCap then some s.len else none

/-- The append of one byte (R125); at saturation the byte is dropped. -/
def State.append (s : State) (b : Byte) : State :=
  match s.appendAddr with
  | some a => { s with mem := Memory.write s.mem a b, len := s.len + 1 }
  | none => s

/-- FEED up to the validation (R122): discard, timestamp, append. -/
def State.receive (s : State) (b : Byte) : State := (s.timeoutDiscard.stamp).append b

/-- END's commit: the pending events, in order (R196). -/
def State.commit (s : State) : State := { s with events := s.events ++ s.pend, pend := [] }

/-- The number of a role (R26). -/
def roleNumber : Role → Nat
  | .deviceTelemetry => 0
  | .loggerGateway => 1

/-- What the 16 bits of LEN read as (R20, R28): the count, and a free value where it does not fit them (log entry 20). -/
def State.lenRegister (s : State) : Nat := if s.len < 2 ^ 16 then s.len else (Config.wideLen s.len).toNat

/-- `REG[n]` (R28), zero-extended. -/
def State.reg (s : State) (n : BitVec 3) : Nat :=
  if n = 0#3 then s.lenRegister
  else if n = 1#3 then s.res.toNat
  else if n = 2#3 then s.lastTs
  else if n = 3#3 then s.params.timeout
  else if n = 4#3 then roleNumber s.params.role
  else 0

/-- A field descriptor's read of `width` bytes at CUR, and what it does with them (R162, R171): CUR advances by the width
and, after `use`, DP by one; past the payload end it raises Overrun instead. -/
def State.readField (s : State) (width : Nat) (use : State → List Byte → State) : Outcome :=
  match s.payRead s.cur.toNat width with
  | .beyondEnd => .next (s.raiseOverrun width)
  | .noValue => .fault .bufferNoValue
  | .bytes bytes => .next ((use { s with cur := s.cur + BitVec.ofNat 8 width } bytes).advance 1)

/-- The common body of the eight integer descriptors after the read (R162). -/
def State.useInteger (signed : Bool) (width : Nat) (conv : Conv) (fid : Fid) (s : State) (bytes : List Byte) : State :=
  let v := bigEndian bytes
  ({ s with acc := BitVec.ofNat 32 v } : State).pendEvent (.publish fid (convertValue conv (reading signed width v)))

/-- `INT(w, signed, conv, k, fid)` (R162). -/
def State.readInteger (s : State) (width : Nat) (signed : Bool) (conv : Conv) (fid : Fid) : Outcome :=
  s.readField width (State.useInteger signed width conv fid)

/-- What the next step runs: inside a FEED the descriptor at DP (R194, R224); else a status read of the present tick
(R86); else the command of the next tick (R84). -/
def State.fetch (s : State) : Fetched :=
  match s.phase with
  | .decode =>
    match s.rom[s.dp.toNat]? with
    | none => .beyondRom
    | some w =>
      match decodeDescriptor w with
      | .error why => .illegal why
      | .ok i => .run i s
  | .rest =>
    match s.stat with
    | some n => .run (.regrd n) { s with stat := none }
    | none =>
      match s.inputs with
      | [] => .wait
      | t :: ts => .run (decodeCommand t.cmd) { s with inputs := ts, now := t.now, stat := t.stat }

/-- The bytes of a frame with zero addresses (R52, R81) and its checksum (R145). -/
def frameBytes (control function : Byte) (payload : List Byte) : List Byte :=
  let body := [Config.marker, Config.marker, 0#8, 0#8, 0#8, 0#8, control, function,
    BitVec.ofNat 8 payload.length] ++ payload
  let ck := checksumOf body
  body ++ [ck.extractLsb' 8 8, ck.extractLsb' 0 8]

/-- A memory that lists bytes from an address on. -/
def cellsFrom : Nat → List Byte → List Host.Cell
  | _, [] => []
  | a, b :: bs => (a, b) :: cellsFrom (a + 1) bs

/-- SKIP descriptors that account for `n` payload bytes (R172). -/
def skipWords (n : Byte) : List Word := if n = 0#8 then [] else [sliceWord 0b00#2 false n 0#12]

/-- A well-formed ROM that holds a descriptor word, and the frame its routine is decoding (R100): a header stands with a
routine of its own key, any other word in a routine of the key (0, 0). An illegal word stands alone: no routine holds it. -/
def placementOf (w : Word) : Placement :=
  match decodeDescriptor w with
  | .error _ => { rom := [w], dp := 0, plen := 0#8, control := 0#8, function := 0#8 }
  | .ok i =>
    match i with
    | .rtn false c f e => { rom := w :: (skipWords e ++ [endWord]), dp := 0, plen := e, control := c, function := f }
    | .rtn true c f e =>
      { rom := w :: legacyWord 0#12 :: (skipWords e ++ [endWord]), dp := 0, plen := e, control := c, function := f }
    | .nodata c f => { rom := [w, endWord], dp := 0, plen := 0#8, control := c, function := f }
    | .lgcy _ =>
      { rom := [headerWord 0b00#2 true 0#8 0#8 0#8, w, endWord], dp := 1, plen := 1#8, control := 0#8, function := 0#8 }
    | .end_ =>
      { rom := [headerWord 0b00#2 false 0#8 0#8 0#8, endWord], dp := 1, plen := 0#8, control := 0#8, function := 0#8 }
    | i =>
      let width := BitVec.ofNat 8 i.width
      { rom := [headerWord 0b00#2 false 0#8 0#8 width, w, endWord], dp := 1, plen := width, control := 0#8,
        function := 0#8 }

/-- The state in the middle of a FEED whose frame, of zero payload bytes, is being decoded by the routine around the word,
with DP at the word (log entry 16). -/
def State.placeWord (s : State) (w : Word) : State :=
  let place := placementOf w
  let frame := frameBytes place.control place.function (List.replicate place.plen.toNat 0#8)
  { s with
    params := { s.params with
      rom0 := if s.params.role = .deviceTelemetry then place.rom else s.params.rom0
      rom1 := if s.params.role = .loggerGateway then place.rom else s.params.rom1 }
    mem := cellsFrom 0 frame
    len := frame.length
    ctl := place.control
    fn := place.function
    n := place.plen
    plen := place.plen
    cur := 0#8
    dp := BitVec.ofNat 16 place.dp
    phase := .decode }

/-- The state in which the next command is the given word, with nothing else presented. -/
def State.placeCommand (s : State) (c : Cmd) : State :=
  { s with phase := .rest, stat := none, inputs := { cmd := c, now := s.now, stat := none } :: s.inputs }

/-- The state in which the next step is the given status read. -/
def State.placeStatusRead (s : State) (n : BitVec 3) : State := { s with phase := .rest, stat := some n }

end Sys2Proof.Machine
end

