-- ==== Sys2Proof/Machine/Header.lean ====
section
/-! DEFINITION. The meanings of the words that frame a routine: RTN, NODATA, LGCY, END (R191 to R196). -/

namespace Sys2Proof.Machine

/-- RTN (R191): the size check, then the fields, stepping over the LGCY word if there is one. On a mismatch the signal of
R192; with LG the LGCY word is run next (log entry 9), without it the frame ends as SIZE. CONTROL and FUNCTION are the
dispatch's. -/
def execRtn (lg : Bool) (_ctl _fn explen : Byte) (s : State) : Outcome :=
  if s.plen = explen then
    .next (({ s with cur := 0#8, pend := [] } : State).advance (if lg then 2 else 1))
  else
    let s' := s.emit (.sizeMismatch explen s.plen)
    if lg then .next (s'.advance 1) else .next (s'.finish .size)

/-- NODATA (R195): no size check, no read, no event. -/
def execNodata (_ctl _fn : Byte) (s : State) : Outcome := .next (s.finish .noData)

/-- LGCY (R193): the legacy fallback publishes the mismatched length itself, and the frame ends as SIZE. -/
def execLgcy (fid : Fid) (s : State) : Outcome :=
  .next ((s.emit (.publish fid (.num (s.plen.toNat : Int) 0#2))).finish .size)

/-- END (R196): the pending events are committed in order. -/
def execEnd (s : State) : Outcome := .next (s.commit.finish .decoded)

end Sys2Proof.Machine
end

