-- ==== Sys2Proof/Machine/Integer.lean ====
section
/-! DEFINITION. The meanings of the eight integer descriptors (R162 to R170). -/

namespace Sys2Proof.Machine

/-- U8 (R163). -/
def execU8 (conv : Conv) (fid : Fid) (s : State) : Outcome := s.readInteger 1 false conv fid

/-- U16 (R164). -/
def execU16 (conv : Conv) (fid : Fid) (s : State) : Outcome := s.readInteger 2 false conv fid

/-- U24 (R165). -/
def execU24 (conv : Conv) (fid : Fid) (s : State) : Outcome := s.readInteger 3 false conv fid

/-- U32 (R166). -/
def execU32 (conv : Conv) (fid : Fid) (s : State) : Outcome := s.readInteger 4 false conv fid

/-- S8 (R167). -/
def execS8 (k : BitVec 2) (fid : Fid) (s : State) : Outcome := s.readInteger 1 true (.num k) fid

/-- S16 (R168). -/
def execS16 (k : BitVec 2) (fid : Fid) (s : State) : Outcome := s.readInteger 2 true (.num k) fid

/-- S24 (R169). -/
def execS24 (k : BitVec 2) (fid : Fid) (s : State) : Outcome := s.readInteger 3 true (.num k) fid

/-- S32 (R170). -/
def execS32 (k : BitVec 2) (fid : Fid) (s : State) : Outcome := s.readInteger 4 true (.num k) fid

end Sys2Proof.Machine
end

