-- ==== Sys2Proof/Machine/Validate.lean ====
section
/-! DEFINITION. The sub-operations FEED runs after the append: try_validate (R140 to R148) and dispatch (R224, R225). -/

namespace Sys2Proof.Machine

/-- dispatch (R224): PLEN takes N, the headers are scanned from word 0, and DP is left at the matching header, where the
following steps run the routine. An unknown key is reported and the frame consumed (R225). -/
def State.dispatch (s : State) : Outcome :=
  match scanHeaders s.ctl s.fn true 0 s.rom with
  | .illFormed => .refused (.illFormedRom .wfGrammar)
  | .absent a =>
    .next ((({ s with plen := s.n, dp := BitVec.ofNat 16 a } : State).emit
      (.unknownKey s.params.role s.ctl s.fn)).finish .unknown)
  | .found a => .next { s with plen := s.n, dp := BitVec.ofNat 16 a, phase := .decode }

/-- Steps 4 to 6 of try_validate on a buffer `raw` that holds a whole frame (R145 to R148). -/
def State.checkFrame (s : State) (raw : List Byte) : Outcome :=
  let computed := checksumOf (raw.take (Config.hdrLen + s.n.toNat))
  let received := receivedOf ((raw.drop (Config.hdrLen + s.n.toNat)).take Config.ckLen)
  let s' : State := { s with sum := computed, rcv := received }
  if computed = received then s'.dispatch
  else .next ((s'.emit (.checksumMismatch computed received raw)).finish .checksum)

/-- Step 3 of try_validate, with the header fields of R143: is the whole frame there (R144)? -/
def State.checkLength (s : State) (control function n : Byte) : Outcome :=
  let s' : State := { s with ctl := control, fn := function, n := n }
  if s.len < Config.hdrLen + n.toNat + Config.ckLen then .next (s'.finish .incomplete)
  else
    match s.bufSlice 0 s.len with
    | none => .fault .bufferNoValue
    | some raw => s'.checkFrame raw

/-- try_validate (R140): steps 1 and 2 (R141, R142), then the header fields and the later steps. -/
def State.tryValidate (s : State) : Outcome :=
  if s.len < 2 then .next (s.finish .incomplete)
  else
    match s.buf 0, s.buf 1 with
    | some b0, some b1 =>
      if b0 ≠ Config.marker ∨ b1 ≠ Config.marker then .next (s.finish .malformedStart)
      else if s.len < Config.minFrame then .next (s.finish .incomplete)
      else
        match s.buf 6, s.buf 7, s.buf 8 with
        | some control, some function, some n => s.checkLength control function n
        | _, _, _ => .fault .bufferNoValue
    | _, _ => .fault .bufferNoValue

end Sys2Proof.Machine
end

