-- ==== Sys2Proof/Machine/Port.lean ====
section
/-! DEFINITION. The meanings of the port commands and of the status read: RESET, IDLE, FEED, REGRD (R120 to R129). -/

namespace Sys2Proof.Machine

/-- RESET (R120): the straps and the ROM are not changed. -/
def execReset (s : State) : Outcome :=
  .next { s.startCommand with len := 0, lastTs := 0, res := 0x0#4, phase := .rest }

/-- IDLE (R121): no register changes, and the timeout is not tested. -/
def execIdle (s : State) : Outcome := .next s.startCommand

/-- FEED (R122), up to its result or to the routine that decodes the frame. -/
def execFeed (b : Byte) (s : State) : Outcome := (s.startCommand.receive b).tryValidate

/-- REGRD (R129): the register's value on the read data, no register changed. -/
def execRegrd (n : BitVec 3) (s : State) : Outcome := .next { s.startCommand with data := some (s.reg n) }

end Sys2Proof.Machine
end

