-- ==== Sys2Proof/Machine/Slice.lean ====
section
/-! DEFINITION. The meanings of the three slice descriptors (R171 to R174). -/

namespace Sys2Proof.Machine

/-- SKIP (R172): the slice is discarded. -/
def execSkip (n : Byte) (s : State) : Outcome := s.readField n.toNat (fun s' _ => s')

/-- TEXT (R173). -/
def execText (supp : Bool) (n : Byte) (fid : Fid) (s : State) : Outcome :=
  s.readField n.toNat (fun s' bytes =>
    if supp && suppressed s'.params.ws bytes then s'
    else s'.pendEvent (.publish fid (.str (textOf s'.params.ws bytes))))

/-- BITS (R174). -/
def execBits (n : Byte) (fid : Fid) (s : State) : Outcome :=
  s.readField n.toNat (fun s' bytes => s'.pendEvent (.publish fid (.str (bitString bytes))))

end Sys2Proof.Machine
end

