-- ==== Sys2Proof/Machine/Dispatch.lean ====
section
/-! DEFINITION. One arm per constructor of Instr, each one direct call of its meaning. -/

namespace Sys2Proof.Machine

def exec (i : Instr) (s : State) : Host.Outcome State Fault Refusal :=
  match i with
  | .reset => Sys2Proof.Machine.execReset s
  | .idle => Sys2Proof.Machine.execIdle s
  | .feed b => Sys2Proof.Machine.execFeed b s
  | .regrd n => Sys2Proof.Machine.execRegrd n s
  | .rtn lg ctl fn explen => Sys2Proof.Machine.execRtn lg ctl fn explen s
  | .nodata ctl fn => Sys2Proof.Machine.execNodata ctl fn s
  | .lgcy fid => Sys2Proof.Machine.execLgcy fid s
  | .u8 conv fid => Sys2Proof.Machine.execU8 conv fid s
  | .u16 conv fid => Sys2Proof.Machine.execU16 conv fid s
  | .u24 conv fid => Sys2Proof.Machine.execU24 conv fid s
  | .u32 conv fid => Sys2Proof.Machine.execU32 conv fid s
  | .s8 k fid => Sys2Proof.Machine.execS8 k fid s
  | .s16 k fid => Sys2Proof.Machine.execS16 k fid s
  | .s24 k fid => Sys2Proof.Machine.execS24 k fid s
  | .s32 k fid => Sys2Proof.Machine.execS32 k fid s
  | .skip n => Sys2Proof.Machine.execSkip n s
  | .text supp n fid => Sys2Proof.Machine.execText supp n fid s
  | .bits n fid => Sys2Proof.Machine.execBits n fid s
  | .end_ => Sys2Proof.Machine.execEnd s

end Sys2Proof.Machine
end

