-- ==== Sys2Proof/Machine/Step.lean ====
section
/-! DEFINITION. One step: parameters an instance may not have are refused (R104, R273, U6, U14); with no command presented
nothing happens (R271); else the fetched instruction runs. A FEED that reaches a routine is followed by one step for each
of its descriptors (log entry 1). -/

namespace Sys2Proof.Machine

/-- One step. -/
def step (s : State) : Host.Outcome State Fault Refusal :=
  match paramsDefect s.params with
  | some why => .refused why
  | none =>
    match s.fetch with
    | .wait => .next s
    | .beyondRom => .fault .fetchBeyondRom
    | .illegal _ => .refused (.illFormedRom .wfWords)
    | .run i s' => exec i s'

/-- The state whose next step runs the instruction of these bits: a port command presented in the next tick, a register
number on the status read port, or a descriptor word in the routine that is being run (log entry 16). -/
def State.withFetchWord (s : State) (nbits w : Nat) : State :=
  match tableEncoding nbits w with
  | .stat n => s.placeStatusRead n
  | .port c => s.placeCommand c
  | .word d => s.placeWord d

end Sys2Proof.Machine
end

