-- ==== Sys2Proof/Machine/Reference.lean ====
section
/-! DEFINITION. FEED as ONE function, from the buffer, the routines and the byte to the result, as R122, R140, R224 and R191
to R196 give it over the abstract form of a ROM (R102): the atomic command (R59) the steps of the machine are held to. It
shares the value computations of Machine/Operands.lean and nothing of the step. -/

namespace Sys2Proof.Machine

/-- What a field descriptor publishes, given the payload bytes it reads (R162 to R174). -/
def fieldEvents (ws : List Byte) (i : Instr) (slice : List Byte) : List Event :=
  match i with
  | .u8 conv fid => [.publish fid (convertValue conv (bigEndian slice))]
  | .u16 conv fid => [.publish fid (convertValue conv (bigEndian slice))]
  | .u24 conv fid => [.publish fid (convertValue conv (bigEndian slice))]
  | .u32 conv fid => [.publish fid (convertValue conv (bigEndian slice))]
  | .s8 k fid => [.publish fid (.num (signExtend 8 (bigEndian slice)) k)]
  | .s16 k fid => [.publish fid (.num (signExtend 16 (bigEndian slice)) k)]
  | .s24 k fid => [.publish fid (.num (signExtend 24 (bigEndian slice)) k)]
  | .s32 k fid => [.publish fid (.num (signExtend 32 (bigEndian slice)) k)]
  | .text supp _ fid => if supp && suppressed ws slice then [] else [.publish fid (.str (textOf ws slice))]
  | .bits _ fid => [.publish fid (.str (bitString slice))]
  | .skip _ => []
  | .reset => []
  | .idle => []
  | .feed _ => []
  | .regrd _ => []
  | .rtn _ _ _ _ => []
  | .nodata _ _ => []
  | .lgcy _ => []
  | .end_ => []

/-- What the fields of a routine publish over a payload, in order, each read after the one before it (R160, R194). -/
def fieldsEvents (ws : List Byte) : List Instr → List Byte → List Event
  | [], _ => []
  | i :: is, payload => fieldEvents ws i (payload.take i.width) ++ fieldsEvents ws is (payload.drop i.width)

/-- The outcome of a routine on a payload: a function of the two alone (R190, R197). -/
def routineResult (ws : List Byte) (r : Routine) (payload : List Byte) : Code × List Event :=
  match r.kind with
  | .noData => (.noData, [])
  | .decode =>
    if payload.length = r.explen.toNat then (.decoded, fieldsEvents ws r.fields payload)
    else
      (.size, .sizeMismatch r.explen (BitVec.ofNat 8 payload.length) ::
        (match r.legacy with
         | none => []
         | some fid => [.publish fid (.num payload.length 0#2)]))

/-- The outcome of dispatch, abstractly (R224, R225). -/
def frameResult (p : Params) (rs : List Routine) (control function : Byte) (payload : List Byte) : Code × List Event :=
  match lookup rs control function with
  | none => (.unknown, [.unknownKey p.role control function])
  | some r => routineResult p.ws r payload

/-- try_validate on the bytes of the buffer (R140, R250). -/
def validateResult (p : Params) (rs : List Routine) (raw : List Byte) : Code × List Event :=
  if raw.length < 2 then (.incomplete, [])
  else if raw.take 2 ≠ [Config.marker, Config.marker] then (.malformedStart, [])
  else if raw.length < Config.minFrame then (.incomplete, [])
  else
    let n := (raw.getD 8 0#8).toNat
    if raw.length < Config.minFrame + n then (.incomplete, [])
    else
      let computed := checksumOf (raw.take (Config.hdrLen + n))
      let received := receivedOf ((raw.drop (Config.hdrLen + n)).take Config.ckLen)
      if computed ≠ received then (.checksum, [.checksumMismatch computed received raw])
      else frameResult p rs (raw.getD 6 0#8) (raw.getD 7 0#8) ((raw.drop Config.hdrLen).take n)

/-- The buffer after the timeout discard and the append of FEED (R123, R125). -/
def receivedBuffer (p : Params) (buffer : List Byte) (last now : Nat) (b : Byte) : List Byte :=
  let kept := if p.timeout < elapsed p.tsW now last then [] else buffer
  if kept.length < p.bufCap then kept ++ [b] else kept

/-- The whole FEED (R122): the buffer it leaves, its result code and its events. -/
def feedResult (p : Params) (rs : List Routine) (buffer : List Byte) (last now : Nat) (b : Byte) :
    List Byte × Code × List Event :=
  let raw := receivedBuffer p buffer last now b
  let result := validateResult p rs raw
  (if result.1.consumed then [] else raw, result.1, result.2)

end Sys2Proof.Machine
end

