-- ==== Sys2Proof/Safety.lean ====
section
/-! DEFINITION. What the claims are stated in: the bytes of the buffer, a command run to its end, the invariant of a
well-run instance (R39 and what holds inside a FEED). -/

namespace Sys2Proof.Machine

/-- `BUF[0:LEN)`, if every byte of it has a value (R21). -/
def State.buffer (s : State) : Option (List Byte) := s.bufSlice 0 s.len

/-- The next states until the block is at rest, at most `k` of them (log entry 1): the rest of a FEED. -/
def settle : Nat → State → Outcome
  | 0, s => .next s
  | k + 1, s =>
    match s.phase with
    | .rest => .next s
    | .decode =>
      match step s with
      | .next t => settle k t
      | o => o

/-- A meaning's answer, followed to the end of the command. -/
def settleOutcome (k : Nat) (o : Outcome) : Outcome :=
  match o with
  | .next t => settle k t
  | .fault r => .fault r
  | .refused r => .refused r

/-- The parameters are those an instance may have (R104, R126, R9). -/
def paramsOk (p : Params) : Prop := paramsDefect p = none

/-- The buffer begins with the two markers (R141). -/
def State.wellStarted (s : State) : Prop :=
  2 ≤ s.len ∧ s.buf 0 = some Config.marker ∧ s.buf 1 = some Config.marker

/-- The buffer is dead (R150): two bytes or more, the first two not both the marker. -/
def State.dead (s : State) : Prop :=
  2 ≤ s.len ∧ ∃ b0 b1, s.buf 0 = some b0 ∧ s.buf 1 = some b1 ∧ (b0 ≠ Config.marker ∨ b1 ≠ Config.marker)

/-- Where DP stands inside a FEED: at a word of a routine of the ROM, and where fields are being read, those up to the END
account for exactly the payload bytes not yet read (R198). -/
def State.inRoutine (s : State) : Prop :=
  ∃ is, decodeRom s.rom = some is ∧
    ∃ rest, is.drop s.dp.toNat = rest ∧ rest ≠ [] ∧
      ((∃ rs, parseFrom s.dp.toNat rest = some (.atHeader rs)) ∨
       (∃ fid fs rs, parseFrom s.dp.toNat rest = some (.atLegacy fid fs rs)) ∨
       (∃ fs rs, parseFrom s.dp.toNat rest = some (.inFields fs rs) ∧
          s.cur.toNat + widthSum fs = s.plen.toNat))

/-- The invariant: R39 between commands, and inside a FEED the whole frame in the buffer and DP in a routine. -/
structure State.Inv (s : State) : Prop where
  /-- The memory keeps its canonical form. -/
  canonical : Memory.wf s.mem = true
  /-- BUF has BUF_CAP bytes (R50). -/
  inBuffer : ∀ c ∈ s.mem, c.1 < s.params.bufCap
  /-- R39 (a). -/
  lenInCap : s.len ≤ s.params.bufCap
  /-- Every byte below LEN has a value (R21). -/
  valued : ∀ i, i < s.len → (Memory.read s.mem i).isSome = true
  /-- LAST_TS is TS_W bits wide (R23). -/
  stamped : s.lastTs < 2 ^ s.params.tsW
  /-- RES holds a code that is produced (R24). -/
  coded : ∃ c : Code, s.res = c.toBits
  /-- R39 (d). -/
  cleared : s.phase = .rest → s.res.getLsbD 3 = true → s.len = 0
  /-- R39 (b). -/
  unfinished : s.phase = .rest → s.wellStarted →
    s.len ≤ 10 ∨ ∃ n, s.buf 8 = some n ∧ 11 ≤ s.len ∧ s.len < 11 + n.toNat
  /-- PEND holds Publish events only (R32). -/
  pending : ∀ e ∈ s.pend, ∃ fid v, e = .publish fid v
  /-- R39 (e): the frame being decoded ends the buffer; and DP is in a routine. -/
  decoding : s.phase = .decode → s.plen = s.n ∧ s.len = 11 + s.n.toNat ∧ s.inRoutine

/-- Two states that agree on everything but the transient registers (R20). -/
def State.sameButTransient (s t : State) : Prop :=
  t = { s with n := t.n, sum := t.sum, rcv := t.rcv, ctl := t.ctl, fn := t.fn, plen := t.plen, cur := t.cur, dp := t.dp,
               acc := t.acc, pend := t.pend }

end Sys2Proof.Machine
end

