-- ==== Sys2Proof/Certificates/Slice0/Obligations.lean ====
section
/-! DEFINITION. The statements for the provers, in the order of OBLIGATIONS.json. Each holds for every state, whatever its
parameters and ROM, under the hypotheses it names. -/

open Sys2Proof Sys2Proof.Machine

/-! ### Encodings (30_encoding.md) -/

/-- R85: every command word decodes to exactly one of RESET, IDLE, FEED, by the match and mask of its row; the byte of
FEED is cmd[7:0]. -/
def Obligations.CommandWordsDecode : Prop :=
  ∀ c : Cmd,
    (c &&& 0x200#10 = 0x200#10 → decode (.port c) = .ok .reset) ∧
    (c &&& 0x300#10 = 0x000#10 → decode (.port c) = .ok .idle) ∧
    (c &&& 0x300#10 = 0x100#10 → decode (.port c) = .ok (.feed (c.setWidth 8))) ∧
    (c &&& 0x200#10 = 0x200#10 ∨ c &&& 0x300#10 = 0x000#10 ∨ c &&& 0x300#10 = 0x100#10)

/-- The fifteen worked encodings of section 9 of 30_encoding.md, which the spec derives from its formats: each word decodes
to its instruction and is what the encoder answers. -/
def Obligations.WorkedEncodingsAgree : Prop :=
  ∀ p ∈ [((0x1011906A#32 : Word), Instr.rtn false 0x11#8 0x90#8 106#8), (0x12118304#32, .rtn true 0x11#8 0x83#8 4#8),
      (0x14100400#32, .nodata 0x10#8 0x04#8), (0x200000AC#32, .lgcy 0x0AC#12), (0x3A200001#32, .s16 1#2 0x001#12),
      (0x32400011#32, .u16 (.num 2#2) 0x011#12), (0x34600016#32, .u24 (.num 3#2) 0x016#12),
      (0x36000002#32, .u32 (.num 0#2) 0x002#12), (0x30800012#32, .u8 .rs 0x012#12), (0x37000013#32, .u32 .fw 0x013#12),
      (0x40680000#32, .skip 104#8), (0x46080014#32, .text true 8#8 0x014#12), (0x44080014#32, .text false 8#8 0x014#12),
      (0x48040015#32, .bits 4#8 0x015#12), (0xF0000000#32, .end_)],
    decode (.word p.1) = .ok p.2 ∧ encode p.2 = .word p.1

/-- Every well-formed instruction is what its encoding decodes to, with every operand at every value (R85, R86, R91 to
R95). -/
def Obligations.DecodeOfEncode : Prop :=
  ∀ i : Instr, i.wf = true → decode (encode i) = .ok i

/-- A legal descriptor word is the encoding of what it decodes to: no bit of it is dropped (R102: words and records carry
the same information). -/
def Obligations.EncodeOfDecode : Prop :=
  ∀ (w : Word) (i : Instr), decodeDescriptor w = .ok i → i.wf = true ∧ encode i = .word w

/-- R98: exactly the words of its clauses are illegal, the all-zero and the all-ones word among them, and a ROM that holds
one is refused. -/
def Obligations.IllegalWordsRefused : Prop :=
  (∀ w : Word,
    let cls := (w.extractLsb' 28 4).toNat
    (∃ e, decodeDescriptor w = .error e) ↔
      (cls = 0 ∨ (5 ≤ cls ∧ cls ≤ 14)) ∨
      (cls = 15 ∧ w ≠ 0xF0000000#32) ∨
      (cls = 1 ∧ w.getLsbD 24 = true) ∨ (cls = 2 ∧ w.extractLsb' 12 16 ≠ 0#16) ∨
      (cls = 3 ∧ w.extractLsb' 12 9 ≠ 0#9) ∨ (cls = 4 ∧ (w.getLsbD 24 = true ∨ w.extractLsb' 12 4 ≠ 0#4)) ∨
      (cls = 1 ∧ (w.extractLsb' 26 2 = 0b10#2 ∨ w.extractLsb' 26 2 = 0b11#2)) ∨
      (cls = 1 ∧ w.extractLsb' 26 2 = 0b01#2 ∧ (w.getLsbD 25 = true ∨ w.extractLsb' 0 8 ≠ 0#8)) ∨
      (cls = 3 ∧ w.extractLsb' 23 2 = 0b11#2) ∨
      (cls = 3 ∧ w.extractLsb' 21 2 ≠ 0#2 ∧ w.extractLsb' 23 2 ≠ 0b00#2) ∨
      (cls = 3 ∧ w.getLsbD 27 = true ∧ w.extractLsb' 23 2 ≠ 0b00#2) ∨
      (cls = 4 ∧ w.extractLsb' 26 2 = 0b11#2) ∨
      (cls = 4 ∧ w.getLsbD 25 = true ∧ w.extractLsb' 26 2 ≠ 0b01#2) ∨
      (cls = 4 ∧ w.extractLsb' 16 8 = 0#8) ∨
      (cls = 4 ∧ w.extractLsb' 26 2 = 0b00#2 ∧ w.extractLsb' 0 12 ≠ 0#12)) ∧
  (∃ e, decodeDescriptor 0x00000000#32 = .error e) ∧ (∃ e, decodeDescriptor 0xFFFFFFFF#32 = .error e) ∧
  (∀ (s : State) (w : Word) (e : Illegal), 266 ≤ s.params.bufCap →
    s.params.timeout < 2 ^ s.params.tsW → w ∈ s.rom → decodeDescriptor w = .error e →
    ∃ c, step s = .refused (.illFormedRom c))

/-- The assembly of the routines a ROM parses to is the ROM (R102: the inverse is exact). -/
def Obligations.AssembleOfParse : Prop :=
  ∀ (is : List Instr) (rs : List Routine), routines is = some rs → rs.flatMap assembleRoutine = is

/-- R104: a ROM has no defect exactly when all five checks hold: no more than 65536 words; every word legal; the words are
those of routines by the grammar of R100; every RTN routine's widths add up to its EXPLEN; no key twice. An instance whose
ROM has a defect is refused, whatever it is asked. -/
def Obligations.RomWellFormedness : Prop :=
  (∀ rom : List Word, romDefect rom = none ↔
    rom.length ≤ 65536 ∧
    ∃ rs : List Routine, decodeRom rom = some (rs.flatMap assembleRoutine) ∧
      (∀ r ∈ rs, (∀ i ∈ r.fields, i.isField = true) ∧ (r.kind = .decode → (r.fields.map Instr.width).sum = r.explen.toNat)) ∧
      rs.Pairwise (fun a b => (a.control, a.function) ≠ (b.control, b.function))) ∧
  (∀ s : State, 266 ≤ s.params.bufCap → s.params.timeout < 2 ^ s.params.tsW →
    romDefect s.rom ≠ none → ∃ c, step s = .refused (.illFormedRom c))

/-- R223: in a well-formed ROM at most one routine has a key, and the scan of the headers from word 0 finds the header of
that routine, or none when there is none. -/
def Obligations.ScanFindsTheRoutine : Prop :=
  ∀ (rom : List Word) (is : List Instr) (rs : List Routine), romDefect rom = none → decodeRom rom = some is →
    routines is = some rs → ∀ c f : Byte,
      (∀ r ∈ rs, r.control = c → r.function = f → scanHeaders c f true 0 rom = .found r.start) ∧
      ((∀ r ∈ rs, ¬(r.control = c ∧ r.function = f)) → scanHeaders c f true 0 rom = .absent rom.length) ∧
      (∀ r ∈ rs, ∀ q ∈ rs, r.control = c → r.function = f → q.control = c → q.function = f → r = q)

/-! ### Reset and the port commands (10_state.md, 40_bytewindow.md) -/

/-- What reset leaves (section 7 of 10_state.md): LEN 0, LAST_TS 0, RES INCOMPLETE, ready 0, no event, TIMEOUT at its
default, and the block waits for a command. The role, the ROMs and the transient registers are the model's choices (log
entries 5 and 8) and are not stated. -/
def Obligations.ResetState : Prop :=
  State.reset.len = 0 ∧ State.reset.lastTs = 0 ∧ State.reset.res = Code.incomplete.toBits ∧ State.reset.res = 0x0#4 ∧
  State.reset.ready = false ∧ State.reset.events = [] ∧ State.reset.params.timeout = 50 ∧ State.reset.phase = .rest ∧
  (∀ i, State.reset.buf i = none) ∧ step State.reset = .next State.reset

/-- R120: RESET clears LEN, LAST_TS and RES, with ready 0 and no event, whatever was there; nothing else changes, the straps
and the ROM among it; a second RESET changes nothing; every command word with bit 9 set is a RESET.
(The absent read data and the phase are the model's own, log entries 13 and 1, and no part of the rule.) -/
def Obligations.ResetCommand : Prop :=
  (∀ s : State, exec .reset s =
    .next { s with len := 0, lastTs := 0, res := 0x0#4, ready := false, events := [], data := none, phase := .rest }) ∧
  (∀ s t : State, exec .reset s = .next t → exec .reset t = .next t) ∧
  (∀ c : Cmd, c.getLsbD 9 = true → decode (.port c) = .ok .reset)

/-- R121: IDLE changes no register, whatever `now` is: neither LEN, BUF, LAST_TS nor RES; its outputs are ready 0, res
equal to RES, no event.
(The absent read data is the model's own, log entry 13, and no part of the rule.) -/
def Obligations.IdleCommand : Prop :=
  (∀ s : State, exec .idle s = .next { s with ready := false, events := [], data := none }) ∧
  (∀ c : Cmd, c.getLsbD 9 = false → c.getLsbD 8 = false → decode (.port c) = .ok .idle)

/-- R129: REGRD answers the register's value, and 0 for the reserved numbers; no register changes, and the outputs are
ready 0 and no event. LEN reads as the count where its 16 bits hold it, as they do under every BUF_CAP below 65536, and as
some 16-bit value otherwise (a free value, log entry 20). -/
def Obligations.StatusRead : Prop :=
  ∀ (s : State) (n : BitVec 3),
    exec (.regrd n) s = .next { s with ready := false, events := [], data := some (s.reg n) } ∧
    decode (.stat n) = .ok (.regrd n) ∧
    (s.len < 65536 → s.reg 0#3 = s.len) ∧ s.reg 0#3 < 65536 ∧ s.reg 1#3 = s.res.toNat ∧ s.reg 2#3 = s.lastTs ∧ s.reg 3#3 = s.params.timeout ∧
    s.reg 4#3 = (if s.params.role = .deviceTelemetry then 0 else 1) ∧ (5 ≤ n.toNat → s.reg n = 0)

/-- A status read presented with a command is answered after the command, from the state the command leaves (section 3 of
30_encoding.md). That it is a step of its own is the model's choice (log entry 4). -/
def Obligations.StatusReadAfterCommand : Prop :=
  ∀ (s t u : State) (k : Tick) (ks : List Tick) (n : BitVec 3) (fuel : Nat),
    s.phase = .rest → s.stat = none → s.inputs = k :: ks → k.stat = some n → step s = .next t →
    settle fuel t = .next u → u.phase = .rest →
    step u = .next { u with stat := none, ready := false, events := [], data := some (u.reg n) }

/-! ### FEED (40_bytewindow.md, 41_frame_validator.md, 44_dispatcher.md) -/

/-- FEED up to its validation (sections 3 of 40_bytewindow.md): the buffer is discarded exactly when the elapsed time,
modulo 2^TS_W, is greater than TIMEOUT; LAST_TS takes `now`; the byte is appended at LEN, or dropped at BUF_CAP. -/
def Obligations.FeedReceivesTheByte : Prop :=
  ∀ (s : State) (b : Byte),
    let now := s.now % 2 ^ s.params.tsW
    let elapsed := ((now : Int) - (s.lastTs : Int)) % ((2 ^ s.params.tsW : Nat) : Int)
    let kept := if (s.params.timeout : Int) < elapsed then 0 else s.len
    let u := s.receive b
    exec (.feed b) s = (s.startCommand.receive b).tryValidate ∧
    u = { s with mem := u.mem, len := u.len, lastTs := now } ∧
    (kept < s.params.bufCap → u.len = kept + 1 ∧ u.buf kept = some b ∧
      ∀ a, a ≠ kept → Memory.read u.mem a = Memory.read s.mem a) ∧
    (s.params.bufCap ≤ kept → u.len = kept ∧ u.mem = s.mem)

/-- R287: the subtraction is modular, so a wrap of the clock between two bytes is handled, and a gap of any length is seen
modulo 2^TS_W: when that is at most TIMEOUT the stale bytes survive and the new byte joins them, else they are discarded. -/
def Obligations.ClockWrapAliases : Prop :=
  ∀ (s : State) (b : Byte) (gap : Nat), s.len < s.params.bufCap →
    s.lastTs < 2 ^ s.params.tsW → s.now = s.lastTs + gap →
    let u := s.receive b
    elapsed s.params.tsW s.nowPort s.lastTs = gap % 2 ^ s.params.tsW ∧
    (gap < 2 ^ s.params.tsW → elapsed s.params.tsW s.nowPort s.lastTs = gap) ∧
    (gap % 2 ^ s.params.tsW ≤ s.params.timeout →
      u.len = s.len + 1 ∧ u.buf s.len = some b ∧ ∀ i, i < s.len → u.buf i = s.buf i) ∧
    (s.params.timeout < gap % 2 ^ s.params.tsW → u.len = 1 ∧ u.buf 0 = some b)

/-- R141: fewer than two bytes are INCOMPLETE whatever the byte is; two or more whose first two are not both the marker are
MALFORMED_START; no event in either case, and the buffer keeps its bytes.
(The phase is the model's own bookkeeping, log entry 1, and no part of the rule.) -/
def Obligations.FeedStartMarkers : Prop :=
  ∀ (s : State) (b : Byte),
    let u := s.startCommand.receive b
    (u.len < 2 → exec (.feed b) s = .next { u with res := 0x0#4, ready := false, events := [], phase := .rest }) ∧
    (∀ b0 b1, 2 ≤ u.len → u.buf 0 = some b0 → u.buf 1 = some b1 → (b0 ≠ 0x3A#8 ∨ b1 ≠ 0x3A#8) →
      exec (.feed b) s = .next { u with res := 0x1#4, ready := false, events := [], phase := .rest })

/-- A well-started buffer without its whole frame is INCOMPLETE (sections 2 of 41_frame_validator.md): fewer than 11 bytes,
or fewer than 11 + N; the buffer keeps its bytes and there is no event.
(The phase is the model's own bookkeeping, log entry 1, and not the spec's.) -/
def Obligations.FeedIncompleteFrame : Prop :=
  ∀ (s : State) (b : Byte),
    let u := s.startCommand.receive b
    2 ≤ u.len → u.buf 0 = some 0x3A#8 → u.buf 1 = some 0x3A#8 →
    (u.len < 11 → exec (.feed b) s = .next { u with res := 0x0#4, ready := false, events := [], phase := .rest }) ∧
    (∀ c f n, 11 ≤ u.len → u.buf 6 = some c → u.buf 7 = some f → u.buf 8 = some n → u.len < 11 + n.toNat →
      exec (.feed b) s = .next { u with ctl := c, fn := f, n := n, res := 0x0#4, ready := false, events := [],
                                        phase := .rest })

/-- A whole frame whose checksum does not match (sections 2 of 41_frame_validator.md): SUM is the sum of the first 9 + N
bytes modulo 2^16, RCV the two bytes after them, first byte high; the event carries both and the buffer, and the frame is
consumed.
(The phase is the model's own bookkeeping, log entry 1, and not the spec's.) -/
def Obligations.FeedChecksumMismatch : Prop :=
  ∀ (s : State) (b c f n hi lo : Byte) (raw : List Byte),
    let u := s.startCommand.receive b
    let sum := BitVec.ofNat 16 (((raw.take (9 + n.toNat)).map BitVec.toNat).sum % 65536)
    u.buffer = some raw → 2 ≤ u.len → u.buf 0 = some 0x3A#8 → u.buf 1 = some 0x3A#8 → 11 + n.toNat ≤ u.len →
    u.buf 6 = some c → u.buf 7 = some f → u.buf 8 = some n → u.buf (9 + n.toNat) = some hi →
    u.buf (10 + n.toNat) = some lo → sum ≠ hi ++ lo →
    exec (.feed b) s = .next { u with ctl := c, fn := f, n := n, sum := sum, rcv := hi ++ lo, res := 0xA#4, ready := true,
                                      events := [.checksumMismatch sum (hi ++ lo) raw], len := 0, phase := .rest }

/-- R225: a frame with a good checksum whose key no routine of the role's ROM has is reported with the role and both codes,
consumed, RES UNKNOWN, and nothing is published.
(The phase is the model's own bookkeeping, log entry 1, and no part of the rule.) -/
def Obligations.FeedUnknownKey : Prop :=
  ∀ (s : State) (b c f n hi lo : Byte) (raw : List Byte) (is : List Instr) (rs : List Routine),
    let u := s.startCommand.receive b
    u.buffer = some raw → 2 ≤ u.len → u.buf 0 = some 0x3A#8 → u.buf 1 = some 0x3A#8 → 11 + n.toNat ≤ u.len →
    u.buf 6 = some c → u.buf 7 = some f → u.buf 8 = some n → u.buf (9 + n.toNat) = some hi →
    u.buf (10 + n.toNat) = some lo → checksumOf (raw.take (9 + n.toNat)) = hi ++ lo →
    romDefect s.rom = none → decodeRom s.rom = some is → routines is = some rs →
    (∀ r ∈ rs, ¬(r.control = c ∧ r.function = f)) →
    ∃ t, exec (.feed b) s = .next t ∧ t.events = [.unknownKey s.params.role c f] ∧ t.res = 0xC#4 ∧ t.ready = true ∧
      t.len = 0 ∧ t.phase = .rest ∧ t.mem = u.mem ∧ t.params = s.params ∧ t.lastTs = u.lastTs

/-- A frame with a good checksum whose key a routine has enters that routine (section 2 of 44_dispatcher.md): PLEN takes N
and DP the word address of its header; no event yet. That the routine's words are the following steps is the model's choice
(log entry 1). -/
def Obligations.FeedEntersRoutine : Prop :=
  ∀ (s : State) (b c f n hi lo : Byte) (raw : List Byte) (is : List Instr) (rs : List Routine) (r : Routine),
    let u := s.startCommand.receive b
    u.buffer = some raw → 2 ≤ u.len → u.buf 0 = some 0x3A#8 → u.buf 1 = some 0x3A#8 → 11 + n.toNat ≤ u.len →
    u.buf 6 = some c → u.buf 7 = some f → u.buf 8 = some n → u.buf (9 + n.toNat) = some hi →
    u.buf (10 + n.toNat) = some lo → checksumOf (raw.take (9 + n.toNat)) = hi ++ lo →
    romDefect s.rom = none → decodeRom s.rom = some is → routines is = some rs →
    r ∈ rs → r.control = c → r.function = f →
    exec (.feed b) s = .next { u with ctl := c, fn := f, n := n, sum := hi ++ lo, rcv := hi ++ lo, plen := n,
                                      dp := BitVec.ofNat 16 r.start, phase := .decode }

/-- The frame of FEED's own step, up to its result or to the routine's header: the only byte stored to is that of the append,
at the address `appendAddr` gives after the discard and the timestamp, and no byte at saturation; the straps and the ROM are
left alone. That CUR, ACC and PEND are left alone too holds of this step only: R20 has them change inside one FEED, which
here they do in the steps of the routine's descriptors (the model's division, log entry 1). The input ports and the read
data are the model's own fields (log entries 2, 3, 4 and 13). -/
def Obligations.FeedFrame : Prop :=
  ∀ (s t : State) (b : Byte), exec (.feed b) s = .next t →
    (∀ a, s.startCommand.timeoutDiscard.stamp.appendAddr = some a →
      ∀ x, x ≠ a → Memory.read t.mem x = Memory.read s.mem x) ∧
    (s.startCommand.timeoutDiscard.stamp.appendAddr = none → ∀ x, Memory.read t.mem x = Memory.read s.mem x) ∧
    t.lastTs = s.nowPort ∧ t.params = s.params ∧ t.cur = s.cur ∧ t.acc = s.acc ∧ t.pend = s.pend ∧ t.data = none ∧
    t.now = s.now ∧ t.stat = s.stat ∧ t.inputs = s.inputs

/-- A dead buffer stays dead under every FEED whose gap is at most TIMEOUT: MALFORMED_START, no event (section 3 of
41_frame_validator.md). -/
def Obligations.DeadBufferStaysDead : Prop :=
  ∀ (s : State) (b : Byte), s.dead → s.timedOut = false →
    ∃ t, exec (.feed b) s = .next t ∧ t.dead ∧ t.res = 0x1#4 ∧ t.ready = false ∧ t.events = [] ∧ t.phase = .rest

/-- While the buffer does not begin with the two markers no FEED produces an event or clears the buffer (section 5 of
40_bytewindow.md). -/
def Obligations.NoMarkersNoDecode : Prop :=
  ∀ (s : State) (b : Byte),
    let u := s.startCommand.receive b
    (∀ i, i < u.len → (Memory.read u.mem i).isSome = true) → ¬u.wellStarted →
    ∃ t, exec (.feed b) s = .next t ∧ (t.res = 0x0#4 ∨ t.res = 0x1#4) ∧ t.events = [] ∧ t.ready = false ∧
      t.len = u.len ∧ t.mem = u.mem ∧ t.phase = .rest

/-! ### The words that frame a routine (43_message_decoder.md) -/

/-- RTN with PLEN equal to EXPLEN: the cursor and PEND start anew and DP steps to the first field, over the LGCY word if
there is one. -/
def Obligations.RtnSizeMatches : Prop :=
  ∀ (s : State) (lg : Bool) (c f e : Byte), s.plen = e →
    exec (.rtn lg c f e) s =
      .next { s with cur := 0#8, pend := [], dp := s.dp + (if lg = true then 2#16 else 1#16) }

/-- RTN with PLEN other than EXPLEN and no legacy word: the signal with both lengths, no field read, the frame consumed
with RES SIZE.
(The phase is the model's own bookkeeping, log entry 1, and not the spec's.) -/
def Obligations.RtnSizeMismatch : Prop :=
  ∀ (s : State) (c f e : Byte), s.plen ≠ e →
    exec (.rtn false c f e) s =
      .next { s with events := s.events ++ [.sizeMismatch e s.plen], res := 0xB#4, ready := true, len := 0,
                     phase := .rest }

/-- The legacy fallback: a mismatch in a routine with LG = 1 gives the size mismatch and then the Publish of the mismatched
length under the FID of the LGCY word, and the frame is consumed with RES SIZE. That the LGCY word is a step of its own is
the model's choice (log entry 9). -/
def Obligations.LegacyFallback : Prop :=
  (∀ (s : State) (fid : Fid), exec (.lgcy fid) s =
    .next { s with events := s.events ++ [.publish fid (.num (s.plen.toNat : Int) 0#2)], res := 0xB#4, ready := true,
                   len := 0, phase := .rest }) ∧
  (∀ (s : State) (w v : Word) (c f e : Byte) (fid : Fid), paramsOk s.params → s.phase = .decode →
    s.rom[s.dp.toNat]? = some w → decodeDescriptor w = .ok (.rtn true c f e) →
    s.rom[s.dp.toNat + 1]? = some v → decodeDescriptor v = .ok (.lgcy fid) → s.plen ≠ e →
    settle 2 s = .next { s with
      events := s.events ++ [.sizeMismatch e s.plen, .publish fid (.num (s.plen.toNat : Int) 0#2)],
      res := 0xB#4, ready := true, len := 0, dp := s.dp + 1#16, phase := .rest })

/-- R195: NODATA makes no size check, reads nothing and gives no event: the frame is consumed with RES NODATA, whatever
PLEN is.
(The phase is the model's own bookkeeping, log entry 1, and no part of the rule.) -/
def Obligations.NodataResult : Prop :=
  ∀ (s : State) (c f : Byte),
    exec (.nodata c f) s = .next { s with res := 0x9#4, ready := true, len := 0, phase := .rest }

/-- END commits the pending events in order, empties PEND and ends the frame as DECODED.
(The phase is the model's own bookkeeping, log entry 1, and not the spec's.) -/
def Obligations.EndCommits : Prop :=
  ∀ s : State, exec .end_ s =
    .next { s with events := s.events ++ s.pend, pend := [], res := 0x8#4, ready := true, len := 0, phase := .rest }

/-! ### The field descriptors (42_field_reader.md) -/

/-- U8, U16, U24 and U32: the bytes at CUR, first byte most significant, unsigned; CUR advances by the width, ACC holds the
value v, one Publish is pended, DP advances by one; nothing else changes. The value published is Num(v, k) for CONV = NUM,
with v itself whatever its top bit is; for RS and FW it is the string that RunStateStrings and FirmwareStrings give. -/
def Obligations.UnsignedReads : Prop :=
  ∀ (s : State) (conv : Conv) (fid : Fid) (b0 b1 b2 b3 : Byte), s.buf (9 + s.cur.toNat) = some b0 →
    let published : Nat → Value := fun v =>
      match conv with
      | .num k => .num (v : Int) k
      | .rs => convertValue .rs v
      | .fw => convertValue .fw v
    (s.cur.toNat + 1 ≤ s.plen.toNat →
      exec (.u8 conv fid) s = .next { s with
        cur := s.cur + 1#8, acc := BitVec.ofNat 32 b0.toNat, dp := s.dp + 1#16,
        pend := s.pend ++ [.publish fid (published b0.toNat)] }) ∧
    (s.cur.toNat + 2 ≤ s.plen.toNat → s.buf (10 + s.cur.toNat) = some b1 →
      exec (.u16 conv fid) s = .next { s with
        cur := s.cur + 2#8, acc := BitVec.ofNat 32 (256 * b0.toNat + b1.toNat), dp := s.dp + 1#16,
        pend := s.pend ++ [.publish fid (published (256 * b0.toNat + b1.toNat))] }) ∧
    (s.cur.toNat + 3 ≤ s.plen.toNat → s.buf (10 + s.cur.toNat) = some b1 → s.buf (11 + s.cur.toNat) = some b2 →
      exec (.u24 conv fid) s = .next { s with
        cur := s.cur + 3#8, acc := BitVec.ofNat 32 (65536 * b0.toNat + 256 * b1.toNat + b2.toNat), dp := s.dp + 1#16,
        pend := s.pend ++ [.publish fid (published (65536 * b0.toNat + 256 * b1.toNat + b2.toNat))] }) ∧
    (s.cur.toNat + 4 ≤ s.plen.toNat → s.buf (10 + s.cur.toNat) = some b1 → s.buf (11 + s.cur.toNat) = some b2 →
      s.buf (12 + s.cur.toNat) = some b3 →
      exec (.u32 conv fid) s = .next { s with
        cur := s.cur + 4#8, dp := s.dp + 1#16,
        acc := BitVec.ofNat 32 (2 ^ 24 * b0.toNat + 2 ^ 16 * b1.toNat + 2 ^ 8 * b2.toNat + b3.toNat),
        pend := s.pend ++ [.publish fid (published
          (2 ^ 24 * b0.toNat + 2 ^ 16 * b1.toNat + 2 ^ 8 * b2.toNat + b3.toNat))] })

/-- S8, S16, S24 and S32: the bytes at CUR, first byte most significant, read in two's complement at the field's own width
(which the spec marks as general knowledge, G1; log entry 11); the rest as the unsigned reads. -/
def Obligations.SignedReads : Prop :=
  ∀ (s : State) (k : BitVec 2) (fid : Fid) (b0 b1 b2 b3 : Byte), s.buf (9 + s.cur.toNat) = some b0 →
    (s.cur.toNat + 1 ≤ s.plen.toNat →
      exec (.s8 k fid) s = .next { s with
        cur := s.cur + 1#8, acc := b0.setWidth 32, dp := s.dp + 1#16,
        pend := s.pend ++ [.publish fid (.num b0.toInt k)] }) ∧
    (s.cur.toNat + 2 ≤ s.plen.toNat → s.buf (10 + s.cur.toNat) = some b1 →
      exec (.s16 k fid) s = .next { s with
        cur := s.cur + 2#8, acc := (b0 ++ b1).setWidth 32, dp := s.dp + 1#16,
        pend := s.pend ++ [.publish fid (.num (b0 ++ b1).toInt k)] }) ∧
    (s.cur.toNat + 3 ≤ s.plen.toNat → s.buf (10 + s.cur.toNat) = some b1 → s.buf (11 + s.cur.toNat) = some b2 →
      exec (.s24 k fid) s = .next { s with
        cur := s.cur + 3#8, acc := (b0 ++ b1 ++ b2).setWidth 32, dp := s.dp + 1#16,
        pend := s.pend ++ [.publish fid (.num (b0 ++ b1 ++ b2).toInt k)] }) ∧
    (s.cur.toNat + 4 ≤ s.plen.toNat → s.buf (10 + s.cur.toNat) = some b1 → s.buf (11 + s.cur.toNat) = some b2 →
      s.buf (12 + s.cur.toNat) = some b3 →
      exec (.s32 k fid) s = .next { s with
        cur := s.cur + 4#8, acc := b0 ++ b1 ++ b2 ++ b3, dp := s.dp + 1#16,
        pend := s.pend ++ [.publish fid (.num (b0 ++ b1 ++ b2 ++ b3).toInt k)] })

/-- SKIP of any length 1 to 255: CUR advances by it, DP by one, nothing is published and nothing else changes. -/
def Obligations.SkipResult : Prop :=
  ∀ (s : State) (n : Byte) (bytes : List Byte), s.cur.toNat + n.toNat ≤ s.plen.toNat →
    s.bufSlice (9 + s.cur.toNat) n.toNat = some bytes →
    exec (.skip n) s = .next { s with cur := s.cur + n, dp := s.dp + 1#16 }

/-- TEXT: the text of the slice is pended, or nothing when SUPP is set and the text is empty or the raw slice begins with a
null; CUR and DP advance either way and nothing else changes. -/
def Obligations.TextResult : Prop :=
  ∀ (s : State) (supp : Bool) (n : Byte) (fid : Fid) (bytes : List Byte), s.cur.toNat + n.toNat ≤ s.plen.toNat →
    s.bufSlice (9 + s.cur.toNat) n.toNat = some bytes →
    (supp = true ∧ (textOf s.params.ws bytes = [] ∨ bytes.head? = some 0x00#8) →
      exec (.text supp n fid) s = .next { s with cur := s.cur + n, dp := s.dp + 1#16 }) ∧
    (¬(supp = true ∧ (textOf s.params.ws bytes = [] ∨ bytes.head? = some 0x00#8)) →
      exec (.text supp n fid) s = .next { s with
        cur := s.cur + n, dp := s.dp + 1#16, pend := s.pend ++ [.publish fid (.str (textOf s.params.ws bytes))] })

/-- The text of a slice: with every null removed it is the slice less a longest prefix and a longest suffix of whitespace,
so it holds no null and neither begins nor ends in whitespace. -/
def Obligations.TextTrimsEdges : Prop :=
  ∀ ws s : List Byte, ∃ pre suf : List Byte,
    s.filter (· ≠ 0x00#8) = pre ++ textOf ws s ++ suf ∧ (∀ b ∈ pre, b ∈ ws) ∧ (∀ b ∈ suf, b ∈ ws) ∧
    (∀ b ∈ textOf ws s, b ≠ 0x00#8) ∧
    (∀ b, (textOf ws s).head? = some b → b ∉ ws) ∧ (∀ b, (textOf ws s).getLast? = some b → b ∉ ws)

/-- BITS: always one Publish, of 8n characters: character 8j + i is '1' exactly when bit 7 - i of byte j is set; CUR and DP
advance and nothing else changes. -/
def Obligations.BitsResult : Prop :=
  ∀ (s : State) (n : Byte) (fid : Fid) (bytes : List Byte), s.cur.toNat + n.toNat ≤ s.plen.toNat →
    s.bufSlice (9 + s.cur.toNat) n.toNat = some bytes →
    ∃ chars : List Byte,
      exec (.bits n fid) s = .next { s with
        cur := s.cur + n, dp := s.dp + 1#16, pend := s.pend ++ [.publish fid (.str chars)] } ∧
      chars.length = 8 * n.toNat ∧
      ∀ j i, j < n.toNat → i < 8 →
        chars[8 * j + i]? = (bytes[j]?).map (fun x => if x.getLsbD (7 - i) = true then 0x31#8 else 0x30#8)

/-- Overrun: every field descriptor whose read passes the payload end drops PEND, records DP, the cursor, the width asked
for and the payload length in the event, leaves CUR, and the frame is consumed with RES OVERRUN.
(The phase is the model's own bookkeeping, log entry 1, and not the spec's.) -/
def Obligations.OverrunEntry : Prop :=
  ∀ (s : State) (i : Instr), i.isField = true → s.plen.toNat < s.cur.toNat + i.width →
    exec i s = .next { s with
      pend := [], events := s.events ++ [.overrun s.dp s.cur (BitVec.ofNat 8 i.width) s.plen],
      res := 0xD#4, ready := true, len := 0, phase := .rest }

/-- The frame of every field descriptor, on every path that answers a next state: no byte of memory, no persistent register
but RES and LEN (which change only on an Overrun), no strap, no port and no transient register but CUR, DP, ACC and PEND
changes; ACC changes in integer reads only; CUR never decreases. -/
def Obligations.FieldFrame : Prop :=
  ∀ (s t : State) (i : Instr), i.isField = true → exec i s = .next t →
    (∀ a, Memory.read t.mem a = Memory.read s.mem a) ∧ t.lastTs = s.lastTs ∧ t.params = s.params ∧ t.n = s.n ∧
    t.sum = s.sum ∧ t.rcv = s.rcv ∧ t.ctl = s.ctl ∧ t.fn = s.fn ∧ t.plen = s.plen ∧ t.data = s.data ∧ t.now = s.now ∧
    t.stat = s.stat ∧ t.inputs = s.inputs ∧
    ((∃ n, i = .skip n) ∨ (∃ u n f, i = .text u n f) ∨ (∃ n f, i = .bits n f) → t.acc = s.acc) ∧
    s.cur.toNat ≤ t.cur.toNat ∧
    (t.res = s.res ∧ t.len = s.len ∧ t.ready = s.ready ∧ t.events = s.events ∧ t.phase = s.phase ∨
      s.plen.toNat < s.cur.toNat + i.width)

/-- The frame of every instruction but FEED: no byte of memory, no strap and no ROM word changes, and LAST_TS only under
RESET. -/
def Obligations.OnlyFeedStores : Prop :=
  ∀ (s t : State) (i : Instr), (∀ b, i ≠ .feed b) → exec i s = .next t →
    (∀ a, Memory.read t.mem a = Memory.read s.mem a) ∧ t.params = s.params ∧ (i ≠ .reset → t.lastTs = s.lastTs) ∧
    t.n = s.n ∧ t.sum = s.sum ∧ t.rcv = s.rcv ∧ t.ctl = s.ctl ∧ t.fn = s.fn ∧ t.plen = s.plen ∧ t.now = s.now ∧
    t.stat = s.stat ∧ t.inputs = s.inputs

/-! ### Conversions (43_message_decoder.md) -/

/-- R201: 0, 1 and 2 are "Startup", "Online" and "Waiting"; any other code is its shortest decimal numeral: ASCII digits,
no leading zero, of that value. -/
def Obligations.RunStateStrings : Prop :=
  convertValue .rs 0 = .str [0x53#8, 0x74#8, 0x61#8, 0x72#8, 0x74#8, 0x75#8, 0x70#8] ∧
  convertValue .rs 1 = .str [0x4F#8, 0x6E#8, 0x6C#8, 0x69#8, 0x6E#8, 0x65#8] ∧
  convertValue .rs 2 = .str [0x57#8, 0x61#8, 0x69#8, 0x74#8, 0x69#8, 0x6E#8, 0x67#8] ∧
  ∀ v : Nat, 3 ≤ v → ∃ d : List Byte, convertValue .rs (v : Int) = .str d ∧
    (∀ b ∈ d, 0x30 ≤ b.toNat ∧ b.toNat ≤ 0x39) ∧ d.head? ≠ some 0x30#8 ∧
    d.foldl (fun acc b => 10 * acc + (b.toNat - 0x30)) 0 = v

/-- R202: a packed version is V, major, a point, minor in two digits, Build, build, where the value is
(100 major + minor) 10000 + build; the numerals of major and build have no padding. -/
def Obligations.FirmwareStrings : Prop :=
  ∀ v : Nat, ∃ major minor build : Nat, ∃ dMajor dBuild : List Byte,
    v = (100 * major + minor) * 10000 + build ∧ minor < 100 ∧ build < 10000 ∧
    convertValue .fw (v : Int) = .str ([0x56#8] ++ dMajor ++ [0x2E#8] ++
      [BitVec.ofNat 8 (0x30 + minor / 10), BitVec.ofNat 8 (0x30 + minor % 10)] ++
      [0x42#8, 0x75#8, 0x69#8, 0x6C#8, 0x64#8] ++ dBuild) ∧
    (∀ b ∈ dMajor ++ dBuild, 0x30 ≤ b.toNat ∧ b.toNat ≤ 0x39) ∧
    (dMajor.head? = some 0x30#8 → dMajor = [0x30#8]) ∧ (dBuild.head? = some 0x30#8 → dBuild = [0x30#8]) ∧
    dMajor ≠ [] ∧ dBuild ≠ [] ∧
    dMajor.foldl (fun acc b => 10 * acc + (b.toNat - 0x30)) 0 = major ∧
    dBuild.foldl (fun acc b => 10 * acc + (b.toNat - 0x30)) 0 = build

/-! ### The step and the whole machine -/

/-- A step runs the decoded instruction: the status read of the present tick, else the command of the next tick, and inside
a FEED the descriptor at DP; with no command presented nothing happens (section 1 of 70_reset_and_hazards.md; the queue of
ticks and the phase are the model's, log entries 1, 2 and 4). -/
def Obligations.StepRunsDecoded : Prop :=
  ∀ s : State, paramsOk s.params →
    (s.phase = .rest → s.stat = none → s.inputs = [] → step s = .next s) ∧
    (∀ n, s.phase = .rest → s.stat = some n → step s = exec (.regrd n) { s with stat := none }) ∧
    (∀ k ks i, s.phase = .rest → s.stat = none → s.inputs = k :: ks → decode (.port k.cmd) = .ok i →
      step s = exec i { s with inputs := ks, now := k.now, stat := k.stat }) ∧
    (∀ w i, s.phase = .decode → s.rom[s.dp.toNat]? = some w → decode (.word w) = .ok i → step s = exec i s)

/-- Inside a FEED no command is taken and nothing the host can set changes: the ticks, the status read, the port `now`,
BUF, LAST_TS and the straps stay (section 4 of 20_memory.md). -/
def Obligations.FeedIsUninterrupted : Prop :=
  ∀ s t : State, s.phase = .decode → step s = .next t →
    t.inputs = s.inputs ∧ t.stat = s.stat ∧ t.now = s.now ∧ t.mem = s.mem ∧ t.lastTs = s.lastTs ∧ t.params = s.params ∧
    t.data = s.data ∧ t.n = s.n ∧ t.plen = s.plen ∧ t.ctl = s.ctl ∧ t.fn = s.fn

/-- No run changes the straps or the ROM: what every FEED sees is what was there at reset release. -/
def Obligations.ConfigurationConstant : Prop :=
  ∀ (k : Nat) (s t : State), Host.Core.run Sys2Proof.core k s = .next t → t.params = s.params ∧ t.rom = s.rom

/-- The other role's ROM is never read: a step is the same whatever it holds (section 1 of 44_dispatcher.md). -/
def Obligations.OtherRomUnread : Prop :=
  ∀ (s : State) (rom : List Word),
    let swap : State → State := fun x =>
      { x with params := { x.params with
          rom0 := if s.params.role = .loggerGateway then rom else x.params.rom0
          rom1 := if s.params.role = .deviceTelemetry then rom else x.params.rom1 } }
    step (swap s) =
      match step s with
      | .next t => .next (swap t)
      | .fault r => .fault r
      | .refused r => .refused r

/-- Between commands the transient registers cannot be observed: from two states at rest that differ in nothing else, a step
stops alike or leads to states that differ in nothing else, and with the same PLEN and DP where a routine is entered
(section 1 of 10_state.md). -/
def Obligations.TransientsUnobservable : Prop :=
  ∀ s s' : State, s.phase = .rest → s.sameButTransient s' →
    (∀ t, step s = .next t → ∃ t', step s' = .next t' ∧ t.sameButTransient t' ∧
      (t.phase = .decode → t'.plen = t.plen ∧ t'.dp = t.dp ∧ t'.ctl = t.ctl ∧ t'.fn = t.fn ∧ t'.n = t.n ∧
        t'.sum = t.sum ∧ t'.rcv = t.rcv)) ∧
    (∀ r, step s = .fault r → step s' = .fault r) ∧ (∀ r, step s = .refused r → step s' = .refused r)

/-- The invariant holds at reset, whatever the straps, the ROMs and the ticks are. -/
def Obligations.InvariantAtReset : Prop :=
  ∀ (p : Params) (ts : List Tick), ({ State.reset with params := p, inputs := ts } : State).Inv

/-- Every step keeps the invariant, from every state that meets it: the canonical memory, LEN at most BUF_CAP and only
valued bytes below it, a well-started buffer never holding a whole frame between commands, RES with its consumed bit only
over an empty buffer, and inside a FEED the cursor and DP where the fields left to read fit the payload exactly (section 8
of 10_state.md and section 3 of 43_message_decoder.md). -/
def Obligations.InvariantKept : Prop :=
  ∀ s t : State, s.Inv → step s = .next t → t.Inv

/-- A well-configured instance never stops: from every state that meets the invariant a step answers a next state, and from
no state at all is a command refused. -/
def Obligations.NeverStops : Prop :=
  (∀ s : State, s.Inv → paramsOk s.params → ∃ t, step s = .next t) ∧
  (∀ (s : State) (r : Refusal), paramsOk s.params → step s ≠ .refused r)

/-- Overrun is unreachable with a well-formed ROM: no step from a state that meets the invariant emits it or writes its
code; and where END stands, the cursor is at the payload end (section 3 of 43_message_decoder.md). -/
def Obligations.OverrunUnreachable : Prop :=
  ∀ s t : State, s.Inv → step s = .next t →
    (t.res = 0xD#4 → s.res = 0xD#4) ∧
    (∀ dp c w p, .overrun dp c w p ∈ t.events → .overrun dp c w p ∈ s.events) ∧
    (s.phase = .decode → s.rom[s.dp.toNat]? = some endWord → s.cur = s.plen)

/-- One FEED, run to its end, is the command of R122 as one function of the buffer, the routines, the time and the byte:
the buffer it leaves, RES, ready and the events; it ends within as many steps as the ROM has words, and takes no other
command meanwhile. The division into steps is the model's (log entry 1), and the value of a signed field among the events is
read in two's complement, which the spec marks as general knowledge (G1; log entry 11). -/
def Obligations.FeedRefinesTheCommand : Prop :=
  ∀ (s : State) (b : Byte) (is : List Instr) (rs : List Routine) (buffer : List Byte),
    s.Inv → s.phase = .rest → paramsOk s.params → decodeRom s.rom = some is → routines is = some rs →
    s.buffer = some buffer →
    let r := feedResult s.params rs buffer s.lastTs (s.now % 2 ^ s.params.tsW) b
    ∃ t, settleOutcome s.rom.length (exec (.feed b) s) = .next t ∧ t.phase = .rest ∧ t.buffer = some r.1 ∧
      t.res = r.2.1.toBits ∧ t.ready = r.2.1.consumed ∧ t.events = r.2.2 ∧
      t.lastTs = s.now % 2 ^ s.params.tsW ∧ t.params = s.params ∧ t.data = none ∧ t.now = s.now ∧ t.stat = s.stat ∧
      t.inputs = s.inputs

/-- A routine's outcome and events are a function of the routine and the payload alone: two FEEDs at the same header of
the same ROM with equal payloads end alike, whatever the addresses, the times, the earlier frames and the other registers
are. -/
def Obligations.RoutineDependsOnPayloadOnly : Prop :=
  ∀ s s' : State, s.Inv → s'.Inv → paramsOk s.params → paramsOk s'.params → s.phase = .decode → s'.phase = .decode →
    s'.rom = s.rom → s'.params.ws = s.params.ws → s'.dp = s.dp → s'.plen = s.plen →
    (∃ w key, s.rom[s.dp.toNat]? = some w ∧ headerKey w = some key) →
    (∀ a, a < s.plen.toNat → s'.buf (9 + a) = s.buf (9 + a)) → s.events = [] → s'.events = [] →
    ∃ t t', settle s.rom.length s = .next t ∧ settle s'.rom.length s' = .next t' ∧ t.phase = .rest ∧ t'.phase = .rest ∧
      t'.res = t.res ∧ t'.events = t.events ∧ t'.ready = t.ready

/-- All or nothing: a FEED that ends as DECODED gives exactly the events of all the fields of the routine with the frame's
key, in order, over the frame's payload; any other FEED publishes nothing, but for the one legacy fallback, which is SIZE
and gives the size mismatch and one Publish of the mismatched length under the routine's legacy identifier (section 3 of
43_message_decoder.md). The value of a signed field is read in two's complement (log entry 11). -/
def Obligations.AllOrNothing : Prop :=
  ∀ (s t : State) (b : Byte) (is : List Instr) (rs : List Routine) (raw : List Byte), s.Inv → s.phase = .rest →
    paramsOk s.params → decodeRom s.rom = some is → routines is = some rs →
    (s.startCommand.receive b).buffer = some raw →
    settleOutcome s.rom.length (exec (.feed b) s) = .next t →
    (t.res = 0x8#4 →
      ∃ r ∈ rs, ∃ n : Byte, raw[6]? = some r.control ∧ raw[7]? = some r.function ∧ raw[8]? = some n ∧ r.kind = .decode ∧
        r.explen = n ∧ t.events = fieldsEvents s.params.ws r.fields ((raw.drop 9).take n.toNat)) ∧
    (t.res ≠ 0x8#4 →
      (∀ fid v, .publish fid v ∉ t.events) ∨
      (t.res = 0xB#4 ∧ ∃ r ∈ rs, ∃ (n : Byte) (fid : Fid), raw[6]? = some r.control ∧ raw[7]? = some r.function ∧
        raw[8]? = some n ∧ r.kind = .decode ∧ r.explen ≠ n ∧ r.legacy = some fid ∧
        t.events = [.sizeMismatch r.explen n, .publish fid (.num (n.toNat : Int) 0#2)]))

/-- Saturation is invisible but for LEN: two instances that differ only in BUF_CAP, with equal buffers or both dead, give
the same RES, ready and events on every FEED, and are left with equal buffers or both dead (section 3 of
40_bytewindow.md). -/
def Obligations.SaturationInvisible : Prop :=
  ∀ (s s' : State) (b : Byte), s.Inv → s'.Inv → paramsOk s.params → paramsOk s'.params → s.phase = .rest →
    s'.phase = .rest → s'.params = { s.params with bufCap := s'.params.bufCap } → s'.lastTs = s.lastTs → s'.now = s.now →
    (s'.buffer = s.buffer ∨ (s.dead ∧ s'.dead)) →
    ∃ t t', settleOutcome s.rom.length (exec (.feed b) s) = .next t ∧
      settleOutcome s'.rom.length (exec (.feed b) s') = .next t' ∧
      t'.res = t.res ∧ t'.ready = t.ready ∧ t'.events = t.events ∧ t'.lastTs = t.lastTs ∧
      (t'.buffer = t.buffer ∨ (t.dead ∧ t'.dead))
end

