-- ==== Sys2Proof/Laws/State.lean ====
section
/-! SUPPORT. One lemma per field per named update of State: what the update leaves and what it writes. -/

namespace Sys2Proof.Machine

@[simp] theorem State.emit_mem (s : State) (e : Event) : (s.emit e).mem = s.mem := rfl
@[simp] theorem State.emit_len (s : State) (e : Event) : (s.emit e).len = s.len := rfl
@[simp] theorem State.emit_lastTs (s : State) (e : Event) : (s.emit e).lastTs = s.lastTs := rfl
@[simp] theorem State.emit_res (s : State) (e : Event) : (s.emit e).res = s.res := rfl
@[simp] theorem State.emit_params (s : State) (e : Event) : (s.emit e).params = s.params := rfl
@[simp] theorem State.emit_n (s : State) (e : Event) : (s.emit e).n = s.n := rfl
@[simp] theorem State.emit_sum (s : State) (e : Event) : (s.emit e).sum = s.sum := rfl
@[simp] theorem State.emit_rcv (s : State) (e : Event) : (s.emit e).rcv = s.rcv := rfl
@[simp] theorem State.emit_ctl (s : State) (e : Event) : (s.emit e).ctl = s.ctl := rfl
@[simp] theorem State.emit_fn (s : State) (e : Event) : (s.emit e).fn = s.fn := rfl
@[simp] theorem State.emit_plen (s : State) (e : Event) : (s.emit e).plen = s.plen := rfl
@[simp] theorem State.emit_cur (s : State) (e : Event) : (s.emit e).cur = s.cur := rfl
@[simp] theorem State.emit_dp (s : State) (e : Event) : (s.emit e).dp = s.dp := rfl
@[simp] theorem State.emit_acc (s : State) (e : Event) : (s.emit e).acc = s.acc := rfl
@[simp] theorem State.emit_pend (s : State) (e : Event) : (s.emit e).pend = s.pend := rfl
@[simp] theorem State.emit_ready (s : State) (e : Event) : (s.emit e).ready = s.ready := rfl
@[simp] theorem State.emit_events (s : State) (e : Event) : (s.emit e).events = s.events ++ [e] := rfl
@[simp] theorem State.emit_data (s : State) (e : Event) : (s.emit e).data = s.data := rfl
@[simp] theorem State.emit_phase (s : State) (e : Event) : (s.emit e).phase = s.phase := rfl
@[simp] theorem State.emit_now (s : State) (e : Event) : (s.emit e).now = s.now := rfl
@[simp] theorem State.emit_stat (s : State) (e : Event) : (s.emit e).stat = s.stat := rfl
@[simp] theorem State.emit_inputs (s : State) (e : Event) : (s.emit e).inputs = s.inputs := rfl

@[simp] theorem State.pendEvent_mem (s : State) (e : Event) : (s.pendEvent e).mem = s.mem := rfl
@[simp] theorem State.pendEvent_len (s : State) (e : Event) : (s.pendEvent e).len = s.len := rfl
@[simp] theorem State.pendEvent_lastTs (s : State) (e : Event) : (s.pendEvent e).lastTs = s.lastTs := rfl
@[simp] theorem State.pendEvent_res (s : State) (e : Event) : (s.pendEvent e).res = s.res := rfl
@[simp] theorem State.pendEvent_params (s : State) (e : Event) : (s.pendEvent e).params = s.params := rfl
@[simp] theorem State.pendEvent_n (s : State) (e : Event) : (s.pendEvent e).n = s.n := rfl
@[simp] theorem State.pendEvent_sum (s : State) (e : Event) : (s.pendEvent e).sum = s.sum := rfl
@[simp] theorem State.pendEvent_rcv (s : State) (e : Event) : (s.pendEvent e).rcv = s.rcv := rfl
@[simp] theorem State.pendEvent_ctl (s : State) (e : Event) : (s.pendEvent e).ctl = s.ctl := rfl
@[simp] theorem State.pendEvent_fn (s : State) (e : Event) : (s.pendEvent e).fn = s.fn := rfl
@[simp] theorem State.pendEvent_plen (s : State) (e : Event) : (s.pendEvent e).plen = s.plen := rfl
@[simp] theorem State.pendEvent_cur (s : State) (e : Event) : (s.pendEvent e).cur = s.cur := rfl
@[simp] theorem State.pendEvent_dp (s : State) (e : Event) : (s.pendEvent e).dp = s.dp := rfl
@[simp] theorem State.pendEvent_acc (s : State) (e : Event) : (s.pendEvent e).acc = s.acc := rfl
@[simp] theorem State.pendEvent_pend (s : State) (e : Event) : (s.pendEvent e).pend = s.pend ++ [e] := rfl
@[simp] theorem State.pendEvent_ready (s : State) (e : Event) : (s.pendEvent e).ready = s.ready := rfl
@[simp] theorem State.pendEvent_events (s : State) (e : Event) : (s.pendEvent e).events = s.events := rfl
@[simp] theorem State.pendEvent_data (s : State) (e : Event) : (s.pendEvent e).data = s.data := rfl
@[simp] theorem State.pendEvent_phase (s : State) (e : Event) : (s.pendEvent e).phase = s.phase := rfl
@[simp] theorem State.pendEvent_now (s : State) (e : Event) : (s.pendEvent e).now = s.now := rfl
@[simp] theorem State.pendEvent_stat (s : State) (e : Event) : (s.pendEvent e).stat = s.stat := rfl
@[simp] theorem State.pendEvent_inputs (s : State) (e : Event) : (s.pendEvent e).inputs = s.inputs := rfl

@[simp] theorem State.startCommand_mem (s : State) : (s.startCommand).mem = s.mem := rfl
@[simp] theorem State.startCommand_len (s : State) : (s.startCommand).len = s.len := rfl
@[simp] theorem State.startCommand_lastTs (s : State) : (s.startCommand).lastTs = s.lastTs := rfl
@[simp] theorem State.startCommand_res (s : State) : (s.startCommand).res = s.res := rfl
@[simp] theorem State.startCommand_params (s : State) : (s.startCommand).params = s.params := rfl
@[simp] theorem State.startCommand_n (s : State) : (s.startCommand).n = s.n := rfl
@[simp] theorem State.startCommand_sum (s : State) : (s.startCommand).sum = s.sum := rfl
@[simp] theorem State.startCommand_rcv (s : State) : (s.startCommand).rcv = s.rcv := rfl
@[simp] theorem State.startCommand_ctl (s : State) : (s.startCommand).ctl = s.ctl := rfl
@[simp] theorem State.startCommand_fn (s : State) : (s.startCommand).fn = s.fn := rfl
@[simp] theorem State.startCommand_plen (s : State) : (s.startCommand).plen = s.plen := rfl
@[simp] theorem State.startCommand_cur (s : State) : (s.startCommand).cur = s.cur := rfl
@[simp] theorem State.startCommand_dp (s : State) : (s.startCommand).dp = s.dp := rfl
@[simp] theorem State.startCommand_acc (s : State) : (s.startCommand).acc = s.acc := rfl
@[simp] theorem State.startCommand_pend (s : State) : (s.startCommand).pend = s.pend := rfl
@[simp] theorem State.startCommand_ready (s : State) : (s.startCommand).ready = false := rfl
@[simp] theorem State.startCommand_events (s : State) : (s.startCommand).events = [] := rfl
@[simp] theorem State.startCommand_data (s : State) : (s.startCommand).data = none := rfl
@[simp] theorem State.startCommand_phase (s : State) : (s.startCommand).phase = s.phase := rfl
@[simp] theorem State.startCommand_now (s : State) : (s.startCommand).now = s.now := rfl
@[simp] theorem State.startCommand_stat (s : State) : (s.startCommand).stat = s.stat := rfl
@[simp] theorem State.startCommand_inputs (s : State) : (s.startCommand).inputs = s.inputs := rfl

@[simp] theorem State.finish_mem (s : State) (c : Code) : (s.finish c).mem = s.mem := rfl
@[simp] theorem State.finish_len (s : State) (c : Code) : (s.finish c).len = if c.consumed then 0 else s.len := rfl
@[simp] theorem State.finish_lastTs (s : State) (c : Code) : (s.finish c).lastTs = s.lastTs := rfl
@[simp] theorem State.finish_res (s : State) (c : Code) : (s.finish c).res = c.toBits := rfl
@[simp] theorem State.finish_params (s : State) (c : Code) : (s.finish c).params = s.params := rfl
@[simp] theorem State.finish_n (s : State) (c : Code) : (s.finish c).n = s.n := rfl
@[simp] theorem State.finish_sum (s : State) (c : Code) : (s.finish c).sum = s.sum := rfl
@[simp] theorem State.finish_rcv (s : State) (c : Code) : (s.finish c).rcv = s.rcv := rfl
@[simp] theorem State.finish_ctl (s : State) (c : Code) : (s.finish c).ctl = s.ctl := rfl
@[simp] theorem State.finish_fn (s : State) (c : Code) : (s.finish c).fn = s.fn := rfl
@[simp] theorem State.finish_plen (s : State) (c : Code) : (s.finish c).plen = s.plen := rfl
@[simp] theorem State.finish_cur (s : State) (c : Code) : (s.finish c).cur = s.cur := rfl
@[simp] theorem State.finish_dp (s : State) (c : Code) : (s.finish c).dp = s.dp := rfl
@[simp] theorem State.finish_acc (s : State) (c : Code) : (s.finish c).acc = s.acc := rfl
@[simp] theorem State.finish_pend (s : State) (c : Code) : (s.finish c).pend = s.pend := rfl
@[simp] theorem State.finish_ready (s : State) (c : Code) : (s.finish c).ready = c.consumed := rfl
@[simp] theorem State.finish_events (s : State) (c : Code) : (s.finish c).events = s.events := rfl
@[simp] theorem State.finish_data (s : State) (c : Code) : (s.finish c).data = s.data := rfl
@[simp] theorem State.finish_phase (s : State) (c : Code) : (s.finish c).phase = .rest := rfl
@[simp] theorem State.finish_now (s : State) (c : Code) : (s.finish c).now = s.now := rfl
@[simp] theorem State.finish_stat (s : State) (c : Code) : (s.finish c).stat = s.stat := rfl
@[simp] theorem State.finish_inputs (s : State) (c : Code) : (s.finish c).inputs = s.inputs := rfl

@[simp] theorem State.advance_mem (s : State) (k : Nat) : (s.advance k).mem = s.mem := rfl
@[simp] theorem State.advance_len (s : State) (k : Nat) : (s.advance k).len = s.len := rfl
@[simp] theorem State.advance_lastTs (s : State) (k : Nat) : (s.advance k).lastTs = s.lastTs := rfl
@[simp] theorem State.advance_res (s : State) (k : Nat) : (s.advance k).res = s.res := rfl
@[simp] theorem State.advance_params (s : State) (k : Nat) : (s.advance k).params = s.params := rfl
@[simp] theorem State.advance_n (s : State) (k : Nat) : (s.advance k).n = s.n := rfl
@[simp] theorem State.advance_sum (s : State) (k : Nat) : (s.advance k).sum = s.sum := rfl
@[simp] theorem State.advance_rcv (s : State) (k : Nat) : (s.advance k).rcv = s.rcv := rfl
@[simp] theorem State.advance_ctl (s : State) (k : Nat) : (s.advance k).ctl = s.ctl := rfl
@[simp] theorem State.advance_fn (s : State) (k : Nat) : (s.advance k).fn = s.fn := rfl
@[simp] theorem State.advance_plen (s : State) (k : Nat) : (s.advance k).plen = s.plen := rfl
@[simp] theorem State.advance_cur (s : State) (k : Nat) : (s.advance k).cur = s.cur := rfl
@[simp] theorem State.advance_dp (s : State) (k : Nat) : (s.advance k).dp = s.dp + BitVec.ofNat 16 k := rfl
@[simp] theorem State.advance_acc (s : State) (k : Nat) : (s.advance k).acc = s.acc := rfl
@[simp] theorem State.advance_pend (s : State) (k : Nat) : (s.advance k).pend = s.pend := rfl
@[simp] theorem State.advance_ready (s : State) (k : Nat) : (s.advance k).ready = s.ready := rfl
@[simp] theorem State.advance_events (s : State) (k : Nat) : (s.advance k).events = s.events := rfl
@[simp] theorem State.advance_data (s : State) (k : Nat) : (s.advance k).data = s.data := rfl
@[simp] theorem State.advance_phase (s : State) (k : Nat) : (s.advance k).phase = s.phase := rfl
@[simp] theorem State.advance_now (s : State) (k : Nat) : (s.advance k).now = s.now := rfl
@[simp] theorem State.advance_stat (s : State) (k : Nat) : (s.advance k).stat = s.stat := rfl
@[simp] theorem State.advance_inputs (s : State) (k : Nat) : (s.advance k).inputs = s.inputs := rfl

@[simp] theorem State.stamp_mem (s : State) : (s.stamp).mem = s.mem := rfl
@[simp] theorem State.stamp_len (s : State) : (s.stamp).len = s.len := rfl
@[simp] theorem State.stamp_lastTs (s : State) : (s.stamp).lastTs = s.nowPort := rfl
@[simp] theorem State.stamp_res (s : State) : (s.stamp).res = s.res := rfl
@[simp] theorem State.stamp_params (s : State) : (s.stamp).params = s.params := rfl
@[simp] theorem State.stamp_n (s : State) : (s.stamp).n = s.n := rfl
@[simp] theorem State.stamp_sum (s : State) : (s.stamp).sum = s.sum := rfl
@[simp] theorem State.stamp_rcv (s : State) : (s.stamp).rcv = s.rcv := rfl
@[simp] theorem State.stamp_ctl (s : State) : (s.stamp).ctl = s.ctl := rfl
@[simp] theorem State.stamp_fn (s : State) : (s.stamp).fn = s.fn := rfl
@[simp] theorem State.stamp_plen (s : State) : (s.stamp).plen = s.plen := rfl
@[simp] theorem State.stamp_cur (s : State) : (s.stamp).cur = s.cur := rfl
@[simp] theorem State.stamp_dp (s : State) : (s.stamp).dp = s.dp := rfl
@[simp] theorem State.stamp_acc (s : State) : (s.stamp).acc = s.acc := rfl
@[simp] theorem State.stamp_pend (s : State) : (s.stamp).pend = s.pend := rfl
@[simp] theorem State.stamp_ready (s : State) : (s.stamp).ready = s.ready := rfl
@[simp] theorem State.stamp_events (s : State) : (s.stamp).events = s.events := rfl
@[simp] theorem State.stamp_data (s : State) : (s.stamp).data = s.data := rfl
@[simp] theorem State.stamp_phase (s : State) : (s.stamp).phase = s.phase := rfl
@[simp] theorem State.stamp_now (s : State) : (s.stamp).now = s.now := rfl
@[simp] theorem State.stamp_stat (s : State) : (s.stamp).stat = s.stat := rfl
@[simp] theorem State.stamp_inputs (s : State) : (s.stamp).inputs = s.inputs := rfl

@[simp] theorem State.commit_mem (s : State) : (s.commit).mem = s.mem := rfl
@[simp] theorem State.commit_len (s : State) : (s.commit).len = s.len := rfl
@[simp] theorem State.commit_lastTs (s : State) : (s.commit).lastTs = s.lastTs := rfl
@[simp] theorem State.commit_res (s : State) : (s.commit).res = s.res := rfl
@[simp] theorem State.commit_params (s : State) : (s.commit).params = s.params := rfl
@[simp] theorem State.commit_n (s : State) : (s.commit).n = s.n := rfl
@[simp] theorem State.commit_sum (s : State) : (s.commit).sum = s.sum := rfl
@[simp] theorem State.commit_rcv (s : State) : (s.commit).rcv = s.rcv := rfl
@[simp] theorem State.commit_ctl (s : State) : (s.commit).ctl = s.ctl := rfl
@[simp] theorem State.commit_fn (s : State) : (s.commit).fn = s.fn := rfl
@[simp] theorem State.commit_plen (s : State) : (s.commit).plen = s.plen := rfl
@[simp] theorem State.commit_cur (s : State) : (s.commit).cur = s.cur := rfl
@[simp] theorem State.commit_dp (s : State) : (s.commit).dp = s.dp := rfl
@[simp] theorem State.commit_acc (s : State) : (s.commit).acc = s.acc := rfl
@[simp] theorem State.commit_pend (s : State) : (s.commit).pend = [] := rfl
@[simp] theorem State.commit_ready (s : State) : (s.commit).ready = s.ready := rfl
@[simp] theorem State.commit_events (s : State) : (s.commit).events = s.events ++ s.pend := rfl
@[simp] theorem State.commit_data (s : State) : (s.commit).data = s.data := rfl
@[simp] theorem State.commit_phase (s : State) : (s.commit).phase = s.phase := rfl
@[simp] theorem State.commit_now (s : State) : (s.commit).now = s.now := rfl
@[simp] theorem State.commit_stat (s : State) : (s.commit).stat = s.stat := rfl
@[simp] theorem State.commit_inputs (s : State) : (s.commit).inputs = s.inputs := rfl

@[simp] theorem State.raiseOverrun_mem (s : State) (w : Nat) : (s.raiseOverrun w).mem = s.mem := rfl
@[simp] theorem State.raiseOverrun_len (s : State) (w : Nat) : (s.raiseOverrun w).len = 0 := rfl
@[simp] theorem State.raiseOverrun_lastTs (s : State) (w : Nat) : (s.raiseOverrun w).lastTs = s.lastTs := rfl
@[simp] theorem State.raiseOverrun_res (s : State) (w : Nat) : (s.raiseOverrun w).res = Code.overrun.toBits := rfl
@[simp] theorem State.raiseOverrun_params (s : State) (w : Nat) : (s.raiseOverrun w).params = s.params := rfl
@[simp] theorem State.raiseOverrun_n (s : State) (w : Nat) : (s.raiseOverrun w).n = s.n := rfl
@[simp] theorem State.raiseOverrun_sum (s : State) (w : Nat) : (s.raiseOverrun w).sum = s.sum := rfl
@[simp] theorem State.raiseOverrun_rcv (s : State) (w : Nat) : (s.raiseOverrun w).rcv = s.rcv := rfl
@[simp] theorem State.raiseOverrun_ctl (s : State) (w : Nat) : (s.raiseOverrun w).ctl = s.ctl := rfl
@[simp] theorem State.raiseOverrun_fn (s : State) (w : Nat) : (s.raiseOverrun w).fn = s.fn := rfl
@[simp] theorem State.raiseOverrun_plen (s : State) (w : Nat) : (s.raiseOverrun w).plen = s.plen := rfl
@[simp] theorem State.raiseOverrun_cur (s : State) (w : Nat) : (s.raiseOverrun w).cur = s.cur := rfl
@[simp] theorem State.raiseOverrun_dp (s : State) (w : Nat) : (s.raiseOverrun w).dp = s.dp := rfl
@[simp] theorem State.raiseOverrun_acc (s : State) (w : Nat) : (s.raiseOverrun w).acc = s.acc := rfl
@[simp] theorem State.raiseOverrun_pend (s : State) (w : Nat) : (s.raiseOverrun w).pend = [] := rfl
@[simp] theorem State.raiseOverrun_ready (s : State) (w : Nat) : (s.raiseOverrun w).ready = Code.overrun.consumed := rfl
@[simp] theorem State.raiseOverrun_events (s : State) (w : Nat) : (s.raiseOverrun w).events = s.events ++ [.overrun s.dp s.cur (BitVec.ofNat 8 w) s.plen] := rfl
@[simp] theorem State.raiseOverrun_data (s : State) (w : Nat) : (s.raiseOverrun w).data = s.data := rfl
@[simp] theorem State.raiseOverrun_phase (s : State) (w : Nat) : (s.raiseOverrun w).phase = .rest := rfl
@[simp] theorem State.raiseOverrun_now (s : State) (w : Nat) : (s.raiseOverrun w).now = s.now := rfl
@[simp] theorem State.raiseOverrun_stat (s : State) (w : Nat) : (s.raiseOverrun w).stat = s.stat := rfl
@[simp] theorem State.raiseOverrun_inputs (s : State) (w : Nat) : (s.raiseOverrun w).inputs = s.inputs := rfl

@[simp] theorem State.timeoutDiscard_mem (s : State) : s.timeoutDiscard.mem = s.mem := by
  unfold State.timeoutDiscard; split <;> rfl
@[simp] theorem State.timeoutDiscard_len (s : State) : s.timeoutDiscard.len = if s.timedOut then 0 else s.len := by
  unfold State.timeoutDiscard; split <;> rfl
@[simp] theorem State.timeoutDiscard_lastTs (s : State) : s.timeoutDiscard.lastTs = s.lastTs := by
  unfold State.timeoutDiscard; split <;> rfl
@[simp] theorem State.timeoutDiscard_res (s : State) : s.timeoutDiscard.res = s.res := by
  unfold State.timeoutDiscard; split <;> rfl
@[simp] theorem State.timeoutDiscard_params (s : State) : s.timeoutDiscard.params = s.params := by
  unfold State.timeoutDiscard; split <;> rfl
@[simp] theorem State.timeoutDiscard_n (s : State) : s.timeoutDiscard.n = s.n := by
  unfold State.timeoutDiscard; split <;> rfl
@[simp] theorem State.timeoutDiscard_sum (s : State) : s.timeoutDiscard.sum = s.sum := by
  unfold State.timeoutDiscard; split <;> rfl
@[simp] theorem State.timeoutDiscard_rcv (s : State) : s.timeoutDiscard.rcv = s.rcv := by
  unfold State.timeoutDiscard; split <;> rfl
@[simp] theorem State.timeoutDiscard_ctl (s : State) : s.timeoutDiscard.ctl = s.ctl := by
  unfold State.timeoutDiscard; split <;> rfl
@[simp] theorem State.timeoutDiscard_fn (s : State) : s.timeoutDiscard.fn = s.fn := by
  unfold State.timeoutDiscard; split <;> rfl
@[simp] theorem State.timeoutDiscard_plen (s : State) : s.timeoutDiscard.plen = s.plen := by
  unfold State.timeoutDiscard; split <;> rfl
@[simp] theorem State.timeoutDiscard_cur (s : State) : s.timeoutDiscard.cur = s.cur := by
  unfold State.timeoutDiscard; split <;> rfl
@[simp] theorem State.timeoutDiscard_dp (s : State) : s.timeoutDiscard.dp = s.dp := by
  unfold State.timeoutDiscard; split <;> rfl
@[simp] theorem State.timeoutDiscard_acc (s : State) : s.timeoutDiscard.acc = s.acc := by
  unfold State.timeoutDiscard; split <;> rfl
@[simp] theorem State.timeoutDiscard_pend (s : State) : s.timeoutDiscard.pend = s.pend := by
  unfold State.timeoutDiscard; split <;> rfl
@[simp] theorem State.timeoutDiscard_ready (s : State) : s.timeoutDiscard.ready = s.ready := by
  unfold State.timeoutDiscard; split <;> rfl
@[simp] theorem State.timeoutDiscard_events (s : State) : s.timeoutDiscard.events = s.events := by
  unfold State.timeoutDiscard; split <;> rfl
@[simp] theorem State.timeoutDiscard_data (s : State) : s.timeoutDiscard.data = s.data := by
  unfold State.timeoutDiscard; split <;> rfl
@[simp] theorem State.timeoutDiscard_phase (s : State) : s.timeoutDiscard.phase = s.phase := by
  unfold State.timeoutDiscard; split <;> rfl
@[simp] theorem State.timeoutDiscard_now (s : State) : s.timeoutDiscard.now = s.now := by
  unfold State.timeoutDiscard; split <;> rfl
@[simp] theorem State.timeoutDiscard_stat (s : State) : s.timeoutDiscard.stat = s.stat := by
  unfold State.timeoutDiscard; split <;> rfl
@[simp] theorem State.timeoutDiscard_inputs (s : State) : s.timeoutDiscard.inputs = s.inputs := by
  unfold State.timeoutDiscard; split <;> rfl

@[simp] theorem State.append_lastTs (s : State) (b : Byte) : (s.append b).lastTs = s.lastTs := by
  unfold State.append; split <;> rfl
@[simp] theorem State.append_res (s : State) (b : Byte) : (s.append b).res = s.res := by
  unfold State.append; split <;> rfl
@[simp] theorem State.append_params (s : State) (b : Byte) : (s.append b).params = s.params := by
  unfold State.append; split <;> rfl
@[simp] theorem State.append_n (s : State) (b : Byte) : (s.append b).n = s.n := by
  unfold State.append; split <;> rfl
@[simp] theorem State.append_sum (s : State) (b : Byte) : (s.append b).sum = s.sum := by
  unfold State.append; split <;> rfl
@[simp] theorem State.append_rcv (s : State) (b : Byte) : (s.append b).rcv = s.rcv := by
  unfold State.append; split <;> rfl
@[simp] theorem State.append_ctl (s : State) (b : Byte) : (s.append b).ctl = s.ctl := by
  unfold State.append; split <;> rfl
@[simp] theorem State.append_fn (s : State) (b : Byte) : (s.append b).fn = s.fn := by
  unfold State.append; split <;> rfl
@[simp] theorem State.append_plen (s : State) (b : Byte) : (s.append b).plen = s.plen := by
  unfold State.append; split <;> rfl
@[simp] theorem State.append_cur (s : State) (b : Byte) : (s.append b).cur = s.cur := by
  unfold State.append; split <;> rfl
@[simp] theorem State.append_dp (s : State) (b : Byte) : (s.append b).dp = s.dp := by
  unfold State.append; split <;> rfl
@[simp] theorem State.append_acc (s : State) (b : Byte) : (s.append b).acc = s.acc := by
  unfold State.append; split <;> rfl
@[simp] theorem State.append_pend (s : State) (b : Byte) : (s.append b).pend = s.pend := by
  unfold State.append; split <;> rfl
@[simp] theorem State.append_ready (s : State) (b : Byte) : (s.append b).ready = s.ready := by
  unfold State.append; split <;> rfl
@[simp] theorem State.append_events (s : State) (b : Byte) : (s.append b).events = s.events := by
  unfold State.append; split <;> rfl
@[simp] theorem State.append_data (s : State) (b : Byte) : (s.append b).data = s.data := by
  unfold State.append; split <;> rfl
@[simp] theorem State.append_phase (s : State) (b : Byte) : (s.append b).phase = s.phase := by
  unfold State.append; split <;> rfl
@[simp] theorem State.append_now (s : State) (b : Byte) : (s.append b).now = s.now := by
  unfold State.append; split <;> rfl
@[simp] theorem State.append_stat (s : State) (b : Byte) : (s.append b).stat = s.stat := by
  unfold State.append; split <;> rfl
@[simp] theorem State.append_inputs (s : State) (b : Byte) : (s.append b).inputs = s.inputs := by
  unfold State.append; split <;> rfl

@[simp] theorem State.receive_res (s : State) (b : Byte) : (s.receive b).res = s.res := by
  simp [State.receive]
@[simp] theorem State.receive_params (s : State) (b : Byte) : (s.receive b).params = s.params := by
  simp [State.receive]
@[simp] theorem State.receive_n (s : State) (b : Byte) : (s.receive b).n = s.n := by
  simp [State.receive]
@[simp] theorem State.receive_sum (s : State) (b : Byte) : (s.receive b).sum = s.sum := by
  simp [State.receive]
@[simp] theorem State.receive_rcv (s : State) (b : Byte) : (s.receive b).rcv = s.rcv := by
  simp [State.receive]
@[simp] theorem State.receive_ctl (s : State) (b : Byte) : (s.receive b).ctl = s.ctl := by
  simp [State.receive]
@[simp] theorem State.receive_fn (s : State) (b : Byte) : (s.receive b).fn = s.fn := by
  simp [State.receive]
@[simp] theorem State.receive_plen (s : State) (b : Byte) : (s.receive b).plen = s.plen := by
  simp [State.receive]
@[simp] theorem State.receive_cur (s : State) (b : Byte) : (s.receive b).cur = s.cur := by
  simp [State.receive]
@[simp] theorem State.receive_dp (s : State) (b : Byte) : (s.receive b).dp = s.dp := by
  simp [State.receive]
@[simp] theorem State.receive_acc (s : State) (b : Byte) : (s.receive b).acc = s.acc := by
  simp [State.receive]
@[simp] theorem State.receive_pend (s : State) (b : Byte) : (s.receive b).pend = s.pend := by
  simp [State.receive]
@[simp] theorem State.receive_ready (s : State) (b : Byte) : (s.receive b).ready = s.ready := by
  simp [State.receive]
@[simp] theorem State.receive_events (s : State) (b : Byte) : (s.receive b).events = s.events := by
  simp [State.receive]
@[simp] theorem State.receive_data (s : State) (b : Byte) : (s.receive b).data = s.data := by
  simp [State.receive]
@[simp] theorem State.receive_phase (s : State) (b : Byte) : (s.receive b).phase = s.phase := by
  simp [State.receive]
@[simp] theorem State.receive_now (s : State) (b : Byte) : (s.receive b).now = s.now := by
  simp [State.receive]
@[simp] theorem State.receive_stat (s : State) (b : Byte) : (s.receive b).stat = s.stat := by
  simp [State.receive]
@[simp] theorem State.receive_inputs (s : State) (b : Byte) : (s.receive b).inputs = s.inputs := by
  simp [State.receive]

@[simp] theorem State.nowPort_timeoutDiscard (s : State) : s.timeoutDiscard.nowPort = s.nowPort := by
  simp [State.nowPort]

@[simp] theorem State.receive_lastTs (s : State) (b : Byte) : (s.receive b).lastTs = s.nowPort := by
  simp [State.receive]

@[simp] theorem State.rom_emit (s : State) (e : Event) : (s.emit e).rom = s.rom := rfl
@[simp] theorem State.rom_startCommand (s : State) : s.startCommand.rom = s.rom := rfl
@[simp] theorem State.rom_receive (s : State) (b : Byte) : (s.receive b).rom = s.rom := by simp [State.rom]

/-- BUF is read from the memory and LEN alone. -/
theorem State.buf_congr {s t : State} (hm : t.mem = s.mem) (hl : t.len = s.len) : t.buf = s.buf := by
  funext i; simp [State.buf, hm, hl]

@[simp] theorem State.buf_emit (s : State) (e : Event) : (s.emit e).buf = s.buf := rfl
@[simp] theorem State.buf_pendEvent (s : State) (e : Event) : (s.pendEvent e).buf = s.buf := rfl
@[simp] theorem State.buf_startCommand (s : State) : s.startCommand.buf = s.buf := rfl
@[simp] theorem State.buf_advance (s : State) (k : Nat) : (s.advance k).buf = s.buf := rfl
@[simp] theorem State.buf_stamp (s : State) : s.stamp.buf = s.buf := rfl
@[simp] theorem State.buf_commit (s : State) : s.commit.buf = s.buf := rfl

end Sys2Proof.Machine
end

