-- ==== Sys2Proof/Laws/Encode.lean ====
section
/-! SUPPORT. Every field of every descriptor format read back from the word the encoder places it in (R91 to R94), and what
the decoder answers on such a word by its class. -/

namespace Sys2Proof

theorem headerWord_class (kind : BitVec 2) (lg : Bool) (c f e : Byte) : bitField (headerWord kind lg c f e) 28 4 = 0x1#4 := by
  unfold bitField headerWord placeField
  ext i hi
  interval_cases i <;> simp [BitVec.getLsbD_of_ge]

theorem headerWord_kind (kind : BitVec 2) (lg : Bool) (c f e : Byte) : bitField (headerWord kind lg c f e) 26 2 = kind := by
  unfold bitField headerWord placeField
  ext i hi
  interval_cases i <;> simp [BitVec.getLsbD_of_ge]

theorem headerWord_lg (kind : BitVec 2) (lg : Bool) (c f e : Byte) : (headerWord kind lg c f e).getLsbD 25 = lg := by
  unfold headerWord placeField
  simp [BitVec.getLsbD_of_ge]

theorem headerWord_lg_getElem (kind : BitVec 2) (lg : Bool) (c f e : Byte) : (headerWord kind lg c f e)[25] = lg := by
  rw [← BitVec.getLsbD_eq_getElem]; exact headerWord_lg ..

theorem headerWord_reserved (kind : BitVec 2) (lg : Bool) (c f e : Byte) : (headerWord kind lg c f e).getLsbD 24 = false := by
  unfold headerWord placeField
  simp [BitVec.getLsbD_of_ge]

theorem headerWord_reserved_getElem (kind : BitVec 2) (lg : Bool) (c f e : Byte) : (headerWord kind lg c f e)[24] = false := by
  rw [← BitVec.getLsbD_eq_getElem]; exact headerWord_reserved ..

theorem headerWord_control (kind : BitVec 2) (lg : Bool) (c f e : Byte) : bitField (headerWord kind lg c f e) 16 8 = c := by
  unfold bitField headerWord placeField
  ext i hi
  interval_cases i <;> simp [BitVec.getLsbD_of_ge]

theorem headerWord_function (kind : BitVec 2) (lg : Bool) (c f e : Byte) : bitField (headerWord kind lg c f e) 8 8 = f := by
  unfold bitField headerWord placeField
  ext i hi
  interval_cases i <;> simp [BitVec.getLsbD_of_ge]

theorem headerWord_explen (kind : BitVec 2) (lg : Bool) (c f e : Byte) : bitField (headerWord kind lg c f e) 0 8 = e := by
  unfold bitField headerWord placeField
  ext i hi
  interval_cases i <;> simp

theorem legacyWord_class (fid : Fid) : bitField (legacyWord fid) 28 4 = 0x2#4 := by
  unfold bitField legacyWord placeField
  ext i hi
  interval_cases i <;> simp [BitVec.getLsbD_of_ge]

theorem legacyWord_reserved (fid : Fid) : bitField (legacyWord fid) 12 16 = 0#16 := by
  unfold bitField legacyWord placeField
  ext i hi
  interval_cases i <;> simp [BitVec.getLsbD_of_ge]

theorem legacyWord_fid (fid : Fid) : bitField (legacyWord fid) 0 12 = fid := by
  unfold bitField legacyWord placeField
  ext i hi
  interval_cases i <;> simp

theorem integerWord_class (sgn : Bool) (wsel : BitVec 2) (conv : Conv) (fid : Fid) : bitField (integerWord sgn wsel conv fid) 28 4 = 0x3#4 := by
  unfold bitField integerWord placeField
  ext i hi
  interval_cases i <;> simp [BitVec.getLsbD_of_ge]

theorem integerWord_sgn (sgn : Bool) (wsel : BitVec 2) (conv : Conv) (fid : Fid) : (integerWord sgn wsel conv fid).getLsbD 27 = sgn := by
  unfold integerWord placeField
  simp [BitVec.getLsbD_of_ge]

theorem integerWord_sgn_getElem (sgn : Bool) (wsel : BitVec 2) (conv : Conv) (fid : Fid) : (integerWord sgn wsel conv fid)[27] = sgn := by
  rw [← BitVec.getLsbD_eq_getElem]; exact integerWord_sgn ..

theorem integerWord_wsel (sgn : Bool) (wsel : BitVec 2) (conv : Conv) (fid : Fid) : bitField (integerWord sgn wsel conv fid) 25 2 = wsel := by
  unfold bitField integerWord placeField
  ext i hi
  interval_cases i <;> simp [BitVec.getLsbD_of_ge]

theorem integerWord_conv (sgn : Bool) (wsel : BitVec 2) (conv : Conv) (fid : Fid) : bitField (integerWord sgn wsel conv fid) 23 2 = conv.sel := by
  unfold bitField integerWord placeField
  ext i hi
  interval_cases i <;> simp [BitVec.getLsbD_of_ge]

theorem integerWord_divsel (sgn : Bool) (wsel : BitVec 2) (conv : Conv) (fid : Fid) : bitField (integerWord sgn wsel conv fid) 21 2 = conv.divsel := by
  unfold bitField integerWord placeField
  ext i hi
  interval_cases i <;> simp [BitVec.getLsbD_of_ge]

theorem integerWord_reserved (sgn : Bool) (wsel : BitVec 2) (conv : Conv) (fid : Fid) : bitField (integerWord sgn wsel conv fid) 12 9 = 0#9 := by
  unfold bitField integerWord placeField
  ext i hi
  interval_cases i <;> simp [BitVec.getLsbD_of_ge]

theorem integerWord_fid (sgn : Bool) (wsel : BitVec 2) (conv : Conv) (fid : Fid) : bitField (integerWord sgn wsel conv fid) 0 12 = fid := by
  unfold bitField integerWord placeField
  ext i hi
  interval_cases i <;> simp

theorem sliceWord_class (rend : BitVec 2) (supp : Bool) (n : Byte) (fid : Fid) : bitField (sliceWord rend supp n fid) 28 4 = 0x4#4 := by
  unfold bitField sliceWord placeField
  ext i hi
  interval_cases i <;> simp [BitVec.getLsbD_of_ge]

theorem sliceWord_rend (rend : BitVec 2) (supp : Bool) (n : Byte) (fid : Fid) : bitField (sliceWord rend supp n fid) 26 2 = rend := by
  unfold bitField sliceWord placeField
  ext i hi
  interval_cases i <;> simp [BitVec.getLsbD_of_ge]

theorem sliceWord_supp (rend : BitVec 2) (supp : Bool) (n : Byte) (fid : Fid) : (sliceWord rend supp n fid).getLsbD 25 = supp := by
  unfold sliceWord placeField
  simp [BitVec.getLsbD_of_ge]

theorem sliceWord_supp_getElem (rend : BitVec 2) (supp : Bool) (n : Byte) (fid : Fid) : (sliceWord rend supp n fid)[25] = supp := by
  rw [← BitVec.getLsbD_eq_getElem]; exact sliceWord_supp ..

theorem sliceWord_reservedHigh (rend : BitVec 2) (supp : Bool) (n : Byte) (fid : Fid) : (sliceWord rend supp n fid).getLsbD 24 = false := by
  unfold sliceWord placeField
  simp [BitVec.getLsbD_of_ge]

theorem sliceWord_reservedHigh_getElem (rend : BitVec 2) (supp : Bool) (n : Byte) (fid : Fid) : (sliceWord rend supp n fid)[24] = false := by
  rw [← BitVec.getLsbD_eq_getElem]; exact sliceWord_reservedHigh ..

theorem sliceWord_lenf (rend : BitVec 2) (supp : Bool) (n : Byte) (fid : Fid) : bitField (sliceWord rend supp n fid) 16 8 = n := by
  unfold bitField sliceWord placeField
  ext i hi
  interval_cases i <;> simp [BitVec.getLsbD_of_ge]

theorem sliceWord_reservedLow (rend : BitVec 2) (supp : Bool) (n : Byte) (fid : Fid) : bitField (sliceWord rend supp n fid) 12 4 = 0#4 := by
  unfold bitField sliceWord placeField
  ext i hi
  interval_cases i <;> simp [BitVec.getLsbD_of_ge]

theorem sliceWord_fid (rend : BitVec 2) (supp : Bool) (n : Byte) (fid : Fid) : bitField (sliceWord rend supp n fid) 0 12 = fid := by
  unfold bitField sliceWord placeField
  ext i hi
  interval_cases i <;> simp

/-- CONV and DIVSEL read back (R93). -/
theorem decodeConv_sel (conv : Conv) : decodeConv conv.sel conv.divsel = .ok conv := by
  cases conv <;> simp [decodeConv, Conv.sel, Conv.divsel]

theorem decodeDescriptor_header (kind : BitVec 2) (lg : Bool) (c f e : Byte) :
    decodeDescriptor (headerWord kind lg c f e) = decodeHeader (headerWord kind lg c f e) := by
  simp [decodeDescriptor, headerWord_class]

theorem decodeDescriptor_legacy (fid : Fid) : decodeDescriptor (legacyWord fid) = decodeLegacy (legacyWord fid) := by
  simp [decodeDescriptor, legacyWord_class]

theorem decodeDescriptor_integer (sgn : Bool) (wsel : BitVec 2) (conv : Conv) (fid : Fid) :
    decodeDescriptor (integerWord sgn wsel conv fid) = decodeInteger (integerWord sgn wsel conv fid) := by
  simp [decodeDescriptor, integerWord_class]

theorem decodeDescriptor_slice (rend : BitVec 2) (supp : Bool) (n : Byte) (fid : Fid) :
    decodeDescriptor (sliceWord rend supp n fid) = decodeSlice (sliceWord rend supp n fid) := by
  simp [decodeDescriptor, sliceWord_class]

theorem decodeHeader_ok {w : Word} {i : Instr} (h : decodeHeader w = .ok i) :
    (∃ lg c f e, i = .rtn lg c f e) ∨ ∃ c f, i = .nodata c f := by
  unfold decodeHeader at h
  dsimp only at h
  split at h
  · cases h
  · split at h
    · cases h; exact .inl ⟨_, _, _, _, rfl⟩
    · split at h
      · split at h
        · cases h
        · split at h
          · cases h
          · cases h; exact .inr ⟨_, _, rfl⟩
      · cases h

theorem decodeLegacy_ok {w : Word} {i : Instr} (h : decodeLegacy w = .ok i) : ∃ fid, i = .lgcy fid := by
  unfold decodeLegacy at h
  split at h
  · cases h
  · cases h; exact ⟨_, rfl⟩

theorem isField_unsignedRead (wsel : BitVec 2) (conv : Conv) (fid : Fid) :
    (unsignedRead wsel conv fid).isField = true := by
  unfold unsignedRead; repeat' split
  all_goals rfl

theorem isField_signedRead (wsel : BitVec 2) (k : BitVec 2) (fid : Fid) : (signedRead wsel k fid).isField = true := by
  unfold signedRead; repeat' split
  all_goals rfl

theorem decodeInteger_ok {w : Word} {i : Instr} (h : decodeInteger w = .ok i) : i.isField = true := by
  unfold decodeInteger at h
  dsimp only at h
  split at h
  · cases h
  · split at h
    · cases h
    · split at h
      · split at h
        · cases h; exact isField_signedRead _ _ _
        · cases h
        · cases h
      · cases h; exact isField_unsignedRead _ _ _

theorem decodeSlice_ok {w : Word} {i : Instr} (h : decodeSlice w = .ok i) : i.isField = true := by
  unfold decodeSlice at h
  dsimp only at h
  repeat' split at h
  all_goals first | (cases h; rfl) | cases h

/-- What a legal descriptor word is: a header, a LGCY word, a field descriptor or END (R90, R100). -/
theorem decodeDescriptor_ok {w : Word} {i : Instr} (h : decodeDescriptor w = .ok i) :
    (∃ lg c f e, i = .rtn lg c f e) ∨ (∃ c f, i = .nodata c f) ∨ (∃ fid, i = .lgcy fid) ∨ i.isField = true ∨
      i = .end_ := by
  unfold decodeDescriptor at h
  dsimp only at h
  split at h
  · exact (decodeHeader_ok h).elim .inl (.inr ∘ .inl)
  · split at h
    · exact .inr (.inr (.inl (decodeLegacy_ok h)))
    · split at h
      · exact .inr (.inr (.inr (.inl (decodeInteger_ok h))))
      · split at h
        · exact .inr (.inr (.inr (.inl (decodeSlice_ok h))))
        · split at h
          · split at h
            · cases h; exact .inr (.inr (.inr (.inr rfl)))
            · cases h
          · cases h

/-- Only the END word decodes to END (R95). -/
theorem decodeDescriptor_end {w : Word} : decodeDescriptor w = .ok .end_ ↔ w = endWord := by
  constructor
  · intro h
    unfold decodeDescriptor at h
    dsimp only at h
    split at h
    · rcases decodeHeader_ok h with ⟨_, _, _, _, h⟩ | ⟨_, _, h⟩ <;> cases h
    · split at h
      · obtain ⟨_, h⟩ := decodeLegacy_ok h; cases h
      · split at h
        · exact absurd (decodeInteger_ok h) (by decide)
        · split at h
          · exact absurd (decodeSlice_ok h) (by decide)
          · split at h
            · split at h
              · next hw => exact hw
              · cases h
            · cases h
  · rintro rfl; decide

end Sys2Proof
end

