-- ==== Sys2Proof/Laws/Memory.lean ====
section
/-! SUPPORT. The laws of the memory: a read after a write, that every operation keeps the canonical form, and reads of runs of
bytes. -/

namespace Sys2Proof.Machine

@[simp] theorem Memory.read_write_same (m : List Host.Cell) (a : Nat) (b : Byte) :
    Memory.read (Memory.write m a b) a = some b := by
  induction m with
  | nil => simp [Memory.write, Memory.read]
  | cons c m ih =>
    obtain ⟨x, v⟩ := c
    unfold Memory.write
    split
    · simp [Memory.read]
    · split
      · simp [Memory.read]
      · have hne : a ≠ x := by omega
        simp [Memory.read, hne, ih]

theorem Memory.read_write_other (m : List Host.Cell) {a i : Nat} (b : Byte) (h : i ≠ a) :
    Memory.read (Memory.write m a b) i = Memory.read m i := by
  induction m with
  | nil => simp [Memory.write, Memory.read, h]
  | cons c m ih =>
    obtain ⟨x, v⟩ := c
    unfold Memory.write
    split
    · simp [Memory.read, h]
    · split
      · next hax => subst hax; simp [Memory.read, h]
      · simp [Memory.read, ih]

/-- A lower bound may be lowered. -/
theorem Memory.wfFrom_mono {m : List Host.Cell} {lo lo' : Nat} (h : Memory.wfFrom lo m = true) (hl : lo' ≤ lo) :
    Memory.wfFrom lo' m = true := by
  cases m with
  | nil => rfl
  | cons c m =>
    obtain ⟨x, v⟩ := c
    simp only [Memory.wfFrom, Bool.and_eq_true, decide_eq_true_eq] at h ⊢
    exact ⟨by omega, h.2⟩

theorem Memory.wfFrom_write {m : List Host.Cell} {lo a : Nat} (b : Byte) (h : Memory.wfFrom lo m = true) (ha : lo ≤ a) :
    Memory.wfFrom lo (Memory.write m a b) = true := by
  induction m generalizing lo with
  | nil => simp [Memory.write, Memory.wfFrom, ha]
  | cons c m ih =>
    obtain ⟨x, v⟩ := c
    simp only [Memory.wfFrom, Bool.and_eq_true, decide_eq_true_eq] at h
    unfold Memory.write
    split
    · simp only [Memory.wfFrom, Bool.and_eq_true, decide_eq_true_eq]
      exact ⟨ha, by omega, h.2⟩
    · split
      · next hax => subst hax; simp [Memory.wfFrom, ha, h.2]
      · simp only [Memory.wfFrom, Bool.and_eq_true, decide_eq_true_eq]
        exact ⟨h.1, ih h.2 (by omega)⟩

/-- A store keeps the canonical form. -/
theorem Memory.wf_write {m : List Host.Cell} (a : Nat) (b : Byte) (h : Memory.wf m = true) :
    Memory.wf (Memory.write m a b) = true :=
  Memory.wfFrom_write b h (Nat.zero_le a)

/-- The addresses a store lists are those listed before and its own. -/
theorem Memory.mem_write {m : List Host.Cell} {a : Nat} {b : Byte} {c : Host.Cell} (h : c ∈ Memory.write m a b) :
    c = (a, b) ∨ c ∈ m := by
  induction m with
  | nil => simpa [Memory.write] using h
  | cons d m ih =>
    obtain ⟨x, v⟩ := d
    unfold Memory.write at h
    split at h
    · simpa using h
    · split at h
      · rcases List.mem_cons.1 h with h | h
        · exact .inl h
        · exact .inr (List.mem_cons_of_mem _ h)
      · rcases List.mem_cons.1 h with h | h
        · exact .inr (by simp [h])
        · rcases ih h with h | h
          · exact .inl h
          · exact .inr (List.mem_cons_of_mem _ h)

/-- The memory of the state after reset has the canonical form. -/
theorem Memory.wf_reset : Memory.wf State.reset.mem = true := rfl

theorem State.append_mem (s : State) (b : Byte) :
    (s.append b).mem = match s.appendAddr with | some a => Memory.write s.mem a b | none => s.mem := by
  unfold State.append; split <;> simp_all

theorem State.append_len (s : State) (b : Byte) :
    (s.append b).len = match s.appendAddr with | some _ => s.len + 1 | none => s.len := by
  unfold State.append; split <;> simp_all

/-- The append keeps the canonical form. -/
theorem State.wf_append (s : State) (b : Byte) (h : Memory.wf s.mem = true) : Memory.wf (s.append b).mem = true := by
  rw [State.append_mem]
  split
  · exact Memory.wf_write _ _ h
  · exact h

/-- FEED's discard, timestamp and append keep the canonical form. -/
theorem State.wf_receive (s : State) (b : Byte) (h : Memory.wf s.mem = true) : Memory.wf (s.receive b).mem = true :=
  State.wf_append _ _ (by simpa using h)

@[simp] theorem readRun_zero (f : Nat → Option Byte) (a : Nat) : readRun f a 0 = some [] := rfl

theorem readRun_succ (f : Nat → Option Byte) (a n : Nat) :
    readRun f a (n + 1) = match f a with | none => none | some b => (readRun f (a + 1) n).map (b :: ·) := rfl

/-- A run of reads answers exactly the values read, in order. -/
theorem readRun_eq_some {f : Nat → Option Byte} {a n : Nat} {l : List Byte} :
    readRun f a n = some l ↔ l.length = n ∧ ∀ i, i < n → f (a + i) = l[i]? := by
  induction n generalizing a l with
  | zero =>
    cases l <;> simp
  | succ n ih =>
    rw [readRun_succ]
    constructor
    · intro h
      split at h
      · cases h
      · next b hb =>
        obtain ⟨l', hl', rfl⟩ := Option.map_eq_some_iff.1 h
        obtain ⟨hlen, hget⟩ := ih.1 hl'
        refine ⟨by simp [hlen], fun i hi => ?_⟩
        cases i with
        | zero => simpa using hb
        | succ i =>
          have := hget i (by omega)
          simpa [Nat.add_comm, Nat.add_left_comm, Nat.add_assoc] using this
    · rintro ⟨hlen, hget⟩
      cases l with
      | nil => simp at hlen
      | cons b l =>
        have h0 := hget 0 (by omega)
        simp only [Nat.add_zero, List.getElem?_cons_zero] at h0
        rw [h0]
        have : readRun f (a + 1) n = some l := ih.2 ⟨by simpa using hlen, fun i hi => by
          have := hget (i + 1) (by omega)
          simpa [Nat.add_comm, Nat.add_left_comm, Nat.add_assoc] using this⟩
        simp [this]

/-- A run of reads has a value when each of them has. -/
theorem readRun_isSome {f : Nat → Option Byte} {a n : Nat} (h : ∀ i, i < n → (f (a + i)).isSome = true) :
    (readRun f a n).isSome = true := by
  induction n generalizing a with
  | zero => rfl
  | succ n ih =>
    rw [readRun_succ]
    have h0 := h 0 (by omega)
    obtain ⟨b, hb⟩ := Option.isSome_iff_exists.1 h0
    simp only [Nat.add_zero] at hb
    have : (readRun f (a + 1) n).isSome = true := ih fun i hi => by
      have := h (i + 1) (by omega)
      rwa [show a + (i + 1) = a + 1 + i by omega] at this
    rw [hb]
    simpa using this

/-- Below LEN, BUF is the memory. -/
theorem State.buf_of_lt {s : State} {i : Nat} (h : i < s.len) : s.buf i = Memory.read s.mem i := by
  simp [State.buf, h]

/-- At LEN and above, BUF has no value (R21). -/
theorem State.buf_of_ge {s : State} {i : Nat} (h : s.len ≤ i) : s.buf i = none := by
  simp [State.buf, Nat.not_lt.2 h]

end Sys2Proof.Machine
end

