-- ==== Sys2Proof/Laws/Ops.lean ====
section
/-! SUPPORT. What each shared operation can do, said once: the payload read, a field descriptor's read, dispatch,
try_validate and its steps, the fetch and the step. Proofs cite these and do not unfold the operations. -/

namespace Sys2Proof.Machine

theorem State.payRead_cases (s : State) (a n : Nat) :
    (s.plen.toNat < a + n ∧ s.payRead a n = .beyondEnd) ∨
    (a + n ≤ s.plen.toNat ∧ s.bufSlice (Config.hdrLen + a) n = none ∧ s.payRead a n = .noValue) ∨
    (∃ bytes, a + n ≤ s.plen.toNat ∧ s.bufSlice (Config.hdrLen + a) n = some bytes ∧ s.payRead a n = .bytes bytes) := by
  unfold State.payRead
  split
  · next h =>
    split
    · next hs => exact .inr (.inl ⟨h, hs, rfl⟩)
    · next bytes hs => exact .inr (.inr ⟨bytes, h, hs, rfl⟩)
  · next h => exact .inl ⟨by omega, rfl⟩

/-- A read that stays in the payload and whose bytes have a value: CUR and DP advance. -/
theorem State.readField_bytes {s : State} {width : Nat} {use : State → List Byte → State} {bytes : List Byte}
    (hp : s.cur.toNat + width ≤ s.plen.toNat) (hb : s.bufSlice (Config.hdrLen + s.cur.toNat) width = some bytes) :
    s.readField width use = .next ((use { s with cur := s.cur + BitVec.ofNat 8 width } bytes).advance 1) := by
  simp [State.readField, State.payRead, hp, hb]

/-- A read past the payload end raises Overrun (R161). -/
theorem State.readField_overrun {s : State} {width : Nat} {use : State → List Byte → State}
    (hp : s.plen.toNat < s.cur.toNat + width) : s.readField width use = .next (s.raiseOverrun width) := by
  simp [State.readField, State.payRead, Nat.not_le.2 hp]

/-- If a field descriptor's read answers a next state, it raised Overrun or read its bytes. -/
theorem State.readField_next {s t : State} {width : Nat} {use : State → List Byte → State}
    (h : s.readField width use = .next t) :
    (s.plen.toNat < s.cur.toNat + width ∧ t = s.raiseOverrun width) ∨
    ∃ bytes, s.cur.toNat + width ≤ s.plen.toNat ∧ s.bufSlice (Config.hdrLen + s.cur.toNat) width = some bytes ∧
      t = (use { s with cur := s.cur + BitVec.ofNat 8 width } bytes).advance 1 := by
  rcases s.payRead_cases s.cur.toNat width with ⟨hp, hr⟩ | ⟨_, _, hr⟩ | ⟨bytes, hp, hb, hr⟩
  · simp only [State.readField, hr, Host.Outcome.next.injEq] at h
    exact .inl ⟨hp, h.symm⟩
  · simp [State.readField, hr] at h
  · simp only [State.readField, hr, Host.Outcome.next.injEq] at h
    exact .inr ⟨bytes, hp, hb, h.symm⟩

/-- A field descriptor is never refused, and it faults only where a byte of the payload has no value. -/
theorem State.readField_not_refused (s : State) (width : Nat) (use : State → List Byte → State) (r : Refusal) :
    s.readField width use ≠ .refused r := by
  unfold State.readField; split <;> simp

/-- What dispatch answers (R224). -/
theorem State.dispatch_cases (s : State) :
    (scanHeaders s.ctl s.fn true 0 s.rom = .illFormed ∧ s.dispatch = .refused (.illFormedRom .wfGrammar)) ∨
    (∃ a, scanHeaders s.ctl s.fn true 0 s.rom = .absent a ∧
      s.dispatch = .next ((({ s with plen := s.n, dp := BitVec.ofNat 16 a } : State).emit
        (.unknownKey s.params.role s.ctl s.fn)).finish .unknown)) ∨
    (∃ a, scanHeaders s.ctl s.fn true 0 s.rom = .found a ∧
      s.dispatch = .next { s with plen := s.n, dp := BitVec.ofNat 16 a, phase := .decode }) := by
  unfold State.dispatch
  split
  · next h => exact .inl ⟨h, rfl⟩
  · next a h => exact .inr (.inl ⟨a, h, rfl⟩)
  · next a h => exact .inr (.inr ⟨a, h, rfl⟩)

/-- What try_validate answers, in the order of R250. -/
theorem State.tryValidate_cases (s : State) :
    (s.len < 2 ∧ s.tryValidate = .next (s.finish .incomplete)) ∨
    (2 ≤ s.len ∧ (s.buf 0 = none ∨ s.buf 1 = none) ∧ s.tryValidate = .fault .bufferNoValue) ∨
    (s.dead ∧ s.tryValidate = .next (s.finish .malformedStart)) ∨
    (s.wellStarted ∧ s.len < 11 ∧ s.tryValidate = .next (s.finish .incomplete)) ∨
    (s.wellStarted ∧ 11 ≤ s.len ∧ (s.buf 6 = none ∨ s.buf 7 = none ∨ s.buf 8 = none) ∧
      s.tryValidate = .fault .bufferNoValue) ∨
    (∃ c f n, s.wellStarted ∧ 11 ≤ s.len ∧ s.buf 6 = some c ∧ s.buf 7 = some f ∧ s.buf 8 = some n ∧
      s.tryValidate = s.checkLength c f n) := by
  unfold State.tryValidate
  split
  · next h => exact .inl ⟨h, rfl⟩
  · next h =>
    have h2 : 2 ≤ s.len := by omega
    split
    · next b0 b1 h0 h1 =>
      split
      · next hm => exact .inr (.inr (.inl ⟨⟨h2, b0, b1, h0, h1, hm⟩, rfl⟩))
      · next hm =>
        simp only [ne_eq, not_or, not_not] at hm
        have hw : s.wellStarted := ⟨h2, by rw [h0, hm.1], by rw [h1, hm.2]⟩
        split
        · next h11 => exact .inr (.inr (.inr (.inl ⟨hw, h11, rfl⟩)))
        · next h11 =>
          have h11 : 11 ≤ s.len := by simpa [Config.minFrame] using h11
          split
          · next c f n hc hf hn => exact .inr (.inr (.inr (.inr (.inr ⟨c, f, n, hw, h11, hc, hf, hn, rfl⟩))))
          · next hno =>
            refine .inr (.inr (.inr (.inr (.inl ⟨hw, h11, ?_, rfl⟩))))
            rcases h6 : s.buf 6 with _ | c
            · exact .inl rfl
            · rcases h7 : s.buf 7 with _ | f
              · exact .inr (.inl rfl)
              · rcases h8 : s.buf 8 with _ | n
                · exact .inr (.inr rfl)
                · exact (hno c f n h6 h7 h8).elim
    · next hno =>
      refine .inr (.inl ⟨h2, ?_, rfl⟩)
      rcases h0 : s.buf 0 with _ | b0
      · exact .inl rfl
      · rcases h1 : s.buf 1 with _ | b1
        · exact .inr rfl
        · exact (hno b0 b1 h0 h1).elim

/-- What the later steps of try_validate answer (R144 to R148). -/
theorem State.checkLength_cases (s : State) (c f n : Byte) :
    (s.len < 11 + n.toNat ∧
      s.checkLength c f n = .next (({ s with ctl := c, fn := f, n := n } : State).finish .incomplete)) ∨
    (11 + n.toNat ≤ s.len ∧ s.buffer = none ∧ s.checkLength c f n = .fault .bufferNoValue) ∨
    (∃ raw, 11 + n.toNat ≤ s.len ∧ s.buffer = some raw ∧
      s.checkLength c f n = ({ s with ctl := c, fn := f, n := n } : State).checkFrame raw) := by
  unfold State.checkLength
  have h911 : Config.hdrLen + n.toNat + Config.ckLen = 11 + n.toNat := by simp [Config.hdrLen, Config.ckLen]; omega
  simp only [h911]
  split
  · next h => exact .inl ⟨h, rfl⟩
  · next h =>
    have h : 11 + n.toNat ≤ s.len := by omega
    split
    · next hs => exact .inr (.inl ⟨h, hs, rfl⟩)
    · next raw hs => exact .inr (.inr ⟨raw, h, hs, rfl⟩)

/-- A state at rest with nothing to do waits (R271). -/
theorem State.fetch_wait {s : State} (hp : s.phase = .rest) (hs : s.stat = none) (hi : s.inputs = []) :
    s.fetch = .wait := by
  simp [State.fetch, hp, hs, hi]

theorem State.fetch_statusRead {s : State} {n : BitVec 3} (hp : s.phase = .rest) (hs : s.stat = some n) :
    s.fetch = .run (.regrd n) { s with stat := none } := by
  simp [State.fetch, hp, hs]

theorem State.fetch_command {s : State} {t : Tick} {ts : List Tick} (hp : s.phase = .rest) (hs : s.stat = none)
    (hi : s.inputs = t :: ts) :
    s.fetch = .run (decodeCommand t.cmd) { s with inputs := ts, now := t.now, stat := t.stat } := by
  simp [State.fetch, hp, hs, hi]

theorem State.fetch_descriptor {s : State} {w : Word} {i : Instr} (hp : s.phase = .decode)
    (hw : s.rom[s.dp.toNat]? = some w) (hi : decodeDescriptor w = .ok i) : s.fetch = .run i s := by
  simp [State.fetch, hp, hw, hi]

/-- With parameters an instance may have, a step is what the fetch says. -/
theorem step_run {s s' : State} {i : Instr} (hok : paramsOk s.params) (hf : s.fetch = .run i s') : step s = exec i s' := by
  unfold step; rw [show paramsDefect s.params = none from hok]; simp [hf]

/-- Everything a step that answers a next state can have done. -/
theorem step_next {s t : State} (h : step s = .next t) :
    paramsOk s.params ∧
      ((s.phase = .rest ∧ s.stat = none ∧ s.inputs = [] ∧ t = s) ∨
       (∃ n, s.phase = .rest ∧ s.stat = some n ∧ exec (.regrd n) { s with stat := none } = .next t) ∨
       (∃ k ks, s.phase = .rest ∧ s.stat = none ∧ s.inputs = k :: ks ∧
          exec (decodeCommand k.cmd) { s with inputs := ks, now := k.now, stat := k.stat } = .next t) ∨
       (∃ w i, s.phase = .decode ∧ s.rom[s.dp.toNat]? = some w ∧ decodeDescriptor w = .ok i ∧ exec i s = .next t)) := by
  unfold step at h
  split at h
  · cases h
  · next hok =>
    refine ⟨hok, ?_⟩
    unfold State.fetch at h
    rcases hp : s.phase with _ | _
    · rcases hs : s.stat with _ | n
      · rcases hi : s.inputs with _ | ⟨k, ks⟩
        · simp only [hp, hs, hi, Host.Outcome.next.injEq] at h
          exact .inl ⟨rfl, rfl, rfl, h.symm⟩
        · simp only [hp, hs, hi] at h
          exact .inr (.inr (.inl ⟨k, ks, rfl, rfl, rfl, h⟩))
      · simp only [hp, hs] at h
        exact .inr (.inl ⟨n, rfl, rfl, h⟩)
    · rcases hw : s.rom[s.dp.toNat]? with _ | w
      · simp [hp, hw] at h
      · rcases hi : decodeDescriptor w with e | i
        · simp [hp, hw, hi] at h
        · simp only [hp, hw, hi] at h
          exact .inr (.inr (.inr ⟨w, i, rfl, rfl, hi, h⟩))

/-- LEN reads as the count of bytes where its 16 bits hold it, as under any BUF_CAP below 65536. -/
theorem State.lenRegister_of_lt {s : State} (h : s.len < 65536) : s.lenRegister = s.len := by
  simp [State.lenRegister, h]

/-- LEN always reads as 16 bits. -/
theorem State.lenRegister_lt (s : State) : s.lenRegister < 65536 := by
  unfold State.lenRegister; split <;> omega

/-- The port command word decodes to a port command. -/
theorem decodeCommand_cases (c : Cmd) :
    decodeCommand c = .reset ∨ decodeCommand c = .idle ∨ ∃ b, decodeCommand c = .feed b := by
  unfold decodeCommand
  split
  · exact .inl rfl
  · split
    · exact .inr (.inr ⟨_, rfl⟩)
    · exact .inr (.inl rfl)

end Sys2Proof.Machine
end

