-- ==== Sys2Proof/Laws/PerInstr.lean ====
section
/-! SUPPORT. The per-instruction family EncodedForm: each instruction is encoded on the port its row of the opcode table
belongs to, and a descriptor in the class of its format (R85, R86, R90). -/

namespace Sys2Proof.Laws.EncodedForm

/-- The format of a row (R85, R86, R90): PORT, STAT, or the class of a descriptor word. -/
inductive Form where
  | port
  | stat
  | descriptor (cls : BitVec 4)
  deriving DecidableEq, Repr

/-- The format the opcode table gives each instruction. -/
def formOf : Instr → Form
  | .reset => .port
  | .idle => .port
  | .feed _ => .port
  | .regrd _ => .stat
  | .rtn _ _ _ _ => .descriptor 0x1#4
  | .nodata _ _ => .descriptor 0x1#4
  | .lgcy _ => .descriptor 0x2#4
  | .u8 _ _ => .descriptor 0x3#4
  | .u16 _ _ => .descriptor 0x3#4
  | .u24 _ _ => .descriptor 0x3#4
  | .u32 _ _ => .descriptor 0x3#4
  | .s8 _ _ => .descriptor 0x3#4
  | .s16 _ _ => .descriptor 0x3#4
  | .s24 _ _ => .descriptor 0x3#4
  | .s32 _ _ => .descriptor 0x3#4
  | .skip _ => .descriptor 0x4#4
  | .text _ _ _ => .descriptor 0x4#4
  | .bits _ _ => .descriptor 0x4#4
  | .end_ => .descriptor 0xF#4

/-- The form of an encoded instruction. -/
def formOfEncoded : Encoded → Form
  | .port _ => .port
  | .stat _ => .stat
  | .word w => .descriptor (bitField w 28 4)

/-- The instruction is encoded in the format of its row. -/
def Statement (i : Instr) : Prop := formOfEncoded (encode i) = formOf i

theorem reset : Statement .reset := rfl
theorem idle : Statement .idle := rfl
theorem feed (b : Byte) : Statement (.feed b) := rfl
theorem regrd (n : BitVec 3) : Statement (.regrd n) := rfl

theorem rtn (lg : Bool) (ctl fn explen : Byte) : Statement (.rtn lg ctl fn explen) :=
  congrArg Form.descriptor (headerWord_class _ _ _ _ _)

theorem nodata (ctl fn : Byte) : Statement (.nodata ctl fn) := congrArg Form.descriptor (headerWord_class _ _ _ _ _)
theorem lgcy (fid : Fid) : Statement (.lgcy fid) := congrArg Form.descriptor (legacyWord_class _)
theorem u8 (conv : Conv) (fid : Fid) : Statement (.u8 conv fid) := congrArg Form.descriptor (integerWord_class _ _ _ _)
theorem u16 (conv : Conv) (fid : Fid) : Statement (.u16 conv fid) := congrArg Form.descriptor (integerWord_class _ _ _ _)
theorem u24 (conv : Conv) (fid : Fid) : Statement (.u24 conv fid) := congrArg Form.descriptor (integerWord_class _ _ _ _)
theorem u32 (conv : Conv) (fid : Fid) : Statement (.u32 conv fid) := congrArg Form.descriptor (integerWord_class _ _ _ _)
theorem s8 (k : BitVec 2) (fid : Fid) : Statement (.s8 k fid) := congrArg Form.descriptor (integerWord_class _ _ _ _)
theorem s16 (k : BitVec 2) (fid : Fid) : Statement (.s16 k fid) := congrArg Form.descriptor (integerWord_class _ _ _ _)
theorem s24 (k : BitVec 2) (fid : Fid) : Statement (.s24 k fid) := congrArg Form.descriptor (integerWord_class _ _ _ _)
theorem s32 (k : BitVec 2) (fid : Fid) : Statement (.s32 k fid) := congrArg Form.descriptor (integerWord_class _ _ _ _)
theorem skip (n : Byte) : Statement (.skip n) := congrArg Form.descriptor (sliceWord_class _ _ _ _)

theorem text (supp : Bool) (n : Byte) (fid : Fid) : Statement (.text supp n fid) :=
  congrArg Form.descriptor (sliceWord_class _ _ _ _)

theorem bits (n : Byte) (fid : Fid) : Statement (.bits n fid) := congrArg Form.descriptor (sliceWord_class _ _ _ _)
theorem end_ : Statement .end_ := congrArg Form.descriptor (by decide : bitField endWord 28 4 = 0xF#4)

end Sys2Proof.Laws.EncodedForm
end

