-- ==== Sys2Proof/Laws/Rom.lean ====
section
/-! SUPPORT. Laws of the ROM: its words one by one, and that every suffix of a ROM that parses parses, with the routines of
the whole. -/

namespace Sys2Proof.Machine

theorem decodeRom_cons {w : Word} {ws : List Word} {is : List Instr} :
    decodeRom (w :: ws) = some is ↔ ∃ i rest, decodeDescriptor w = .ok i ∧ decodeRom ws = some rest ∧ is = i :: rest := by
  rw [decodeRom]
  rcases h : decodeDescriptor w with e | i
  · simp
  · simp only [Option.map_eq_some_iff, Except.ok.injEq]
    constructor
    · rintro ⟨rest, hr, rfl⟩; exact ⟨i, rest, rfl, hr, rfl⟩
    · rintro ⟨j, rest, rfl, hr, rfl⟩; exact ⟨rest, hr, rfl⟩

theorem decodeRom_length {ws : List Word} {is : List Instr} (h : decodeRom ws = some is) : is.length = ws.length := by
  induction ws generalizing is with
  | nil => simp [decodeRom] at h; simp [← h]
  | cons w ws ih =>
    obtain ⟨i, rest, _, hr, rfl⟩ := decodeRom_cons.1 h
    simp [ih hr]

/-- The word at an address decodes to the instruction at that place. -/
theorem decodeRom_get {ws : List Word} {is : List Instr} (h : decodeRom ws = some is) (a : Nat) {i : Instr}
    (hi : is[a]? = some i) : ∃ w, ws[a]? = some w ∧ decodeDescriptor w = .ok i := by
  induction ws generalizing is a with
  | nil => simp only [decodeRom, Option.some.injEq] at h; subst h; simp at hi
  | cons w ws ih =>
    obtain ⟨j, rest, hj, hr, rfl⟩ := decodeRom_cons.1 h
    cases a with
    | zero => simp only [List.getElem?_cons_zero, Option.some.injEq] at hi; exact ⟨w, by simp, hi ▸ hj⟩
    | succ a => simpa using ih hr a (by simpa using hi)

/-- The routines a parse lists. -/
def suffixRoutines : Suffix → List Routine
  | .atHeader rs => rs
  | .inFields _ rs => rs
  | .atLegacy _ _ rs => rs

/-- One step of the parse: what a suffix is, from its first instruction and the rest. -/
theorem parseFrom_cons {a : Nat} {i : Instr} {is : List Instr} {p : Suffix} (h : parseFrom a (i :: is) = some p) :
    ∃ q, parseFrom (a + 1) is = some q ∧
      ((i = .end_ ∧ ∃ rs, q = .atHeader rs ∧ p = .inFields [] rs) ∨
       (∃ fid fs rs, i = .lgcy fid ∧ q = .inFields fs rs ∧ p = .atLegacy fid fs rs) ∨
       (∃ c f e fs rs, i = .rtn false c f e ∧ q = .inFields fs rs ∧
          p = .atHeader (⟨c, f, .decode, e, none, fs, a⟩ :: rs)) ∨
       (∃ c f e fid fs rs, i = .rtn true c f e ∧ q = .atLegacy fid fs rs ∧
          p = .atHeader (⟨c, f, .decode, e, some fid, fs, a⟩ :: rs)) ∨
       (∃ c f rs, i = .nodata c f ∧ q = .inFields [] rs ∧
          p = .atHeader (⟨c, f, .noData, 0#8, none, [], a⟩ :: rs)) ∨
       (∃ fs rs, i.isField = true ∧ q = .inFields fs rs ∧ p = .inFields (i :: fs) rs)) := by
  rw [parseFrom] at h
  split at h
  · cases h
  · next q hq =>
    refine ⟨q, hq, ?_⟩
    unfold parseStep at h
    cases q with
    | atHeader rs =>
      cases i <;> simp at h
      simp [← h]
    | atLegacy fid fs rs =>
      cases i with
      | rtn lg c f e =>
        cases lg <;> simp at h
        simp [← h]
      | _ => simp at h
    | inFields fs rs =>
      cases i with
      | rtn lg c f e =>
        cases lg <;> simp [Instr.isField] at h
        simp [← h]
      | nodata c f => simp at h; obtain ⟨rfl, h⟩ := h; simp [← h]
      | _ => simp [Instr.isField] at h <;> simp [← h, Instr.isField]

/-- Every suffix of a parse parses, and its routines are routines of the whole. -/
theorem parseFrom_drop {a : Nat} {is : List Instr} {p : Suffix} (h : parseFrom a is = some p) (k : Nat) :
    ∃ q, parseFrom (a + k) (is.drop k) = some q ∧ ∀ r ∈ suffixRoutines q, k ≤ is.length → r ∈ suffixRoutines p := by
  induction k generalizing a is p with
  | zero => exact ⟨p, by simpa using h, fun r hr _ => hr⟩
  | succ k ih =>
    cases is with
    | nil => exact ⟨.atHeader [], by simp [parseFrom], fun r hr => by simp [suffixRoutines] at hr⟩
    | cons i is =>
      obtain ⟨q, hq, hcases⟩ := parseFrom_cons h
      obtain ⟨q', hq', hsub⟩ := ih hq
      refine ⟨q', by rw [show a + (k + 1) = a + 1 + k by omega]; simpa using hq', fun r hr hk => ?_⟩
      have hr' := hsub r hr (by simpa using hk)
      rcases hcases with ⟨_, rs, rfl, rfl⟩ | ⟨_, _, _, _, rfl, rfl⟩ | ⟨_, _, _, _, _, _, rfl, rfl⟩ |
        ⟨_, _, _, _, _, _, _, rfl, rfl⟩ | ⟨_, _, _, _, rfl, rfl⟩ | ⟨_, _, _, rfl, rfl⟩ <;>
        simp_all [suffixRoutines]

/-- What a ROM without a defect is. -/
theorem romDefect_none {rom : List Word} (h : romDefect rom = none) :
    rom.length ≤ 65536 ∧ ∃ is rs, decodeRom rom = some is ∧ routines is = some rs ∧ wfSum rs = true ∧
      wfKeys rs = true := by
  unfold romDefect at h
  split at h
  · next hl =>
    refine ⟨hl, ?_⟩
    split at h
    · cases h
    · next is his =>
      split at h
      · cases h
      · next rs hrs =>
        split at h
        · next hs =>
          split at h
          · next hk => exact ⟨is, rs, his, hrs, hs, hk⟩
          · cases h
        · cases h
  · cases h

/-- What parameters an instance may have are. -/
theorem paramsOk_iff (p : Params) :
    paramsOk p ↔ 266 ≤ p.bufCap ∧ p.timeout < 2 ^ p.tsW ∧ romDefect (roleRom p) = none := by
  unfold paramsOk paramsDefect
  simp only [Config.maxFrame]
  by_cases h1 : p.bufCap < 266
  · simp only [h1, if_true]; simp; omega
  · by_cases h2 : 2 ^ p.tsW ≤ p.timeout
    · simp only [h1, h2, if_true, if_false]; simp; omega
    · simp only [h1, h2, if_false, Option.map_eq_none_iff]
      exact ⟨fun h => ⟨by omega, by omega, h⟩, fun h => h.2.2⟩

theorem routines_eq_some {is : List Instr} {rs : List Routine} :
    routines is = some rs ↔ parseFrom 0 is = some (.atHeader rs) := by
  unfold routines
  split
  · next rs' h => simp [h]
  · next h =>
    constructor
    · simp
    · intro h'; exact absurd h' (h rs)

end Sys2Proof.Machine
end

