-- ==== Sys2Proof/Tests/Slice0.lean ====
section
/-! SUPPORT. The model's own tests: ill-formed terms, hand-written words of the spec (R98, R107, E1 to E5 of
95_test_vectors.md), one small step per instruction with the spec's own expected values, and one witness for the hypotheses
of each statement of Sys2Proof/Certificates/Slice0/Obligations.lean. Expected values are the spec's vectors. -/

namespace Sys2Proof.Tests

set_option Elab.async false

open Sys2Proof.Machine

/-- The next state of an answer. -/
def nextOf (o : Outcome) : Option State :=
  match o with
  | .next t => some t
  | .fault _ => none
  | .refused _ => none

theorem eq_next_of_nextOf {o : Outcome} {t : State} (h : nextOf o = some t) : o = .next t := by
  cases o with
  | next u => exact congrArg _ (Option.some.inj h)
  | fault r => cases h
  | refused r => cases h

/-- The states of the tests: a ROM, the bytes of the buffer, the last timestamp and the port `now`. -/
def holding (rom : List Word) (bytes : List Byte) (last now : Nat) : State :=
  { State.reset with
    params := { Params.default with rom0 := rom }
    mem := cellsFrom 0 bytes
    len := bytes.length
    lastTs := last
    now := now }

/-- Inside a FEED: a frame with these payload bytes and zero addresses is being decoded at DP, nothing read yet. -/
def reading (rom : List Word) (payload : List Byte) (dp : Half) : State :=
  { holding rom ([0x3A#8, 0x3A#8, 0#8, 0#8, 0#8, 0#8, 0#8, 0#8, BitVec.ofNat 8 payload.length] ++ payload ++ [0#8, 0#8]) 0 0 with
    n := BitVec.ofNat 8 payload.length
    plen := BitVec.ofNat 8 payload.length
    dp := dp
    phase := .decode }

/-- What a descriptor pends over a payload it reads whole, with the cursor and DP it leaves. -/
def pended (i : Instr) (payload : List Byte) : Option (List Event × Byte × Half) :=
  (nextOf (exec i (reading [] payload 1#16))).map (fun t => (t.pend, t.cur, t.dp))

/-- A read of one number with field identifier `fid`. -/
def oneNumber (fid : Fid) (m : Int) (k : BitVec 2) (width : Byte) : Option (List Event × Byte × Half) :=
  some ([.publish fid (.num m k)], width, 2#16)

/-- A read of one string with field identifier `fid`. -/
def oneString (fid : Fid) (s : List Char) (width : Byte) : Option (List Event × Byte × Half) :=
  some ([.publish fid (.str (s.map (fun c => BitVec.ofNat 8 c.toNat)))], width, 2#16)

/-! ### Ill-formed terms (R94, R98) -/

theorem test_skip_of_no_byte_refused : (Instr.skip 0#8).wf = false := by decide
theorem test_text_of_no_byte_refused : (Instr.text true 0#8 0x014#12).wf = false := by decide
theorem test_bits_of_no_byte_refused : (Instr.bits 0#8 0x015#12).wf = false := by decide

theorem test_slices_of_some_byte_accepted :
    (Instr.skip 1#8).wf = true ∧ (Instr.text false 255#8 0#12).wf = true ∧ (Instr.bits 255#8 0xFFF#12).wf = true := by decide

/-! ### Words to instructions (R107, E1 to E3, the words of F1 to F32) -/

theorem test_decode_port :
    decode (.port 0x000#10) = .ok .idle ∧ decode (.port 0x0FF#10) = .ok .idle ∧
    decode (.port 0x100#10) = .ok (.feed 0x00#8) ∧ decode (.port 0x13A#10) = .ok (.feed 0x3A#8) ∧
    decode (.port 0x1FF#10) = .ok (.feed 0xFF#8) ∧ decode (.port 0x200#10) = .ok .reset ∧
    decode (.port 0x2AA#10) = .ok .reset ∧ decode (.port 0x33A#10) = .ok .reset := ⟨rfl, rfl, rfl, rfl, rfl, rfl, rfl, rfl⟩

theorem test_decode_regrd : decode (.stat 4#3) = .ok (.regrd 4#3) := rfl
theorem test_decode_rtn : decode (.word 0x1011906A#32) = .ok (.rtn false 0x11#8 0x90#8 106#8) := rfl
theorem test_decode_rtn_legacy : decode (.word 0x12118304#32) = .ok (.rtn true 0x11#8 0x83#8 4#8) := rfl
theorem test_decode_nodata : decode (.word 0x14100400#32) = .ok (.nodata 0x10#8 0x04#8) := rfl
theorem test_decode_lgcy : decode (.word 0x200000AC#32) = .ok (.lgcy 0x0AC#12) := rfl
theorem test_decode_u8 : decode (.word 0x30800012#32) = .ok (.u8 .rs 0x012#12) := rfl
theorem test_decode_u16 : decode (.word 0x32400011#32) = .ok (.u16 (.num 2#2) 0x011#12) := rfl
theorem test_decode_u24 : decode (.word 0x34600016#32) = .ok (.u24 (.num 3#2) 0x016#12) := rfl
theorem test_decode_u32 : decode (.word 0x37000013#32) = .ok (.u32 .fw 0x013#12) := rfl
theorem test_decode_s8 : decode (.word 0x38200003#32) = .ok (.s8 1#2 0x003#12) := rfl
theorem test_decode_s16 : decode (.word 0x3A200001#32) = .ok (.s16 1#2 0x001#12) := rfl
theorem test_decode_s24 : decode (.word 0x3C000004#32) = .ok (.s24 0#2 0x004#12) := rfl
theorem test_decode_s32 : decode (.word 0x3E600006#32) = .ok (.s32 3#2 0x006#12) := rfl
theorem test_decode_skip : decode (.word 0x40680000#32) = .ok (.skip 104#8) := rfl
theorem test_decode_text : decode (.word 0x46080014#32) = .ok (.text true 8#8 0x014#12) := rfl
theorem test_decode_bits : decode (.word 0x48040015#32) = .ok (.bits 4#8 0x015#12) := rfl
theorem test_decode_end : decode (.word 0xF0000000#32) = .ok .end_ := rfl

/-- The illegal words of E4, class and formats H and L. -/
theorem test_illegal_classes :
    decodeDescriptor 0x00000000#32 = .error .noClass ∧ decodeDescriptor 0xFFFFFFFF#32 = .error .badEnd ∧
    decodeDescriptor 0xF0000001#32 = .error .badEnd ∧ decodeDescriptor 0x50000000#32 = .error .noClass ∧
    decodeDescriptor 0x18112200#32 = .error .badKind ∧ decodeDescriptor 0x11112200#32 = .error .reservedBit ∧
    decodeDescriptor 0x14100401#32 = .error .nodataLength ∧ decodeDescriptor 0x16100400#32 = .error .nodataLegacy ∧
    decodeDescriptor 0x20001000#32 = .error .reservedBit := ⟨rfl, rfl, rfl, rfl, rfl, rfl, rfl, rfl, rfl⟩

/-- The illegal words of E4, formats I and S. -/
theorem test_illegal_fields :
    decodeDescriptor 0x31800005#32 = .error .badConv ∧ decodeDescriptor 0x30A00005#32 = .error .divselWithoutNum ∧
    decodeDescriptor 0x38800005#32 = .error .signedConversion ∧ decodeDescriptor 0x3F000005#32 = .error .signedConversion ∧
    decodeDescriptor 0x30001005#32 = .error .reservedBit ∧ decodeDescriptor 0x4C010005#32 = .error .badRender ∧
    decodeDescriptor 0x42010000#32 = .error .suppressWithoutText ∧
    decodeDescriptor 0x4A010005#32 = .error .suppressWithoutText ∧ decodeDescriptor 0x40000000#32 = .error .zeroLength ∧
    decodeDescriptor 0x44000014#32 = .error .zeroLength ∧ decodeDescriptor 0x40010001#32 = .error .skipFid ∧
    decodeDescriptor 0x45010014#32 = .error .reservedBit := ⟨rfl, rfl, rfl, rfl, rfl, rfl, rfl, rfl, rfl, rfl, rfl, rfl⟩

/-- The ill-formed ROMs of E5. -/
theorem test_romDefect :
    romDefect [0x32000001#32, 0xF0000000#32] = some .wfGrammar ∧
    romDefect [0x1020A102#32, 0x32000021#32] = some .wfGrammar ∧
    romDefect [0x12118304#32, 0x320000AC#32, 0x320000AD#32, 0xF0000000#32] = some .wfGrammar ∧
    romDefect [0x1020A102#32, 0x200000AC#32, 0x32000021#32, 0xF0000000#32] = some .wfGrammar ∧
    romDefect [0x14100400#32, 0x30000001#32, 0xF0000000#32] = some .wfGrammar ∧
    romDefect [0x1020A103#32, 0x32000021#32, 0xF0000000#32] = some .wfSum ∧
    romDefect [0x1020A102#32, 0x32000021#32, 0xF0000000#32, 0x1020A101#32, 0x30000022#32, 0xF0000000#32] = some .wfKeys ∧
    romDefect [] = none ∧ romDefect [0x10100500#32, 0xF0000000#32] = none := by decide +kernel

/-- The rows of the opcode table through `withFetchWord`: the step after it runs the word (a port command, a status read, a
descriptor). -/
theorem test_withFetchWord :
    (nextOf (step (State.reset.withFetchWord 10 0x13A))).map (fun t => (t.len, t.buf 0)) = some (1, some 0x3A#8) ∧
    (nextOf (step (State.reset.withFetchWord 3 3))).map (·.data) = some (some 50) ∧
    (nextOf (step (State.reset.withFetchWord 32 0x3A200001))).map (fun t => (t.cur, t.pend)) =
      some (2#8, [.publish 0x001#12 (.num 0 1#2)]) ∧
    decodeTableWord 32 0x3A200001 = some (.s16 1#2 0x001#12) ∧ decodeTableWord 32 0x40000000 = none := by decide +kernel

/-- The parameters of R9: BUF_CAP from 266 on with no bound above, TIMEOUT below 2^TS_W. -/
theorem test_paramsDefect :
    paramsDefect { Params.default with bufCap := 265 } = some .bufCapTooSmall ∧ paramsDefect Params.default = none ∧
    paramsDefect { Params.default with bufCap := 70000 } = none ∧
    paramsDefect { Params.default with timeout := 2 ^ 32 } = some .timeoutTooWide ∧
    paramsDefect { Params.default with timeout := 2 ^ 32 - 1 } = none := by decide +kernel

/-- The append where LEN counts more than 16 bits hold (R22, R125): LEN goes on counting. -/
theorem test_append_wide :
    let s : State := { State.reset with len := 65535, params := { Params.default with bufCap := 65536 } }
    (s.append 7#8).len = 65536 ∧ Memory.read (s.append 7#8).mem 65535 = some 7#8 ∧ ((s.append 7#8).append 8#8).len = 65536 := by
  decide +kernel

/-! ### The port commands (A1 to A6, V7, V8) -/

/-- A1. -/
theorem test_reset : (nextOf (exec .reset { holding [] [1#8, 2#8, 3#8, 4#8, 5#8] 777 0 with res := 0x1#4 })).map
    (fun t => (t.len, t.lastTs, t.res, t.ready, t.events)) = some (0, 0, 0x0#4, false, []) := by decide +kernel

/-- A2. -/
theorem test_idle : (nextOf (exec .idle (holding [] [0x3A#8, 0x3A#8, 0#8] 100 1000000))).map
    (fun t => (t.len, t.lastTs, t.res, t.ready)) = some (3, 100, 0x0#4, false) := by decide +kernel

/-- A3: the code of the last FEED stays, ready does not. -/
theorem test_idle_after_frame : (nextOf (exec .idle { State.reset with res := 0x8#4, ready := true })).map
    (fun t => (t.res, t.ready)) = some (0x8#4, false) := by decide +kernel

/-- A4: the registers after the first byte. -/
theorem test_regrd : (nextOf (exec (.feed 0x3A#8) State.reset)).map (fun t =>
    [t.reg 0#3, t.reg 1#3, t.reg 2#3, t.reg 3#3, t.reg 4#3, t.reg 5#3, t.reg 6#3, t.reg 7#3]) =
    some [1, 0, 0, 50, 0, 0, 0, 0] := by decide +kernel

/-- A5, A6: the boundary of the timeout, the wrap of the timestamp, a clock that steps back. -/
theorem test_feed_timeout :
    (nextOf (exec (.feed 0x3A#8) (holding [] [0x3A#8] 100 150))).map (·.len) = some 2 ∧
    (nextOf (exec (.feed 0x3A#8) (holding [] [0x3A#8] 100 151))).map (·.len) = some 1 ∧
    (nextOf (exec (.feed 0x3A#8) (holding [] [0x3A#8] 0xFFFFFFF0 0x10))).map (fun t => (t.len, t.lastTs)) =
      some (2, 0x10) ∧
    (nextOf (exec (.feed 0x3A#8) (holding [] [0x3A#8] 0xFFFFFFF0 0x23))).map (·.len) = some 1 ∧
    (nextOf (exec (.feed 0x3A#8) (holding [] [0x3A#8] 100 99))).map (fun t => (t.len, t.lastTs)) = some (1, 99) := by
  decide +kernel

/-- V7, V8: the checksum of the frame and of its last two bytes swapped. -/
theorem test_feed_checksum :
    (nextOf (exec (.feed 0x16#8) (holding [] [0x3A#8, 0x3A#8, 0#8, 0#8, 0#8, 0#8, 0x11#8, 0x83#8, 4#8, 0#8, 2#8, 0#8, 7#8, 1#8]
      0 0))).map (fun t => (t.res, t.ready, t.len, t.events)) =
      some (0xA#4, true, 0, [.checksumMismatch 0x0115#16 0x0116#16
        [0x3A#8, 0x3A#8, 0#8, 0#8, 0#8, 0#8, 0x11#8, 0x83#8, 4#8, 0#8, 2#8, 0#8, 7#8, 1#8, 0x16#8]]) ∧
    (nextOf (exec (.feed 0x01#8) (holding [] [0x3A#8, 0x3A#8, 0#8, 0#8, 0#8, 0#8, 0x20#8, 0xA1#8, 2#8, 1#8, 2#8, 0x3A#8]
      0 0))).map (fun t => (t.res, t.sum, t.rcv)) = some (0xA#4, 0x013A#16, 0x3A01#16) := by decide +kernel

/-! ### The words that frame a routine (S9, P1, P3, M5, R196) -/

/-- R191: PLEN 106 against EXPLEN 106, and one less. -/
theorem test_rtn :
    (nextOf (exec (.rtn false 0x11#8 0x90#8 106#8) { State.reset with plen := 106#8, cur := 9#8 })).map
      (fun t => (t.cur, t.dp, t.events)) = some (0#8, 1#16, []) ∧
    (nextOf (exec (.rtn false 0x11#8 0x90#8 106#8) { State.reset with plen := 105#8, len := 116 })).map
      (fun t => (t.res, t.ready, t.len, t.events)) = some (0xB#4, true, 0, [.sizeMismatch 106#8 105#8]) := by
  decide +kernel

/-- R193, P3 step 5: PLEN 5 against EXPLEN 4; on a match the LGCY word is stepped over. -/
theorem test_rtn_lgcy :
    (nextOf (settleOutcome 1 (exec (.rtn true 0x11#8 0x83#8 4#8)
      { reading [0x12118304#32, 0x200000AC#32, 0x320000AC#32, 0x320000AD#32, 0xF0000000#32] [0#8, 3#8, 0#8, 7#8, 9#8] 0#16
        with cur := 0#8 }))).map (fun t => (t.res, t.len, t.events)) =
      some (0xB#4, 0, [.sizeMismatch 4#8 5#8, .publish 0x0AC#12 (.num 5 0#2)]) ∧
    (nextOf (exec (.rtn true 0x11#8 0x83#8 4#8) { State.reset with plen := 4#8 })).map (fun t => (t.dp, t.events)) =
      some (2#16, []) := by decide +kernel

/-- M5: no size check. -/
theorem test_nodata : (nextOf (exec (.nodata 0x10#8 0x04#8) { State.reset with plen := 3#8, len := 14 })).map
    (fun t => (t.res, t.ready, t.len, t.events)) = some (0x9#4, true, 0, []) := by decide +kernel

/-- R196. -/
theorem test_end : (nextOf (exec .end_ { State.reset with len := 13, pend := [.publish 1#12 (.num 250 1#2)] })).map
    (fun t => (t.res, t.ready, t.len, t.events, t.pend)) =
    some (0x8#4, true, 0, [.publish 1#12 (.num 250 1#2)], []) := by decide +kernel

/-! ### The field descriptors (F1 to F32, S2, S4, S6, X1) -/

theorem test_u8 : pended (.u8 (.num 0#2) 0x005#12) [0x00#8] = oneNumber 0x005#12 0 0#2 1#8 ∧
    pended (.u8 (.num 0#2) 0x005#12) [0xFF#8] = oneNumber 0x005#12 255 0#2 1#8 := by decide +kernel

theorem test_u8_runState : pended (.u8 .rs 0x012#12) [0x01#8] = oneString 0x012#12 ['O', 'n', 'l', 'i', 'n', 'e'] 1#8 ∧
    pended (.u8 .rs 0x012#12) [0xFF#8] = oneString 0x012#12 ['2', '5', '5'] 1#8 := by decide +kernel

theorem test_u16 : pended (.u16 (.num 1#2) 0x001#12) [0x00#8, 0xFA#8] = oneNumber 0x001#12 250 1#2 2#8 ∧
    pended (.u16 (.num 0#2) 0x001#12) [0x01#8, 0x00#8] = oneNumber 0x001#12 256 0#2 2#8 ∧
    pended (.u16 (.num 0#2) 0x001#12) [0xFF#8, 0xFF#8] = oneNumber 0x001#12 65535 0#2 2#8 := by decide +kernel

theorem test_u16_runState : pended (.u16 .rs 0x012#12) [0xFF#8, 0xFF#8] =
    oneString 0x012#12 ['6', '5', '5', '3', '5'] 2#8 := by decide +kernel

theorem test_u24 : pended (.u24 (.num 3#2) 0x016#12) [0x01#8, 0xE2#8, 0x40#8] = oneNumber 0x016#12 123456 3#2 3#8 ∧
    pended (.u24 (.num 0#2) 0x016#12) [0x80#8, 0x00#8, 0x00#8] = oneNumber 0x016#12 8388608 0#2 3#8 := by decide +kernel

theorem test_u32 : pended (.u32 (.num 0#2) 0x002#12) [0x00#8, 0xBC#8, 0x61#8, 0x4E#8] = oneNumber 0x002#12 12345678 0#2 4#8 ∧
    pended (.u32 (.num 0#2) 0x002#12) [0xFF#8, 0xFF#8, 0xFF#8, 0xFF#8] = oneNumber 0x002#12 4294967295 0#2 4#8 := by
  decide +kernel

theorem test_u32_firmware : pended (.u32 .fw 0x013#12) [0x00#8, 0xBC#8, 0x61#8, 0x4E#8] =
      oneString 0x013#12 ['V', '1', '2', '.', '3', '4', 'B', 'u', 'i', 'l', 'd', '5', '6', '7', '8'] 4#8 ∧
    pended (.u32 .fw 0x013#12) [0xFF#8, 0xFF#8, 0xFF#8, 0xFF#8] =
      oneString 0x013#12 ['V', '4', '2', '9', '4', '.', '9', '6', 'B', 'u', 'i', 'l', 'd', '7', '2', '9', '5'] 4#8 ∧
    pended (.u32 .fw 0x013#12) [0x00#8, 0x00#8, 0x27#8, 0x10#8] =
      oneString 0x013#12 ['V', '0', '.', '0', '1', 'B', 'u', 'i', 'l', 'd', '0'] 4#8 := by decide +kernel

theorem test_s8 : pended (.s8 0#2 0x005#12) [0xFF#8] = oneNumber 0x005#12 (-1) 0#2 1#8 ∧
    pended (.s8 0#2 0x005#12) [0x80#8] = oneNumber 0x005#12 (-128) 0#2 1#8 ∧
    pended (.s8 1#2 0x003#12) [0xF6#8] = oneNumber 0x003#12 (-10) 1#2 1#8 := by decide +kernel

theorem test_s16 : pended (.s16 0#2 0x001#12) [0x80#8, 0x00#8] = oneNumber 0x001#12 (-32768) 0#2 2#8 ∧
    pended (.s16 0#2 0x001#12) [0x7F#8, 0xFF#8] = oneNumber 0x001#12 32767 0#2 2#8 ∧
    pended (.s16 1#2 0x010#12) [0xFF#8, 0xCE#8] = oneNumber 0x010#12 (-50) 1#2 2#8 := by decide +kernel

theorem test_s24 : pended (.s24 0#2 0x004#12) [0x80#8, 0x00#8, 0x00#8] = oneNumber 0x004#12 (-8388608) 0#2 3#8 ∧
    pended (.s24 0#2 0x004#12) [0xFF#8, 0xFF#8, 0x9C#8] = oneNumber 0x004#12 (-100) 0#2 3#8 := by decide +kernel

theorem test_s32 : pended (.s32 0#2 0x006#12) [0x80#8, 0x00#8, 0x00#8, 0x00#8] = oneNumber 0x006#12 (-2147483648) 0#2 4#8 ∧
    pended (.s32 3#2 0x006#12) [0xFF#8, 0xFF#8, 0xFC#8, 0x18#8] = oneNumber 0x006#12 (-1000) 3#2 4#8 := by decide +kernel

theorem test_skip : pended (.skip 1#8) [0x77#8] = some ([], 1#8, 2#16) := by decide +kernel

/-- S6 and F29, F30: every null goes, then the edges; suppression is tested on the raw slice. -/
theorem test_text : pended (.text false 3#8 0x014#12) [0x41#8, 0x00#8, 0x42#8] = oneString 0x014#12 ['A', 'B'] 3#8 ∧
    pended (.text false 4#8 0x014#12) [0x20#8, 0x00#8, 0x20#8, 0x41#8] = oneString 0x014#12 ['A'] 4#8 ∧
    pended (.text false 3#8 0x014#12) [0x41#8, 0x20#8, 0x42#8] = oneString 0x014#12 ['A', ' ', 'B'] 3#8 ∧
    pended (.text false 3#8 0x014#12) [0x00#8, 0x00#8, 0x00#8] = oneString 0x014#12 [] 3#8 := by decide +kernel

theorem test_text_suppressed : pended (.text true 3#8 0x014#12) [0x00#8, 0x41#8, 0x42#8] = some ([], 3#8, 2#16) ∧
    pended (.text true 2#8 0x014#12) [0x20#8, 0x20#8] = some ([], 2#8, 2#16) ∧
    pended (.text true 8#8 0x014#12) [0x20#8, 0x41#8, 0x42#8, 0x00#8, 0x43#8, 0x20#8, 0x00#8, 0x00#8] =
      oneString 0x014#12 ['A', 'B', 'C'] 8#8 := by decide +kernel

theorem test_bits : pended (.bits 2#8 0x015#12) [0xA5#8, 0x0F#8] = oneString 0x015#12
    ['1', '0', '1', '0', '0', '1', '0', '1', '0', '0', '0', '0', '1', '1', '1', '1'] 2#8 := by decide +kernel

/-- X1, the descriptor at word 2 of a ROM whose check is waived. -/
theorem test_overrun : (nextOf (exec (.u16 (.num 0#2) 0x301#12)
    { reading [] [1#8, 2#8, 3#8] 2#16 with cur := 2#8, pend := [.publish 0x300#12 (.num 258 0#2)] })).map
    (fun t => (t.res, t.len, t.events, t.pend, t.cur)) = some (0xD#4, 0, [.overrun 2#16 2#8 2#8 3#8], [], 2#8) := by decide +kernel

/-! ### Witnesses: states and operands that meet the hypotheses of each statement -/

/-- The ROM of V1. -/
def romV1 : List Word := [0x1020A102#32, 0x32000021#32, 0xF0000000#32]

/-- The ROM of P3. -/
def romP3 : List Word :=
  [0x12118304#32, 0x200000AC#32, 0x320000AC#32, 0x320000AD#32, 0xF0000000#32, 0x14100400#32, 0xF0000000#32]

/-- The routines of P3, as instructions and in the form of R102. -/
def instrsP3 : List Instr :=
  [.rtn true 0x11#8 0x83#8 4#8, .lgcy 0x0AC#12, .u16 (.num 0#2) 0x0AC#12, .u16 (.num 0#2) 0x0AD#12, .end_,
   .nodata 0x10#8 0x04#8, .end_]

def routinesP3 : List Routine :=
  [{ control := 0x11#8, function := 0x83#8, kind := .decode, explen := 4#8, legacy := some 0x0AC#12,
     fields := [.u16 (.num 0#2) 0x0AC#12, .u16 (.num 0#2) 0x0AD#12], start := 0 },
   { control := 0x10#8, function := 0x04#8, kind := .noData, explen := 0#8, legacy := none, fields := [], start := 5 }]

/-- The frame of S1 but for its last byte, 3D. -/
def headS1 : List Byte := [0x3A#8, 0x3A#8, 0#8, 1#8, 0#8, 2#8, 0x20#8, 0xA1#8, 2#8, 1#8, 2#8, 1#8]

/-- A device of V1 that waits for the last byte of S1. -/
def beforeLast : State := holding romV1 headS1 11 12

/-- The same inside the FEED of that byte, DP at the word `dp`. -/
def inV1 (dp : Half) (cur : Byte) : State :=
  { holding romV1 (headS1 ++ [0x3D#8]) 12 12 with
    ctl := 0x20#8, fn := 0xA1#8, n := 2#8, sum := 0x013D#16, rcv := 0x013D#16, plen := 2#8, cur := cur, dp := dp
    phase := .decode }

theorem inv_of_rest (s : State) (c : Code) (canonical : Memory.wf s.mem = true) (inBuffer : ∀ x ∈ s.mem, x.1 < s.params.bufCap)
    (lenInCap : s.len ≤ s.params.bufCap) (valued : ∀ i, i < s.len → (Memory.read s.mem i).isSome = true)
    (stamped : s.lastTs < 2 ^ s.params.tsW) (coded : s.res = c.toBits) (kept : c.consumed = false)
    (unfinished : s.wellStarted → s.len ≤ 10 ∨ ∃ n, s.buf 8 = some n ∧ 11 ≤ s.len ∧ s.len < 11 + n.toNat)
    (pending : s.pend = []) (rest : s.phase = .rest) : s.Inv where
  canonical := canonical
  inBuffer := inBuffer
  lenInCap := lenInCap
  valued := valued
  stamped := stamped
  coded := ⟨c, coded⟩
  cleared := fun _ h => absurd (kept.symm.trans ((congrArg (·.getLsbD 3) coded.symm).trans h)) (by decide)
  unfinished := fun _ h => unfinished h
  pending := by rw [pending]; exact fun _ h => absurd h List.not_mem_nil
  decoding := fun h => absurd (rest.symm.trans h) (by decide)

theorem inv_reset : State.reset.Inv :=
  inv_of_rest _ .incomplete (by decide) (by decide) (by decide) (by decide +kernel) (by decide +kernel) (by decide) (by decide)
    (fun _ => .inl (by decide)) rfl rfl

theorem inv_beforeLast : beforeLast.Inv :=
  inv_of_rest _ .incomplete (by decide +kernel) (by decide +kernel) (by decide +kernel) (by decide +kernel) (by decide +kernel)
    (by decide +kernel) (by decide +kernel) (fun _ => .inr ⟨2#8, by decide +kernel⟩) rfl rfl

/-- Inside the routine of V1: at the header, at the field, and at END. -/
theorem inv_inV1 (dp : Half) (cur : Byte) (h : (dp = 0#16 ∧ cur = 0#8) ∨ (dp = 1#16 ∧ cur = 0#8) ∨ (dp = 2#16 ∧ cur = 2#8)) :
    (inV1 dp cur).Inv where
  canonical := by change Memory.wf (cellsFrom 0 (headS1 ++ [0x3D#8])) = true; decide +kernel
  inBuffer := by change ∀ c ∈ cellsFrom 0 (headS1 ++ [0x3D#8]), c.1 < 266; decide +kernel
  lenInCap := by change 13 ≤ 266; decide
  valued := by change ∀ i, i < 13 → (Memory.read (cellsFrom 0 (headS1 ++ [0x3D#8])) i).isSome = true; decide +kernel
  stamped := by change 12 < 2 ^ 32; decide
  coded := ⟨.incomplete, rfl⟩
  cleared := fun h => by cases h
  unfinished := fun h => by cases h
  pending := fun _ h => absurd h List.not_mem_nil
  decoding := fun _ => ⟨rfl, rfl, [.rtn false 0x20#8 0xA1#8 2#8, .u16 (.num 0#2) 0x021#12, .end_], rfl, by
    obtain ⟨rfl, rfl⟩ | ⟨rfl, rfl⟩ | ⟨rfl, rfl⟩ := h
    · exact ⟨_, rfl, by decide, .inl ⟨_, rfl⟩⟩
    · exact ⟨_, rfl, by decide, .inr (.inr ⟨_, _, rfl, rfl⟩)⟩
    · exact ⟨_, rfl, by decide, .inr (.inr ⟨_, _, rfl, rfl⟩)⟩⟩

/-- CommandWordsDecode: the least and the greatest word of each row. -/
theorem test_witness_CommandWordsDecode :
    (0x200#10 &&& 0x200#10 = 0x200#10 ∧ 0x3FF#10 &&& 0x200#10 = 0x200#10) ∧
    (0x000#10 &&& 0x300#10 = 0x000#10 ∧ 0x0FF#10 &&& 0x300#10 = 0x000#10) ∧
    (0x100#10 &&& 0x300#10 = 0x100#10 ∧ 0x1FF#10 &&& 0x300#10 = 0x100#10) := by decide

/-- DecodeOfEncode: slices of one byte and of 255. -/
theorem test_witness_DecodeOfEncode : (Instr.skip 1#8).wf = true ∧ (Instr.bits 255#8 0xFFF#12).wf = true := by decide

/-- EncodeOfDecode. -/
theorem test_witness_EncodeOfDecode : decodeDescriptor 0x46080014#32 = .ok (.text true 8#8 0x014#12) := rfl

/-- IllegalWordsRefused, its last clause, and RomWellFormedness, its last clause: a ROM of the all-ones word. -/
theorem test_witness_IllegalWordsRefused :
    let s := holding [0xFFFFFFFF#32] [] 0 0
    266 ≤ s.params.bufCap ∧ s.params.timeout < 2 ^ s.params.tsW ∧ 0xFFFFFFFF#32 ∈ s.rom ∧
    decodeDescriptor 0xFFFFFFFF#32 = .error .badEnd ∧ romDefect s.rom ≠ none :=
  ⟨by decide +kernel, by decide +kernel, by decide +kernel, rfl, by decide +kernel⟩

/-- AssembleOfParse. -/
theorem test_witness_AssembleOfParse : routines instrsP3 = some routinesP3 := by decide +kernel

/-- ScanFindsTheRoutine: the ROM of P3, the key of its second routine, and a key of none. -/
theorem test_witness_ScanFindsTheRoutine :
    romDefect romP3 = none ∧ decodeRom romP3 = some instrsP3 ∧ routines instrsP3 = some routinesP3 ∧
    (∃ r ∈ routinesP3, r.control = 0x10#8 ∧ r.function = 0x04#8) ∧
    (∀ r ∈ routinesP3, ¬(r.control = 0x11#8 ∧ r.function = 0x84#8)) := by decide +kernel

/-- ResetCommand, its second and its third clause. -/
theorem test_witness_ResetCommand :
    (∃ t, exec .reset (holding [] [1#8] 7 8) = .next t) ∧ (0x200#10).getLsbD 9 = true ∧ (0x3FF#10).getLsbD 9 = true :=
  ⟨⟨_, rfl⟩, rfl, rfl⟩

/-- IdleCommand, its second clause. -/
theorem test_witness_IdleCommand :
    ((0x000#10).getLsbD 9 = false ∧ (0x000#10).getLsbD 8 = false) ∧
    ((0x0FF#10).getLsbD 9 = false ∧ (0x0FF#10).getLsbD 8 = false) := by decide

/-- StatusRead: the greatest LEN that 16 bits hold; the least and the greatest reserved number. -/
theorem test_witness_StatusRead :
    ({ State.reset with len := 65535 } : State).len < 65536 ∧ 5 ≤ (5#3).toNat ∧ 5 ≤ (7#3).toNat := by decide

/-- StatusReadAfterCommand: register 0 read with the FEED of the first byte. -/
theorem test_witness_StatusReadAfterCommand :
    ∃ (s t u : State) (k : Tick), s.phase = .rest ∧ s.stat = none ∧ s.inputs = [k] ∧ k.stat = some 0#3 ∧ step s = .next t ∧
      settle 0 t = .next u ∧ u.phase = .rest ∧ u.reg 0#3 = 1 := by
  refine ⟨{ State.reset with inputs := [⟨0x13A#10, 0, some 0#3⟩] }, _, _, ⟨0x13A#10, 0, some 0#3⟩, rfl, rfl, rfl, rfl,
    eq_next_of_nextOf (t := { State.reset with mem := [(0, 0x3A#8)], len := 1, stat := some 0#3 }) ?_, rfl, rfl, ?_⟩ <;>
  decide +kernel

/-- FeedReceivesTheByte: one below BUF_CAP, and at BUF_CAP. -/
theorem test_witness_FeedReceivesTheByte :
    (∃ s : State, s.timedOut = false ∧ s.len + 1 = s.params.bufCap) ∧
    (∃ s : State, s.timedOut = false ∧ s.params.bufCap = s.len) :=
  ⟨⟨holding [] (List.replicate 265 0x55#8) 0 0, by decide +kernel⟩,
   ⟨holding [] (List.replicate 266 0x55#8) 0 0, by decide +kernel⟩⟩

/-- ClockWrapAliases, A6: TS_W 8, a gap of 256 at the boundary of the width; and a gap of 51 with TIMEOUT 50. -/
theorem test_witness_ClockWrapAliases :
    (let s : State := { holding [] [0x3A#8] 250 506 with params := { Params.default with tsW := 8 } }
     s.len < s.params.bufCap ∧ s.lastTs < 2 ^ s.params.tsW ∧ s.now = s.lastTs + 256 ∧
     256 % 2 ^ s.params.tsW ≤ s.params.timeout) ∧
    (let s := holding [] [0x3A#8] 100 151
     s.len < s.params.bufCap ∧ s.lastTs < 2 ^ s.params.tsW ∧ s.now = s.lastTs + 51 ∧
     51 < 2 ^ s.params.tsW ∧ s.params.timeout < 51 % 2 ^ s.params.tsW) := by decide +kernel

/-- FeedStartMarkers: one byte, and two whose second is not the marker (V3). -/
theorem test_witness_FeedStartMarkers :
    (State.reset.startCommand.receive 0x00#8).len < 2 ∧
    (let u := (holding [] [0x3A#8] 0 1).startCommand.receive 0x41#8
     2 ≤ u.len ∧ u.buf 0 = some 0x3A#8 ∧ u.buf 1 = some 0x41#8) := by decide +kernel

/-- FeedIncompleteFrame: 10 bytes (R142), and 12 bytes of a frame of 13 (V1). -/
theorem test_witness_FeedIncompleteFrame :
    (let u := (holding [] (headS1.take 9) 8 9).startCommand.receive 1#8
     2 ≤ u.len ∧ u.buf 0 = some 0x3A#8 ∧ u.buf 1 = some 0x3A#8 ∧ u.len < 11) ∧
    (let u := (holding [] (headS1.take 11) 10 11).startCommand.receive 1#8
     2 ≤ u.len ∧ u.buf 0 = some 0x3A#8 ∧ u.buf 1 = some 0x3A#8 ∧ 11 ≤ u.len ∧ u.buf 6 = some 0x20#8 ∧
     u.buf 7 = some 0xA1#8 ∧ u.buf 8 = some 2#8 ∧ u.len < 11 + (2#8).toNat) := by decide +kernel

/-- FeedChecksumMismatch: the frame of X2. -/
theorem test_witness_FeedChecksumMismatch :
    let bytes : List Byte := [0x3A#8, 0x3A#8, 0#8, 0#8, 0#8, 0#8, 0x99#8, 0x99#8, 0#8, 0x01#8]
    let u := (holding [] bytes 9 10).startCommand.receive 0xA7#8
    let raw := bytes ++ [0xA7#8]
    u.buffer = some raw ∧ 2 ≤ u.len ∧ u.buf 0 = some 0x3A#8 ∧ u.buf 1 = some 0x3A#8 ∧
    11 + (0#8).toNat ≤ u.len ∧ u.buf 6 = some 0x99#8 ∧ u.buf 7 = some 0x99#8 ∧ u.buf 8 = some 0#8 ∧
    u.buf 9 = some 0x01#8 ∧ u.buf 10 = some 0xA7#8 ∧
    BitVec.ofNat 16 (((raw.take 9).map BitVec.toNat).sum % 65536) ≠ 0x01#8 ++ 0xA7#8 := by decide +kernel

/-- FeedUnknownKey: the frame of D2 with the ROM of P3. -/
theorem test_witness_FeedUnknownKey :
    let bytes : List Byte := [0x3A#8, 0x3A#8, 0#8, 0#8, 0#8, 0#8, 0x11#8, 0x84#8, 1#8, 1#8, 0x01#8]
    let s := holding romP3 bytes 10 11
    let u := s.startCommand.receive 0x0B#8
    let raw := bytes ++ [0x0B#8]
    (u.buffer = some raw ∧ 2 ≤ u.len ∧ u.buf 0 = some 0x3A#8 ∧ u.buf 1 = some 0x3A#8 ∧
      11 + (1#8).toNat ≤ u.len ∧ u.buf 6 = some 0x11#8 ∧ u.buf 7 = some 0x84#8 ∧ u.buf 8 = some 1#8 ∧
      u.buf 10 = some 0x01#8 ∧ u.buf 11 = some 0x0B#8 ∧ checksumOf (raw.take 10) = 0x01#8 ++ 0x0B#8) ∧
    romDefect s.rom = none ∧ decodeRom s.rom = some instrsP3 ∧ routines instrsP3 = some routinesP3 ∧
    ∀ r ∈ routinesP3, ¬(r.control = 0x11#8 ∧ r.function = 0x84#8) := by decide +kernel

/-- FeedEntersRoutine: the frame fD of P3, whose routine is the second. -/
theorem test_witness_FeedEntersRoutine :
    let bytes : List Byte := [0x3A#8, 0x3A#8, 0#8, 0#8, 0#8, 0#8, 0x10#8, 0x04#8, 0#8, 0x00#8]
    let s := holding romP3 bytes 9 10
    let u := s.startCommand.receive 0x88#8
    let raw := bytes ++ [0x88#8]
    (u.buffer = some raw ∧ 2 ≤ u.len ∧ u.buf 0 = some 0x3A#8 ∧ u.buf 1 = some 0x3A#8 ∧
      11 + (0#8).toNat ≤ u.len ∧ u.buf 6 = some 0x10#8 ∧ u.buf 7 = some 0x04#8 ∧ u.buf 8 = some 0#8 ∧
      u.buf 9 = some 0x00#8 ∧ u.buf 10 = some 0x88#8 ∧ checksumOf (raw.take 9) = 0x00#8 ++ 0x88#8) ∧
    romDefect s.rom = none ∧ decodeRom s.rom = some instrsP3 ∧ routines instrsP3 = some routinesP3 ∧
    ∃ r ∈ routinesP3, r.control = 0x10#8 ∧ r.function = 0x04#8 := by decide +kernel

/-- FeedFrame: an append at address 0, and a byte dropped at BUF_CAP. -/
theorem test_witness_FeedFrame :
    ((∃ t, exec (.feed 0x3A#8) State.reset = .next t) ∧
      State.reset.startCommand.timeoutDiscard.stamp.appendAddr = some 0) ∧
    (let s := holding [] (List.replicate 266 0x55#8) 265 266
     (∃ t, exec (.feed 0x3A#8) s = .next t) ∧ s.startCommand.timeoutDiscard.stamp.appendAddr = none) :=
  ⟨⟨⟨{ State.reset with mem := [(0, 0x3A#8)], len := 1 }, eq_next_of_nextOf (by decide +kernel)⟩, by decide +kernel⟩,
   ⟨⟨{ holding [] (List.replicate 266 0x55#8) 266 266 with res := 0x1#4 }, eq_next_of_nextOf (by decide +kernel)⟩,
    by decide +kernel⟩⟩

/-- A dead buffer of two bytes (V2), and a full one (A7). -/
theorem dead_of_first (s : State) (b0 b1 : Byte) (h : 2 ≤ s.len ∧ s.buf 0 = some b0 ∧ s.buf 1 = some b1 ∧
    (b0 ≠ Config.marker ∨ b1 ≠ Config.marker)) : s.dead := ⟨h.1, b0, b1, h.2⟩

/-- DeadBufferStaysDead: a buffer of two bytes with the gap equal to TIMEOUT, and a full one. -/
theorem test_witness_DeadBufferStaysDead :
    (let s := holding [] [0x00#8, 0x3A#8] 1 51
     s.dead ∧ s.timedOut = false) ∧
    (let s := holding [] (List.replicate 266 0x55#8) 265 266
     s.dead ∧ s.timedOut = false) :=
  ⟨⟨dead_of_first _ 0x00#8 0x3A#8 (by decide +kernel), by decide +kernel⟩,
   ⟨dead_of_first _ 0x55#8 0x55#8 (by decide +kernel), by decide +kernel⟩⟩

/-- NoMarkersNoDecode: the first byte, and the second byte of V3. -/
theorem test_witness_NoMarkersNoDecode :
    (let u := State.reset.startCommand.receive 0x3A#8
     (∀ i, i < u.len → (Memory.read u.mem i).isSome = true) ∧ ¬u.wellStarted) ∧
    (let u := (holding [] [0x3A#8] 0 1).startCommand.receive 0x41#8
     (∀ i, i < u.len → (Memory.read u.mem i).isSome = true) ∧ ¬u.wellStarted) :=
  ⟨⟨by decide +kernel, fun h => absurd h.1 (by decide +kernel)⟩,
   ⟨by decide +kernel, fun h => absurd h.2.2 (by decide +kernel)⟩⟩

/-- RtnSizeMatches, and RtnSizeMismatch one byte short of it (S9). -/
theorem test_witness_RtnSize :
    ({ State.reset with plen := 106#8 } : State).plen = 106#8 ∧ ({ State.reset with plen := 105#8 } : State).plen ≠ 106#8 ∧
    ({ State.reset with plen := 107#8 } : State).plen ≠ 106#8 := by decide

/-- LegacyFallback: P3, a payload of 5 bytes against EXPLEN 4. -/
theorem test_witness_LegacyFallback :
    let s := reading romP3 [0#8, 3#8, 0#8, 7#8, 9#8] 0#16
    paramsOk s.params ∧ s.phase = .decode ∧ s.rom[s.dp.toNat]? = some 0x12118304#32 ∧
    decodeDescriptor 0x12118304#32 = .ok (.rtn true 0x11#8 0x83#8 4#8) ∧ s.rom[s.dp.toNat + 1]? = some 0x200000AC#32 ∧
    decodeDescriptor 0x200000AC#32 = .ok (.lgcy 0x0AC#12) ∧ s.plen ≠ 4#8 :=
  ⟨by show paramsDefect _ = none; decide +kernel, rfl, rfl, rfl, rfl, rfl, by decide +kernel⟩

/-- UnsignedReads (with CONV = NUM a value of 2^31 and more) and SignedReads: a payload of exactly four bytes, and of exactly one at offset 254. -/
theorem test_witness_IntegerReads :
    (let s := reading [] [0x80#8, 0#8, 0#8, 1#8] 1#16
     s.buf (9 + s.cur.toNat) = some 0x80#8 ∧ s.cur.toNat + 4 ≤ s.plen.toNat ∧ s.buf (10 + s.cur.toNat) = some 0#8 ∧
     s.buf (11 + s.cur.toNat) = some 0#8 ∧ s.buf (12 + s.cur.toNat) = some 1#8) ∧
    (let s : State := { reading [] (List.replicate 255 7#8) 1#16 with cur := 254#8 }
     s.buf (9 + s.cur.toNat) = some 7#8 ∧ s.cur.toNat + 1 = s.plen.toNat) := by decide +kernel

/-- SkipResult, TextResult and BitsResult: a slice of the whole payload; a suppressed text and one that is not. -/
theorem test_witness_SliceReads :
    (let s := reading [] [0x00#8, 0x41#8] 1#16
     s.cur.toNat + (2#8).toNat ≤ s.plen.toNat ∧ s.bufSlice (9 + s.cur.toNat) (2#8).toNat = some [0x00#8, 0x41#8] ∧
     (textOf s.params.ws [0x00#8, 0x41#8] = [] ∨ [0x00#8, 0x41#8].head? = some 0x00#8)) ∧
    (let s := reading [] [0x41#8, 0x20#8] 1#16
     s.cur.toNat + (2#8).toNat ≤ s.plen.toNat ∧ s.bufSlice (9 + s.cur.toNat) (2#8).toNat = some [0x41#8, 0x20#8] ∧
     ¬(textOf s.params.ws [0x41#8, 0x20#8] = [] ∨ [0x41#8, 0x20#8].head? = some 0x00#8)) := by decide +kernel

/-- BitsResult, its last clause: the last bit of the last byte of a slice of two. -/
theorem test_witness_BitsResult : 1 < (2#8).toNat ∧ 7 < 8 := by decide

/-- OverrunEntry: X1. -/
theorem test_witness_OverrunEntry :
    let s : State := { reading [] [1#8, 2#8, 3#8] 2#16 with cur := 2#8 }
    (Instr.u16 (.num 0#2) 0x301#12).isField = true ∧
    s.plen.toNat < s.cur.toNat + (Instr.u16 (.num 0#2) 0x301#12).width := by decide +kernel

/-- FieldFrame: a read that fits and one that does not. -/
theorem test_witness_FieldFrame :
    (Instr.skip 1#8).isField = true ∧ (∃ t, exec (.skip 1#8) (reading [] [0x77#8] 1#16) = .next t) ∧
    (∃ t, exec (.skip 2#8) (reading [] [0x77#8] 1#16) = .next t) :=
  ⟨rfl, ⟨{ reading [] [0x77#8] 1#16 with cur := 1#8, dp := 2#16 }, eq_next_of_nextOf (by decide +kernel)⟩,
   ⟨{ reading [] [0x77#8] 1#16 with
        res := 0xD#4, ready := true, len := 0, phase := .rest, events := [.overrun 1#16 0#8 2#8 1#8] },
    eq_next_of_nextOf (by decide +kernel)⟩⟩

/-- OnlyFeedStores: a RESET and an IDLE. -/
theorem test_witness_OnlyFeedStores :
    (∀ b, Instr.reset ≠ .feed b) ∧ (∃ t, exec .reset State.reset = .next t) ∧ Instr.idle ≠ .reset ∧
    (∃ t, exec .idle State.reset = .next t) :=
  ⟨fun _ h => Instr.noConfusion h, ⟨_, rfl⟩, by decide, ⟨_, rfl⟩⟩

/-- RunStateStrings: the least code without a name. -/
theorem test_witness_RunStateStrings : 3 ≤ 3 ∧ convertValue .rs 3 = .str [0x33#8] := by decide +kernel

/-- StepRunsDecoded: a device that waits, a status read, a command, and a descriptor at the last word of its ROM. -/
theorem test_witness_StepRunsDecoded :
    paramsOk State.reset.params ∧ State.reset.inputs = [] ∧ (State.reset.placeStatusRead 3#3).stat = some 3#3 ∧
    (State.reset.placeCommand 0x13A#10).inputs = [⟨0x13A#10, 0, none⟩] ∧ decode (.port 0x13A#10) = .ok (.feed 0x3A#8) ∧
    paramsOk (inV1 2#16 2#8).params ∧ (inV1 2#16 2#8).phase = .decode ∧
    (inV1 2#16 2#8).rom[(inV1 2#16 2#8).dp.toNat]? = some 0xF0000000#32 ∧ decode (.word 0xF0000000#32) = .ok .end_ :=
  ⟨by show paramsDefect _ = none; decide +kernel, rfl, rfl, rfl, rfl, by show paramsDefect _ = none; decide +kernel, rfl, rfl,
   rfl⟩

/-- FeedIsUninterrupted, InvariantKept, OverrunUnreachable: the END of V1. -/
theorem test_witness_InvariantKept :
    (inV1 2#16 2#8).Inv ∧ (inV1 2#16 2#8).phase = .decode ∧ (inV1 2#16 2#8).rom[(inV1 2#16 2#8).dp.toNat]? = some endWord ∧
    ∃ t, step (inV1 2#16 2#8) = .next t :=
  ⟨inv_inV1 _ _ (by decide), rfl, rfl, ⟨{ inV1 2#16 2#8 with
      res := 0x8#4, ready := true, len := 0, phase := .rest }, eq_next_of_nextOf (by decide +kernel)⟩⟩

theorem run_one {s t : State} (h : step s = .next t) : Host.Core.run Sys2Proof.core 1 s = .next t := by
  have e : Sys2Proof.core.step s = .next t := h
  simp only [Host.Core.run, e]

/-- InvariantKept and NeverStops between commands, and ConfigurationConstant over one step. -/
theorem test_witness_NeverStops :
    State.reset.Inv ∧ paramsOk State.reset.params ∧ step State.reset = .next State.reset ∧
    Host.Core.run Sys2Proof.core 1 State.reset = .next State.reset :=
  ⟨inv_reset, by show paramsDefect _ = none; decide +kernel, eq_next_of_nextOf (by decide +kernel),
   run_one (eq_next_of_nextOf (by decide +kernel))⟩

/-- TransientsUnobservable: two states at rest that differ in CUR and DP. -/
theorem test_witness_TransientsUnobservable :
    State.reset.phase = .rest ∧ State.reset.sameButTransient { State.reset with cur := 5#8, dp := 7#16 } ∧
    step State.reset = .next State.reset := ⟨rfl, rfl, eq_next_of_nextOf (by decide +kernel)⟩

/-- FeedRefinesTheCommand: the last byte of S1 with the ROM of V1. -/
theorem test_witness_FeedRefinesTheCommand :
    beforeLast.Inv ∧ beforeLast.phase = .rest ∧ paramsOk beforeLast.params ∧
    decodeRom beforeLast.rom = some [.rtn false 0x20#8 0xA1#8 2#8, .u16 (.num 0#2) 0x021#12, .end_] ∧
    (routines [.rtn false 0x20#8 0xA1#8 2#8, .u16 (.num 0#2) 0x021#12, .end_]).isSome = true ∧
    beforeLast.buffer = some headS1 :=
  ⟨inv_beforeLast, rfl, by show paramsDefect _ = none; decide +kernel, rfl, rfl, by decide +kernel⟩

/-- RoutineDependsOnPayloadOnly: the header of V1 in two states with different times. -/
theorem test_witness_RoutineDependsOnPayloadOnly :
    let s := inV1 0#16 0#8
    let s' : State := { inV1 0#16 0#8 with now := 99 }
    s.Inv ∧ s'.Inv ∧ paramsOk s.params ∧ paramsOk s'.params ∧ s.phase = .decode ∧ s'.phase = .decode ∧ s'.rom = s.rom ∧
    s'.params.ws = s.params.ws ∧ s'.dp = s.dp ∧ s'.plen = s.plen ∧
    (s.rom[s.dp.toNat]? = some 0x1020A102#32 ∧ headerKey 0x1020A102#32 = some (0x20#8, 0xA1#8)) ∧
    (∀ a, a < s.plen.toNat → s'.buf (9 + a) = s.buf (9 + a)) ∧ s.events = [] ∧ s'.events = [] := by
  have h := inv_inV1 0#16 0#8 (by decide)
  exact ⟨h, ⟨h.canonical, h.inBuffer, h.lenInCap, h.valued, h.stamped, h.coded, h.cleared, h.unfinished, h.pending, h.decoding⟩,
    by show paramsDefect _ = none; decide +kernel, by show paramsDefect _ = none; decide +kernel, rfl, rfl, rfl, rfl, rfl, rfl,
    ⟨rfl, rfl⟩, fun _ _ => rfl, rfl, rfl⟩

/-- A device of P3 that waits for the last byte, 20, of the frame fC. -/
def beforeMismatch : State :=
  holding romP3 [0x3A#8, 0x3A#8, 0#8, 0#8, 0#8, 0#8, 0x11#8, 0x83#8, 5#8, 0#8, 3#8, 0#8, 7#8, 9#8, 0x01#8] 95 96

theorem inv_beforeMismatch : beforeMismatch.Inv :=
  inv_of_rest _ .incomplete (by decide +kernel) (by decide +kernel) (by decide +kernel) (by decide +kernel) (by decide +kernel)
    (by decide +kernel) (by decide +kernel) (fun _ => .inr ⟨5#8, by decide +kernel⟩) rfl rfl

/-- AllOrNothing: the last byte of S1, DECODED (V1). -/
theorem test_witness_AllOrNothing :
    beforeLast.Inv ∧ beforeLast.phase = .rest ∧ paramsOk beforeLast.params ∧
    decodeRom beforeLast.rom = some [.rtn false 0x20#8 0xA1#8 2#8, .u16 (.num 0#2) 0x021#12, .end_] ∧
    (routines [.rtn false 0x20#8 0xA1#8 2#8, .u16 (.num 0#2) 0x021#12, .end_]).isSome = true ∧
    (beforeLast.startCommand.receive 0x3D#8).buffer = some (headS1 ++ [0x3D#8]) ∧
    ∃ t, settleOutcome beforeLast.rom.length (exec (.feed 0x3D#8) beforeLast) = .next t ∧ t.res = 0x8#4 :=
  ⟨inv_beforeLast, rfl, by show paramsDefect _ = none; decide +kernel, rfl, rfl, by decide +kernel,
   { inV1 2#16 2#8 with res := 0x8#4, ready := true, len := 0, phase := .rest, acc := 258#32,
                        events := [.publish 0x021#12 (.num 258 0#2)] },
   eq_next_of_nextOf (by decide +kernel), rfl⟩

/-- AllOrNothing, its second clause: the last byte of fC, the legacy fallback (P3 step 5). -/
theorem test_witness_AllOrNothing_legacy :
    beforeMismatch.Inv ∧ beforeMismatch.phase = .rest ∧ paramsOk beforeMismatch.params ∧
    decodeRom beforeMismatch.rom = some instrsP3 ∧ routines instrsP3 = some routinesP3 ∧
    (beforeMismatch.startCommand.receive 0x20#8).buffer.isSome = true ∧
    ∃ t, settleOutcome beforeMismatch.rom.length (exec (.feed 0x20#8) beforeMismatch) = .next t ∧ t.res ≠ 0x8#4 :=
  ⟨inv_beforeMismatch, rfl, by show paramsDefect _ = none; decide +kernel, rfl, by decide +kernel, by decide +kernel,
   { beforeMismatch with
      mem := cellsFrom 0 [0x3A#8, 0x3A#8, 0#8, 0#8, 0#8, 0#8, 0x11#8, 0x83#8, 5#8, 0#8, 3#8, 0#8, 7#8, 9#8, 0x01#8, 0x20#8]
      len := 0, lastTs := 96, res := 0xB#4, ready := true, ctl := 0x11#8, fn := 0x83#8, n := 5#8, plen := 5#8
      sum := 0x0120#16, rcv := 0x0120#16, dp := 1#16
      events := [.sizeMismatch 4#8 5#8, .publish 0x0AC#12 (.num 5 0#2)] },
   eq_next_of_nextOf (by decide +kernel), by decide⟩

/-- SaturationInvisible: BUF_CAP 266 and 70000, with equal buffers, and both dead with buffers of two and three bytes. -/
theorem test_witness_SaturationInvisible :
    let cap (s : State) : State := { s with params := { s.params with bufCap := 70000 } }
    (State.reset.Inv ∧ (cap State.reset).Inv ∧ paramsOk State.reset.params ∧ paramsOk (cap State.reset).params ∧
      (cap State.reset).buffer = State.reset.buffer) ∧
    (let s := holding [] [0x00#8, 0x00#8] 0 1
     let s' := cap (holding [] [0x00#8, 0x00#8, 0x00#8] 0 1)
     s.Inv ∧ s'.Inv ∧ s.dead ∧ s'.dead ∧ s'.params = { s.params with bufCap := s'.params.bufCap } ∧ s'.lastTs = s.lastTs ∧
     s'.now = s.now) :=
  ⟨⟨inv_reset,
    inv_of_rest _ .incomplete (by decide) (by decide) (by decide) (by decide +kernel) (by decide +kernel) (by decide)
      (by decide) (fun _ => .inl (by decide)) rfl rfl,
    by show paramsDefect _ = none; decide +kernel, by show paramsDefect _ = none; decide +kernel, rfl⟩,
   inv_of_rest _ .incomplete (by decide +kernel) (by decide +kernel) (by decide +kernel) (by decide +kernel)
      (by decide +kernel) (by decide +kernel) (by decide) (fun _ => .inl (by decide +kernel)) rfl rfl,
   inv_of_rest _ .incomplete (by decide +kernel) (by decide +kernel) (by decide +kernel) (by decide +kernel)
      (by decide +kernel) (by decide +kernel) (by decide) (fun _ => .inl (by decide +kernel)) rfl rfl,
   dead_of_first _ 0#8 0#8 (by decide +kernel), dead_of_first _ 0#8 0#8 (by decide +kernel), rfl, rfl, rfl⟩

end Sys2Proof.Tests
end

/-! ### Encodings (30_encoding.md): the port command word

A command word is told apart by its bits 9 and 8 alone; the masks of R85 select exactly these. -/

namespace Sys2Proof

/-- What the mask of the RESET row (R85) leaves of a command word: its bit 9. -/
theorem and_resetMask (c : Cmd) : c &&& 0x200#10 = if c.getLsbD 9 then 0x200#10 else 0#10 :=
  BitVec.and_twoPow c 9

/-- What the mask of the IDLE and FEED rows (R85) leaves of a command word: its bits 9 and 8. -/
theorem and_commandMask (c : Cmd) :
    c &&& 0x300#10 = (if c.getLsbD 9 then 0x200#10 else 0#10) ||| (if c.getLsbD 8 then 0x100#10 else 0#10) := by
  have hvalid : c &&& 0x100#10 = if c.getLsbD 8 then 0x100#10 else 0#10 := BitVec.and_twoPow c 8
  rw [← and_resetMask, ← hvalid, ← BitVec.and_or_distrib_left]
  rfl

theorem and_resetMask_eq_iff (c : Cmd) : c &&& 0x200#10 = 0x200#10 ↔ c.getLsbD 9 = true := by
  rw [and_resetMask]
  cases c.getLsbD 9 <;> decide

theorem and_commandMask_eq_idle_iff (c : Cmd) :
    c &&& 0x300#10 = 0x000#10 ↔ c.getLsbD 9 = false ∧ c.getLsbD 8 = false := by
  rw [and_commandMask]
  cases c.getLsbD 9 <;> cases c.getLsbD 8 <;> decide

theorem and_commandMask_eq_feed_iff (c : Cmd) :
    c &&& 0x300#10 = 0x100#10 ↔ c.getLsbD 9 = false ∧ c.getLsbD 8 = true := by
  rw [and_commandMask]
  cases c.getLsbD 9 <;> cases c.getLsbD 8 <;> decide

theorem decodeCommand_reset {c : Cmd} (h9 : c.getLsbD 9 = true) : decodeCommand c = .reset := by
  rw [decodeCommand, if_pos h9]

theorem decodeCommand_idle {c : Cmd} (h9 : c.getLsbD 9 = false) (h8 : c.getLsbD 8 = false) :
    decodeCommand c = .idle := by
  rw [decodeCommand, h9, h8]
  rfl

theorem decodeCommand_feed {c : Cmd} (h9 : c.getLsbD 9 = false) (h8 : c.getLsbD 8 = true) :
    decodeCommand c = .feed (c.setWidth 8) := by
  rw [decodeCommand, h9, h8, BitVec.setWidth_eq_extractLsb' (by decide)]
  rfl

/-- Settles O1: each row's match and mask is a condition on bits 9 and 8, and these decide what the decoder answers. -/
theorem commandWordsDecode : Obligations.CommandWordsDecode := by
  intro c
  rw [and_resetMask_eq_iff, and_commandMask_eq_idle_iff, and_commandMask_eq_feed_iff]
  refine ⟨fun h9 => ?_, fun ⟨h9, h8⟩ => ?_, fun ⟨h9, h8⟩ => ?_, ?_⟩
  · rw [decode, decodeCommand_reset h9]
  · rw [decode, decodeCommand_idle h9 h8]
  · rw [decode, decodeCommand_feed h9 h8]
  · cases c.getLsbD 9 <;> cases c.getLsbD 8 <;> decide

end Sys2Proof

/-! ### The grammar of R100: the parse and the assembly are inverse

`parseFrom` reads a ROM from its end. Its answer lists all the words it has read (`assembleSuffix_of_parseFrom`), and the
words of routines written out one after another parse to those routines (`parseFrom_assembleRoutines`), each at its own
address and in the one form the parse gives a NODATA routine (`Routine.placedAt`). -/

namespace Sys2Proof.Machine

/-- The instructions a suffix of a ROM consists of. -/
def assembleSuffix : Suffix → List Instr
  | .atHeader rs => rs.flatMap assembleRoutine
  | .inFields fs rs => fs ++ .end_ :: rs.flatMap assembleRoutine
  | .atLegacy fid fs rs => .lgcy fid :: (fs ++ .end_ :: rs.flatMap assembleRoutine)

/-- The field descriptors of a suffix: those before its first END, then those of its routines. -/
def suffixFields : Suffix → List Instr
  | .atHeader rs => rs.flatMap Routine.fields
  | .inFields fs rs => fs ++ rs.flatMap Routine.fields
  | .atLegacy _ fs rs => fs ++ rs.flatMap Routine.fields

/-- The parse drops no word. -/
theorem assembleSuffix_of_parseFrom {a : Nat} {is : List Instr} {p : Suffix} (h : parseFrom a is = some p) :
    assembleSuffix p = is := by
  induction is generalizing a p with
  | nil =>
    cases h
    rfl
  | cons i is ih =>
    obtain ⟨q, hq, hstep⟩ := parseFrom_cons h
    have hrest : assembleSuffix q = is := ih hq
    rcases hstep with ⟨rfl, rs, rfl, rfl⟩ | ⟨fid, fs, rs, rfl, rfl, rfl⟩ | ⟨c, f, e, fs, rs, rfl, rfl, rfl⟩ |
      ⟨c, f, e, fid, fs, rs, rfl, rfl, rfl⟩ | ⟨c, f, rs, rfl, rfl, rfl⟩ | ⟨fs, rs, _, rfl, rfl⟩ <;>
      simp [← hrest, assembleSuffix, assembleRoutine]

/-- The parse takes field descriptors only as the fields of a routine. -/
theorem isField_of_mem_suffixFields {a : Nat} {is : List Instr} {p : Suffix} (h : parseFrom a is = some p) :
    ∀ i ∈ suffixFields p, i.isField = true := by
  induction is generalizing a p with
  | nil =>
    cases h
    simp [suffixFields]
  | cons i is ih =>
    obtain ⟨q, hq, hstep⟩ := parseFrom_cons h
    have hrest : ∀ j ∈ suffixFields q, j.isField = true := ih hq
    rcases hstep with ⟨_, rs, rfl, rfl⟩ | ⟨fid, fs, rs, _, rfl, rfl⟩ | ⟨c, f, e, fs, rs, _, rfl, rfl⟩ |
      ⟨c, f, e, fid, fs, rs, _, rfl, rfl⟩ | ⟨c, f, rs, _, rfl, rfl⟩ | ⟨fs, rs, hi, rfl, rfl⟩
    case inr.inr.inr.inr.inr => exact List.forall_mem_cons.2 ⟨hi, hrest⟩
    all_goals exact hrest

/-- The assembly of the routines a ROM parses to is the ROM (R102). -/
theorem flatMap_assembleRoutine_of_routines {is : List Instr} {rs : List Routine} (h : routines is = some rs) :
    rs.flatMap assembleRoutine = is :=
  assembleSuffix_of_parseFrom (routines_eq_some.1 h)

/-- The routines a ROM parses to have field descriptors as fields (R100). -/
theorem isField_of_routines {is : List Instr} {rs : List Routine} (h : routines is = some rs) {r : Routine}
    (hr : r ∈ rs) {i : Instr} (hi : i ∈ r.fields) : i.isField = true :=
  isField_of_mem_suffixFields (routines_eq_some.1 h) i (List.mem_flatMap_of_mem hr hi)

theorem parseFrom_cons_of_rest {a : Nat} {is : List Instr} {q : Suffix} (h : parseFrom (a + 1) is = some q) (i : Instr) :
    parseFrom a (i :: is) = parseStep a i q := by
  rw [parseFrom, h]

theorem parseStep_field {i : Instr} (hi : i.isField = true) (a : Nat) (fs : List Instr) (rs : List Routine) :
    parseStep a i (.inFields fs rs) = some (.inFields (i :: fs) rs) := by
  cases i <;> simp_all [parseStep, Instr.isField]

/-- Field descriptors and an END before routines: the inside of a routine. -/
theorem parseFrom_fields_end {fs : List Instr} (hfs : ∀ i ∈ fs, i.isField = true) {a : Nat} {is : List Instr}
    {rs : List Routine} (h : parseFrom (a + fs.length + 1) is = some (.atHeader rs)) :
    parseFrom a (fs ++ .end_ :: is) = some (.inFields fs rs) := by
  induction fs generalizing a with
  | nil => exact parseFrom_cons_of_rest h _
  | cons i fs ih =>
    obtain ⟨hi, hfs⟩ := List.forall_mem_cons.1 hfs
    have hrest : parseFrom (a + 1) (fs ++ .end_ :: is) = some (.inFields fs rs) :=
      ih hfs (by rwa [Nat.add_right_comm a 1])
    exact (parseFrom_cons_of_rest hrest i).trans (parseStep_field hi a fs rs)

end Sys2Proof.Machine

namespace Sys2Proof

/-- A routine as the parse gives it when its header is at address `a`: a NODATA routine has no field, no legacy identifier
and EXPLEN 0. -/
def Routine.placedAt (r : Routine) (a : Nat) : Routine :=
  match r.kind with
  | .decode => { r with start := a }
  | .noData => { r with explen := 0#8, legacy := none, fields := [], start := a }

/-- The key of a routine (R96). -/
def Routine.key (r : Routine) : Byte × Byte := (r.control, r.function)

@[simp] theorem Routine.key_placedAt (r : Routine) (a : Nat) : (r.placedAt a).key = r.key := by
  unfold Routine.placedAt; split <;> rfl

end Sys2Proof

namespace Sys2Proof.Machine

/-- Routines one after another as the parse gives them, the first at address `a`. -/
def placedFrom : Nat → List Routine → List Routine
  | _, [] => []
  | a, r :: rs => r.placedAt a :: placedFrom (a + (assembleRoutine r).length) rs

@[simp] theorem map_key_placedFrom (a : Nat) (rs : List Routine) :
    (placedFrom a rs).map Routine.key = rs.map Routine.key := by
  induction rs generalizing a with
  | nil => rfl
  | cons r rs ih => simp [placedFrom, ih]

/-- The words of a routine before whole routines parse to the routine (R102). -/
theorem parseFrom_assembleRoutine {r : Routine} (hr : ∀ i ∈ r.fields, i.isField = true) {a : Nat} {is : List Instr}
    {rs : List Routine} (h : parseFrom (a + (assembleRoutine r).length) is = some (.atHeader rs)) :
    parseFrom a (assembleRoutine r ++ is) = some (.atHeader (r.placedAt a :: rs)) := by
  obtain ⟨c, f, kind, e, legacy, fs, start⟩ := r
  cases kind with
  | noData =>
    have hend : parseFrom (a + 1) (.end_ :: is) = some (.inFields [] rs) := parseFrom_cons_of_rest h _
    exact parseFrom_cons_of_rest hend _
  | decode =>
    cases legacy with
    | none =>
      have hfields : parseFrom (a + 1) (fs ++ .end_ :: is) = some (.inFields fs rs) :=
        parseFrom_fields_end hr (by simpa [assembleRoutine, Nat.add_comm, Nat.add_left_comm] using h)
      simpa [assembleRoutine, Routine.placedAt, parseStep] using parseFrom_cons_of_rest hfields (.rtn false c f e)
    | some fid =>
      have hfields : parseFrom (a + 1 + 1) (fs ++ .end_ :: is) = some (.inFields fs rs) :=
        parseFrom_fields_end hr (by simpa [assembleRoutine, Nat.add_comm, Nat.add_left_comm] using h)
      have hlegacy : parseFrom (a + 1) (.lgcy fid :: (fs ++ .end_ :: is)) = some (.atLegacy fid fs rs) :=
        parseFrom_cons_of_rest hfields _
      simpa [assembleRoutine, Routine.placedAt, parseStep] using parseFrom_cons_of_rest hlegacy (.rtn true c f e)

/-- The words of routines parse to these routines (R102). -/
theorem parseFrom_assembleRoutines {rs : List Routine} (hrs : ∀ r ∈ rs, ∀ i ∈ r.fields, i.isField = true) (a : Nat) :
    parseFrom a (rs.flatMap assembleRoutine) = some (.atHeader (placedFrom a rs)) := by
  induction rs generalizing a with
  | nil => rfl
  | cons r rs ih =>
    obtain ⟨hr, hrs⟩ := List.forall_mem_cons.1 hrs
    exact parseFrom_assembleRoutine hr (ih hrs _)

theorem routines_flatMap_assembleRoutine {rs : List Routine} (hrs : ∀ r ∈ rs, ∀ i ∈ r.fields, i.isField = true) :
    routines (rs.flatMap assembleRoutine) = some (placedFrom 0 rs) :=
  routines_eq_some.2 (parseFrom_assembleRoutines hrs 0)

/-! ### The checks of R104 -/

theorem wfSum_cons (r : Routine) (rs : List Routine) :
    wfSum (r :: rs) = ((r.kind == .noData || widthSum r.fields == r.explen.toNat) && wfSum rs) := rfl

theorem wfSum_iff {rs : List Routine} :
    wfSum rs = true ↔ ∀ r ∈ rs, r.kind = .decode → widthSum r.fields = r.explen.toNat := by
  have hkind : ∀ r : Routine, r.kind = .noData ∨ widthSum r.fields = r.explen.toNat ↔
      (r.kind = .decode → widthSum r.fields = r.explen.toNat) := fun r => by cases r.kind <;> simp
  simp [wfSum, hkind]

/-- Where routines stand, and what the parse leaves out of a NODATA routine, is no matter to `wf_sum`. -/
@[simp] theorem wfSum_placedFrom (a : Nat) (rs : List Routine) : wfSum (placedFrom a rs) = wfSum rs := by
  induction rs generalizing a with
  | nil => rfl
  | cons r rs ih =>
    rw [placedFrom, wfSum_cons, wfSum_cons, ih]
    congr 1
    unfold Routine.placedAt
    split <;> simp_all

theorem wfKeys_iff {rs : List Routine} : wfKeys rs = true ↔ (rs.map Routine.key).Nodup := by
  induction rs with
  | nil => simp [wfKeys]
  | cons r rs ih =>
    have hhead : rs.all (fun q => !(q.control == r.control && q.function == r.function)) = true ↔
        r.key ∉ rs.map Routine.key := by simp [Routine.key, imp_iff_not_or]
    rw [wfKeys, Bool.and_eq_true, hhead, ih, List.map_cons, List.nodup_cons]

@[simp] theorem wfKeys_placedFrom (a : Nat) (rs : List Routine) : wfKeys (placedFrom a rs) = wfKeys rs :=
  Bool.eq_iff_iff.2 (by rw [wfKeys_iff, wfKeys_iff, map_key_placedFrom])

/-- A ROM has no defect exactly when it passes the five checks, one after another. -/
theorem romDefect_eq_none_iff {rom : List Word} :
    romDefect rom = none ↔ rom.length ≤ 65536 ∧ ∃ is rs, decodeRom rom = some is ∧ routines is = some rs ∧
      wfSum rs = true ∧ wfKeys rs = true := by
  refine ⟨romDefect_none, ?_⟩
  rintro ⟨hlen, is, rs, his, hrs, hsum, hkeys⟩
  simp [romDefect, Config.maxRom, hlen, his, hrs, hsum, hkeys]

/-- A ROM's defect is what an instance with no other defect is refused for. -/
theorem paramsDefect_of_romDefect {p : Params} {c : RomCheck} (hcap : 266 ≤ p.bufCap) (htime : p.timeout < 2 ^ p.tsW)
    (h : romDefect (roleRom p) = some c) : paramsDefect p = some (.illFormedRom c) := by
  simp [paramsDefect, Config.maxFrame, Nat.not_lt.2 hcap, Nat.not_le.2 htime, h]

theorem step_refused {s : State} {why : Refusal} (h : paramsDefect s.params = some why) : step s = .refused why := by
  rw [step, h]

/-- Settles O7: the parse and the assembly of R102 are inverse, so the ROMs that parse are those of routines; the checks of
sums and keys do not depend on where the routines stand; and a step looks at the defect of the ROM before anything else. -/
theorem romWellFormedness : Obligations.RomWellFormedness := by
  refine ⟨fun rom => ?_, fun s hcap htime hdefect => ?_⟩
  · rw [romDefect_eq_none_iff]
    refine and_congr_right fun _ => ⟨?_, ?_⟩
    · rintro ⟨is, rs, his, hrs, hsum, hkeys⟩
      refine ⟨rs, ?_, fun r hr => ⟨fun i => isField_of_routines hrs hr, wfSum_iff.1 hsum r hr⟩, ?_⟩
      · rw [flatMap_assembleRoutine_of_routines hrs, his]
      · exact List.pairwise_map.1 (wfKeys_iff.1 hkeys)
    · rintro ⟨rs, his, hfields, hkeys⟩
      refine ⟨_, placedFrom 0 rs, his, routines_flatMap_assembleRoutine fun r hr => (hfields r hr).1, ?_, ?_⟩
      · rw [wfSum_placedFrom, wfSum_iff]
        exact fun r hr => (hfields r hr).2
      · rw [wfKeys_placedFrom, wfKeys_iff]
        exact List.pairwise_map.2 hkeys
  · obtain ⟨c, hc⟩ := Option.ne_none_iff_exists'.1 hdefect
    exact ⟨c, step_refused (paramsDefect_of_romDefect hcap htime hc)⟩

end Sys2Proof.Machine

/-! ### The port commands RESET and IDLE (R120, R121 of 40_bytewindow.md)

Each command's whole next state is written out once; what it leaves unchanged is every field the state does not name. -/

namespace Sys2Proof.Machine

/-- R120, with the outputs cleared by the start of the command and the block waiting for the next one. -/
theorem exec_reset (s : State) :
    exec .reset s =
      .next { s with len := 0, lastTs := 0, res := 0x0#4, ready := false, events := [], data := none, phase := .rest } :=
  rfl

/-- R121: no register is named, so none changes, and `now` is not read. -/
theorem exec_idle (s : State) : exec .idle s = .next { s with ready := false, events := [], data := none } := rfl

theorem exec_reset_idempotent {s t : State} (h : exec .reset s = .next t) : exec .reset t = .next t := by
  rw [exec_reset] at h
  cases h
  rw [exec_reset]

/-- Settles O10: RESET sets the fields it names to fixed values, so a second one finds them there already; its words are those
with bit 9 set. -/
theorem resetCommand : Obligations.ResetCommand := by
  refine ⟨exec_reset, fun _ _ h => exec_reset_idempotent h, fun c h9 => ?_⟩
  rw [decode, decodeCommand_reset h9]

/-- Settles O11: IDLE only starts a command, which clears the outputs; its words are those with bits 9 and 8 clear. -/
theorem idleCommand : Obligations.IdleCommand := by
  refine ⟨exec_idle, fun c h9 h8 => ?_⟩
  rw [decode, decodeCommand_idle h9 h8]

end Sys2Proof.Machine

/-! ### The frame validator (41_frame_validator.md): the start of the buffer

FEED validates the received buffer once. The answers that keep the buffer are written out first, then which of them the first
two bytes decide. -/

namespace Sys2Proof.Machine

theorem exec_feed (s : State) (b : Byte) : exec (.feed b) s = (s.startCommand.receive b).tryValidate := rfl

/-- A code without the *consumed* bit (R128) leaves the buffer and raises no `ready`. -/
theorem State.finish_of_not_consumed (s : State) {c : Code} (hc : c.consumed = false) :
    s.finish c = { s with res := c.toBits, ready := false, phase := .rest } := by
  simp [State.finish, hc]

/-- No event has been produced when FEED comes to the validation: the command starts without one (R35). -/
theorem receive_startCommand_events (s : State) (b : Byte) : (s.startCommand.receive b).events = [] := by
  rw [State.receive_events, State.startCommand_events]

/-- A FEED that ends with the buffer kept has produced no event. -/
theorem finish_receive_of_not_consumed (s : State) (b : Byte) {c : Code} (hc : c.consumed = false) :
    (s.startCommand.receive b).finish c =
      { s.startCommand.receive b with res := c.toBits, ready := false, events := [], phase := .rest } := by
  rw [State.finish_of_not_consumed _ hc, ← receive_startCommand_events s b]

theorem State.tryValidate_of_len_lt_two {s : State} (h : s.len < 2) : s.tryValidate = .next (s.finish .incomplete) := by
  rw [State.tryValidate, if_pos h]

theorem State.tryValidate_of_dead {s : State} (h : s.dead) : s.tryValidate = .next (s.finish .malformedStart) := by
  obtain ⟨hlen, b0, b1, h0, h1, hmarker⟩ := h
  rw [State.tryValidate, if_neg (Nat.not_lt.2 hlen), h0, h1]
  exact if_pos hmarker

/-- Settles O16: R141's two tests come first in the validation, and neither code has the *consumed* bit. -/
theorem feedStartMarkers : Obligations.FeedStartMarkers := by
  refine fun s b => ⟨fun hlen => ?_, fun b0 b1 hlen h0 h1 hmarker => ?_⟩
  · rw [exec_feed, State.tryValidate_of_len_lt_two hlen, finish_receive_of_not_consumed s b rfl]
    rfl
  · have hdead : (s.startCommand.receive b).dead := ⟨hlen, b0, b1, h0, h1, hmarker⟩
    rw [exec_feed, State.tryValidate_of_dead hdead, finish_receive_of_not_consumed s b rfl]
    rfl

end Sys2Proof.Machine

/-! ### Conversions (43_message_decoder.md): decimal numerals

`decimal` writes the digits of Mathlib's `Nat.digits`, most significant first. What RS and FW promise of a numeral is proved
once, for every value. -/

namespace Sys2Proof.Machine

@[simp] theorem digitByte_toNat {d : Nat} (hd : d < 10) : (digitByte d).toNat = 0x30 + d := by
  rw [digitByte, BitVec.toNat_ofNat]
  omega

/-- The accumulator holds the digits already written. A bit of `v` is fuel enough for a digit, for a division by ten takes
away more than one bit. -/
theorem decimalDigits_eq {fuel v : Nat} (hv : 0 < v) (hfuel : v < 2 ^ fuel) (tail : List Byte) :
    decimalDigits fuel v tail = (Nat.digits 10 v).reverse.map digitByte ++ tail := by
  induction fuel generalizing v tail with
  | zero => rw [pow_zero] at hfuel; omega
  | succ fuel ih =>
    rw [decimalDigits]
    split
    next hlt => simp [Nat.digits_of_lt 10 v hv.ne' hlt]
    next hge =>
      rw [pow_succ] at hfuel
      rw [ih (by omega) (by omega), Nat.digits_def' (by decide) hv]
      simp

theorem decimal_zero : decimal 0 = [0x30#8] := rfl

theorem decimal_of_pos {v : Nat} (hv : 0 < v) : decimal v = (Nat.digits 10 v).reverse.map digitByte := by
  rw [decimal, decimalDigits_eq hv Nat.lt_log2_self, List.append_nil]

/-- The value of a numeral, read as the obligations read it. -/
def numeralValue (d : List Byte) : Nat := d.foldl (fun acc b => 10 * acc + (b.toNat - 0x30)) 0

theorem numeralValue_map_digitByte {ds : List Nat} (hds : ∀ d ∈ ds, d < 10) :
    numeralValue (ds.reverse.map digitByte) = Nat.ofDigits 10 ds := by
  induction ds with
  | nil => rfl
  | cons d ds ih =>
    obtain ⟨hd, hds⟩ := List.forall_mem_cons.1 hds
    have hrest := ih hds
    rw [numeralValue] at hrest ⊢
    rw [Nat.ofDigits_cons, ← hrest]
    simp [digitByte_toNat hd, Nat.add_comm]

theorem numeralValue_decimal (v : Nat) : numeralValue (decimal v) = v := by
  obtain rfl | hv := Nat.eq_zero_or_pos v
  · rfl
  · rw [decimal_of_pos hv, numeralValue_map_digitByte fun _ => Nat.digits_lt_base (by decide), Nat.ofDigits_digits]

theorem isDigit_of_mem_decimal {v : Nat} {b : Byte} (hb : b ∈ decimal v) : 0x30 ≤ b.toNat ∧ b.toNat ≤ 0x39 := by
  obtain rfl | hv := Nat.eq_zero_or_pos v
  · rw [decimal_zero, List.mem_singleton] at hb
    subst hb
    decide
  · rw [decimal_of_pos hv, List.mem_map] at hb
    obtain ⟨d, hd, rfl⟩ := hb
    have hlt : d < 10 := Nat.digits_lt_base (by decide) (List.mem_reverse.1 hd)
    rw [digitByte_toNat hlt]
    omega

theorem decimal_ne_nil (v : Nat) : decimal v ≠ [] := by
  obtain rfl | hv := Nat.eq_zero_or_pos v
  · simp [decimal_zero]
  · simpa [decimal_of_pos hv, Nat.digits_ne_nil_iff_ne_zero] using hv.ne'

/-- A positive number's most significant digit is not zero. -/
theorem decimal_head?_of_pos {v : Nat} (hv : 0 < v) : (decimal v).head? ≠ some 0x30#8 := by
  have hne : Nat.digits 10 v ≠ [] := Nat.digits_ne_nil_iff_ne_zero.2 hv.ne'
  have hlt := Nat.digits_lt_base (b := 10) (by decide) (List.getLast_mem hne)
  have hnz := Nat.getLast_digit_ne_zero 10 hv.ne'
  rw [decimal_of_pos hv, List.head?_map, List.head?_reverse, List.getLast?_eq_some_getLast hne, Option.map_some]
  intro h
  have hbyte := congrArg BitVec.toNat (Option.some.inj h)
  rw [digitByte_toNat hlt, BitVec.toNat_ofNat] at hbyte
  omega

theorem decimal_eq_of_head?_eq_zero {v : Nat} (h : (decimal v).head? = some 0x30#8) : decimal v = [0x30#8] := by
  obtain rfl | hv := Nat.eq_zero_or_pos v
  · rfl
  · exact absurd h (decimal_head?_of_pos hv)

theorem runState_of_three_le {v : Nat} (hv : 3 ≤ v) : runState v = decimal v := by
  rw [runState, if_neg (by omega), if_neg (by omega), if_neg (by omega)]

/-- Settles O38: the three names are evaluated, and any other code is printed by `decimal`. -/
theorem runStateStrings : Obligations.RunStateStrings := by
  refine ⟨rfl, rfl, rfl, fun v hv => ⟨decimal v, ?_, fun _ => isDigit_of_mem_decimal, decimal_head?_of_pos (by omega),
    numeralValue_decimal v⟩⟩
  rw [convertValue, Int.toNat_natCast, runState_of_three_le hv]

/-- Settles O39: build is the value's remainder in base 10000, minor the quotient's in base 100; major and build are
printed by `decimal`. -/
theorem firmwareStrings : Obligations.FirmwareStrings := by
  refine fun v => ⟨v / 10000 / 100, v / 10000 % 100, v % 10000, decimal (v / 10000 / 100), decimal (v % 10000),
    by omega, by omega, by omega, rfl, fun b hb => ?_, decimal_eq_of_head?_eq_zero, decimal_eq_of_head?_eq_zero,
    decimal_ne_nil _, decimal_ne_nil _, numeralValue_decimal _, numeralValue_decimal _⟩
  exact (List.mem_append.1 hb).elim isDigit_of_mem_decimal isDigit_of_mem_decimal

end Sys2Proof.Machine

/-! ### NODATA (R195 of 43_message_decoder.md) -/

namespace Sys2Proof.Machine

theorem exec_nodata (ctl fn : Byte) (s : State) : exec (.nodata ctl fn) s = .next (s.finish .noData) := rfl

/-- A code with the *consumed* bit (R128) empties the buffer and raises `ready`. -/
theorem State.finish_of_consumed (s : State) {c : Code} (hc : c.consumed = true) :
    s.finish c = { s with res := c.toBits, ready := true, len := 0, phase := .rest } := by
  simp [State.finish, hc]

/-- Settles O27: NODATA only ends the frame, with a code that has the *consumed* bit. -/
theorem nodataResult : Obligations.NodataResult := by
  intro s c f
  rw [exec_nodata, State.finish_of_consumed s rfl]
  rfl

end Sys2Proof.Machine

/-! ### The scan of the headers (R223, R224 of 44_dispatcher.md)

The scan over a suffix of a ROM answers by the first of the suffix's routines that has the key
(`scanHeaders_of_parseFrom`); where no key occurs twice, that routine is the only one with the key. -/

namespace Sys2Proof.Machine

/-- The scan does not start inside a routine: it compares the key of the next word. -/
def Suffix.isAtHeader : Suffix → Bool
  | .atHeader _ => true
  | .inFields _ _ => false
  | .atLegacy _ _ _ => false

/-- The answer of a scan that ends at address `stop`, from the lookup of R223. -/
def scanOfLookup (stop : Nat) : Option Routine → Scan
  | some r => .found r.start
  | none => .absent stop

theorem lookup_cons_of_key {r : Routine} {c f : Byte} (h : r.key = (c, f)) (rs : List Routine) :
    lookup (r :: rs) c f = some r := by
  obtain ⟨hc, hf⟩ := Prod.mk.inj h
  simp [lookup, hc, hf]

theorem lookup_cons_of_key_ne {r : Routine} {c f : Byte} (h : r.key ≠ (c, f)) (rs : List Routine) :
    lookup (r :: rs) c f = lookup rs c f :=
  List.find?_cons_of_neg (by simpa [Routine.key] using h)

theorem headerKey_of_rtn {w : Word} {lg : Bool} {c f e : Byte} (h : decodeDescriptor w = .ok (.rtn lg c f e)) :
    headerKey w = some (c, f) := by
  rw [headerKey, h]

theorem headerKey_of_nodata {w : Word} {c f : Byte} (h : decodeDescriptor w = .ok (.nodata c f)) :
    headerKey w = some (c, f) := by
  rw [headerKey, h]

/-- The scan at a header: it stops there if the routine has the key, else it goes on inside the routine. -/
theorem scanHeaders_header {c f : Byte} {a stop : Nat} {w : Word} {ws : List Word} {r : Routine} {rs : List Routine}
    (hkey : headerKey w = some r.key) (hstart : r.start = a)
    (hrest : scanHeaders c f false (a + 1) ws = scanOfLookup stop (lookup rs c f)) :
    scanHeaders c f true a (w :: ws) = scanOfLookup stop (lookup (r :: rs) c f) := by
  rw [scanHeaders, hkey]
  by_cases h : r.key = (c, f)
  · rw [lookup_cons_of_key h, ← hstart]
    exact if_pos h
  · rw [lookup_cons_of_key_ne h, ← hrest]
    exact if_neg h

theorem scanHeaders_end (c f : Byte) (a : Nat) (ws : List Word) :
    scanHeaders c f false a (endWord :: ws) = scanHeaders c f true (a + 1) ws := by
  rw [scanHeaders, if_pos rfl]

/-- The scan steps over every word of a routine but its END. -/
theorem scanHeaders_inside {w : Word} {i : Instr} (hw : decodeDescriptor w = .ok i) (hi : i ≠ .end_) (c f : Byte)
    (a : Nat) (ws : List Word) : scanHeaders c f false a (w :: ws) = scanHeaders c f false (a + 1) ws := by
  have hend : w ≠ endWord := fun h => hi (Except.ok.inj (hw.symm.trans (decodeDescriptor_end.2 h)))
  rw [scanHeaders, if_neg hend]

/-- The scan and the parse agree on every suffix of a ROM. -/
theorem scanHeaders_of_parseFrom {ws : List Word} {is : List Instr} {a : Nat} {p : Suffix}
    (hws : decodeRom ws = some is) (hp : parseFrom a is = some p) (c f : Byte) :
    scanHeaders c f p.isAtHeader a ws = scanOfLookup (a + ws.length) (lookup (suffixRoutines p) c f) := by
  induction ws generalizing is a p with
  | nil =>
    cases hws
    cases hp
    rfl
  | cons w ws ih =>
    obtain ⟨i, rest, hw, hrest, rfl⟩ := decodeRom_cons.1 hws
    obtain ⟨q, hq, hstep⟩ := parseFrom_cons hp
    have hscan := ih hrest hq
    rw [Nat.add_right_comm, Nat.add_assoc] at hscan
    rcases hstep with ⟨rfl, rs, rfl, rfl⟩ | ⟨fid, fs, rs, rfl, rfl, rfl⟩ | ⟨c', f', e, fs, rs, rfl, rfl, rfl⟩ |
      ⟨c', f', e, fid, fs, rs, rfl, rfl, rfl⟩ | ⟨c', f', rs, rfl, rfl, rfl⟩ | ⟨fs, rs, hi, rfl, rfl⟩
    · obtain rfl := decodeDescriptor_end.1 hw
      exact (scanHeaders_end c f a ws).trans hscan
    · exact (scanHeaders_inside hw nofun c f a ws).trans hscan
    · exact scanHeaders_header (headerKey_of_rtn hw) rfl hscan
    · exact scanHeaders_header (headerKey_of_rtn hw) rfl hscan
    · exact scanHeaders_header (headerKey_of_nodata hw) rfl hscan
    · exact (scanHeaders_inside hw (by rintro rfl; cases hi) c f a ws).trans hscan

/-- The scan of a whole ROM is the lookup of R223 among its routines. -/
theorem scanHeaders_of_routines {rom : List Word} {is : List Instr} {rs : List Routine} (his : decodeRom rom = some is)
    (hrs : routines is = some rs) (c f : Byte) :
    scanHeaders c f true 0 rom = scanOfLookup rom.length (lookup rs c f) := by
  have hscan := scanHeaders_of_parseFrom his (routines_eq_some.1 hrs) c f
  rwa [Nat.zero_add] at hscan

theorem lookup_eq_none_iff {rs : List Routine} {c f : Byte} :
    lookup rs c f = none ↔ ∀ r ∈ rs, ¬(r.control = c ∧ r.function = f) := by
  simp [lookup]

/-- `wf_keys` makes the lookup of R223 a function: a routine that has the key is the one it answers. -/
theorem lookup_of_mem {rs : List Routine} (hkeys : wfKeys rs = true) {r : Routine} (hr : r ∈ rs) :
    lookup rs r.control r.function = some r := by
  induction rs with
  | nil => cases hr
  | cons q rs ih =>
    obtain ⟨hq, hrs⟩ := List.nodup_cons.1 (wfKeys_iff.1 hkeys)
    rcases List.mem_cons.1 hr with rfl | hr
    · exact lookup_cons_of_key rfl rs
    · have hne : q.key ≠ r.key := fun h => hq (h ▸ List.mem_map_of_mem hr)
      rw [lookup_cons_of_key_ne hne, ih (wfKeys_iff.2 hrs) hr]

theorem wfKeys_of_romDefect {rom : List Word} {is : List Instr} {rs : List Routine} (hrom : romDefect rom = none)
    (his : decodeRom rom = some is) (hrs : routines is = some rs) : wfKeys rs = true := by
  obtain ⟨-, is', rs', his', hrs', -, hkeys⟩ := romDefect_none hrom
  obtain rfl := Option.some.inj (his'.symm.trans his)
  obtain rfl := Option.some.inj (hrs'.symm.trans hrs)
  exact hkeys

theorem scanHeaders_found {rom : List Word} {is : List Instr} {rs : List Routine} (hrom : romDefect rom = none)
    (his : decodeRom rom = some is) (hrs : routines is = some rs) {r : Routine} (hr : r ∈ rs) :
    scanHeaders r.control r.function true 0 rom = .found r.start := by
  rw [scanHeaders_of_routines his hrs, lookup_of_mem (wfKeys_of_romDefect hrom his hrs) hr]
  rfl

theorem scanHeaders_absent {rom : List Word} {is : List Instr} {rs : List Routine} (his : decodeRom rom = some is)
    (hrs : routines is = some rs) {c f : Byte} (hno : ∀ r ∈ rs, ¬(r.control = c ∧ r.function = f)) :
    scanHeaders c f true 0 rom = .absent rom.length := by
  rw [scanHeaders_of_routines his hrs, lookup_eq_none_iff.2 hno]
  rfl

/-- Settles O8: the scan is the lookup of R223, by induction on the words along the parse, and with no key twice the lookup
answers the one routine that has the key. -/
theorem scanFindsTheRoutine : Obligations.ScanFindsTheRoutine := by
  intro rom is rs hrom his hrs c f
  refine ⟨?_, scanHeaders_absent his hrs, ?_⟩
  · rintro r hr rfl rfl
    exact scanHeaders_found hrom his hrs hr
  · rintro r hr q hq rfl rfl hqc hqf
    have hkeys := wfKeys_of_romDefect hrom his hrs
    have hlookup : some q = some r := by rw [← lookup_of_mem hkeys hq, hqc, hqf, lookup_of_mem hkeys hr]
    exact (Option.some.inj hlookup).symm

end Sys2Proof.Machine

/-! ### A frame with a good checksum (R144 to R147 of 41_frame_validator.md) and an unknown key (R225)

Each later step of the validation is said once for the case in which it goes on; together they bring FEED to the dispatch
with the header fields and both checksums in the registers (`exec_feed_good`). -/

namespace Sys2Proof.Machine

/-- A byte of BUF is the byte of the buffer at its index. -/
theorem State.getElem?_of_buffer {s : State} {raw : List Byte} (h : s.buffer = some raw) {i : Nat} (hi : i < s.len) :
    raw[i]? = s.buf i := by
  obtain ⟨-, hget⟩ := readRun_eq_some.1 h
  rw [← hget i hi, Nat.zero_add]

/-- RCV takes the first checksum byte high (R145). -/
theorem receivedOf_pair (hi lo : Byte) : receivedOf [hi, lo] = hi ++ lo := by
  apply BitVec.eq_of_toNat_eq
  have hlo := lo.isLt
  have hhi := hi.isLt
  simp only [receivedOf, bigEndian, List.foldl, BitVec.toNat_ofNat, BitVec.toNat_append]
  rw [← Nat.shiftLeft_add_eq_or_of_lt hlo, Nat.shiftLeft_eq]
  omega

theorem take_two_drop {raw : List Byte} {i : Nat} {x y : Byte} (hx : raw[i]? = some x) (hy : raw[i + 1]? = some y) :
    (raw.drop i).take 2 = [x, y] := by
  obtain ⟨hi, rfl⟩ := List.getElem?_eq_some_iff.1 hx
  obtain ⟨hi', rfl⟩ := List.getElem?_eq_some_iff.1 hy
  rw [List.drop_eq_getElem_cons hi, List.drop_eq_getElem_cons hi']
  rfl

theorem State.tryValidate_of_wellStarted {s : State} {c f n : Byte} (h : s.wellStarted) (hlen : 11 ≤ s.len)
    (hc : s.buf 6 = some c) (hf : s.buf 7 = some f) (hn : s.buf 8 = some n) : s.tryValidate = s.checkLength c f n := by
  obtain ⟨h2, h0, h1⟩ := h
  simp [State.tryValidate, Config.minFrame, Nat.not_lt.2 h2, Nat.not_lt.2 hlen, h0, h1, hc, hf, hn]

theorem State.checkLength_of_whole {s : State} {n : Byte} {raw : List Byte} (hlen : 11 + n.toNat ≤ s.len)
    (hraw : s.buffer = some raw) (c f : Byte) :
    s.checkLength c f n = ({ s with ctl := c, fn := f, n := n } : State).checkFrame raw := by
  have hlong : ¬ s.len < Config.hdrLen + n.toNat + Config.ckLen := by
    simp only [Config.hdrLen, Config.ckLen]
    omega
  rw [State.checkLength, if_neg hlong, show s.bufSlice 0 s.len = some raw from hraw]

theorem State.checkFrame_of_match {s : State} {raw : List Byte} {ck : Half}
    (hsum : checksumOf (raw.take (9 + s.n.toNat)) = ck)
    (hrcv : receivedOf ((raw.drop (9 + s.n.toNat)).take 2) = ck) :
    s.checkFrame raw = ({ s with sum := ck, rcv := ck } : State).dispatch := by
  simp [State.checkFrame, Config.hdrLen, Config.ckLen, hsum, hrcv]

/-- FEED of the byte that completes a frame with a good checksum comes to the dispatch. -/
theorem exec_feed_good {s : State} {b c f n hi lo : Byte} {raw : List Byte}
    (hraw : (s.startCommand.receive b).buffer = some raw) (hstart : (s.startCommand.receive b).wellStarted)
    (hlen : 11 + n.toNat ≤ (s.startCommand.receive b).len)
    (hc : (s.startCommand.receive b).buf 6 = some c) (hf : (s.startCommand.receive b).buf 7 = some f)
    (hn : (s.startCommand.receive b).buf 8 = some n)
    (hhi : (s.startCommand.receive b).buf (9 + n.toNat) = some hi)
    (hlo : (s.startCommand.receive b).buf (10 + n.toNat) = some lo)
    (hck : checksumOf (raw.take (9 + n.toNat)) = hi ++ lo) :
    exec (.feed b) s =
      ({ s.startCommand.receive b with ctl := c, fn := f, n := n, sum := hi ++ lo, rcv := hi ++ lo } : State).dispatch := by
  have hrawhi : raw[9 + n.toNat]? = some hi := by rw [State.getElem?_of_buffer hraw (by omega), hhi]
  have hrawlo : raw[9 + n.toNat + 1]? = some lo := by
    rw [State.getElem?_of_buffer hraw (by omega), Nat.add_right_comm, hlo]
  have hrcv : receivedOf ((raw.drop (9 + n.toNat)).take 2) = hi ++ lo := by
    rw [take_two_drop hrawhi hrawlo, receivedOf_pair]
  rw [exec_feed, State.tryValidate_of_wellStarted hstart (by omega) hc hf hn, State.checkLength_of_whole hlen hraw,
    State.checkFrame_of_match hck hrcv]

/-- The ROM is that of the straps, which neither the start of a command nor the append changes. -/
theorem receive_startCommand_rom (s : State) (b : Byte) : (s.startCommand.receive b).rom = s.rom := by
  rw [State.rom, State.receive_params, State.startCommand_params, State.rom]

/-- R225: an unknown key is reported and the frame is consumed. -/
theorem State.dispatch_of_absent {s : State} {a : Nat} (h : scanHeaders s.ctl s.fn true 0 s.rom = .absent a) :
    s.dispatch = .next ((({ s with plen := s.n, dp := BitVec.ofNat 16 a } : State).emit
      (.unknownKey s.params.role s.ctl s.fn)).finish .unknown) := by
  rw [State.dispatch, h]

/-- Settles O19: the good frame comes to the dispatch, whose scan finds no header with the key; no event stands before the
report, and UNKNOWN has the *consumed* bit. -/
theorem feedUnknownKey : Obligations.FeedUnknownKey := by
  intro s b c f n hi lo raw is rs u hraw h2 h0 h1 hlen hc hf hn hhi hlo hck _ his hrs hno
  have hscan : scanHeaders c f true 0 u.rom = .absent s.rom.length := by
    rw [receive_startCommand_rom, scanHeaders_absent his hrs hno]
  exact ⟨_, (exec_feed_good hraw ⟨h2, h0, h1⟩ hlen hc hf hn hhi hlo hck).trans (State.dispatch_of_absent hscan),
    by simp, rfl, rfl, rfl, rfl, rfl, by simp, rfl⟩

end Sys2Proof.Machine

/-! ### The clock wrap (R287 of 70_reset_and_hazards.md): the elapsed time and the byte FEED receives

What the timeout discard and the append do is said once for each of their two cases; the wrap is then arithmetic modulo
2^TS_W. -/

namespace Sys2Proof.Machine

/-- Reducing `now` to the width of its port before the subtraction changes nothing modulo 2^TS_W. -/
theorem elapsed_mod_of_gap (tsW last gap : Nat) : elapsed tsW ((last + gap) % 2 ^ tsW) last = gap % 2 ^ tsW := by
  have hwrap : (((last + gap) % 2 ^ tsW : Nat) - (last : Int)) % ((2 ^ tsW : Nat) : Int) = ((gap % 2 ^ tsW : Nat) : Int) := by
    rw [Int.natCast_mod, Int.emod_sub_emod, Int.natCast_add, add_sub_cancel_left, Int.natCast_mod]
  rw [elapsed, hwrap, Int.toNat_natCast]

theorem State.timeoutDiscard_of_le {s : State} (h : elapsed s.params.tsW s.nowPort s.lastTs ≤ s.params.timeout) :
    s.timeoutDiscard = s := by
  simp [State.timeoutDiscard, State.timedOut, Nat.not_lt.2 h]

theorem State.timeoutDiscard_of_lt {s : State} (h : s.params.timeout < elapsed s.params.tsW s.nowPort s.lastTs) :
    s.timeoutDiscard = { s with len := 0 } := by
  simp [State.timeoutDiscard, State.timedOut, h]

/-- R125 below saturation. -/
theorem State.append_of_len_lt {s : State} (h : s.len < s.params.bufCap) (b : Byte) :
    s.append b = { s with mem := Memory.write s.mem s.len b, len := s.len + 1 } := by
  simp [State.append, State.appendAddr, h]

theorem State.append_len_of_lt {s : State} (h : s.len < s.params.bufCap) (b : Byte) : (s.append b).len = s.len + 1 := by
  rw [State.append_of_len_lt h]

/-- The appended byte stands at the old LEN. -/
theorem State.buf_append_len {s : State} (h : s.len < s.params.bufCap) (b : Byte) : (s.append b).buf s.len = some b := by
  rw [State.append_of_len_lt h, State.buf_of_lt (Nat.lt_succ_self s.len), Memory.read_write_same]

/-- The append leaves the bytes below LEN. -/
theorem State.buf_append_of_lt {s : State} (h : s.len < s.params.bufCap) (b : Byte) {i : Nat} (hi : i < s.len) :
    (s.append b).buf i = s.buf i := by
  rw [State.append_of_len_lt h, State.buf_of_lt (Nat.lt_succ_of_lt hi), Memory.read_write_other _ _ hi.ne,
    State.buf_of_lt hi]

/-- Settles O15: the port's reduction of `now` and the modular subtraction leave the gap modulo 2^TS_W, which decides whether
the byte is appended to the bytes that stand or to the empty buffer. -/
theorem clockWrapAliases : Obligations.ClockWrapAliases := by
  intro s b gap hcap _ hnow
  have helapsed : elapsed s.params.tsW s.nowPort s.lastTs = gap % 2 ^ s.params.tsW := by
    rw [State.nowPort, hnow, elapsed_mod_of_gap]
  rw [helapsed]
  refine ⟨rfl, Nat.mod_eq_of_lt, fun hkeep => ?_, fun hdrop => ?_⟩
  · have hstamped : s.stamp.len < s.stamp.params.bufCap := hcap
    rw [State.receive, State.timeoutDiscard_of_le (helapsed.trans_le hkeep)]
    exact ⟨State.append_len_of_lt hstamped b, State.buf_append_len hstamped b,
      fun i hi => State.buf_append_of_lt hstamped b hi⟩
  · have hemptied : ({ s with len := 0 } : State).stamp.len < s.params.bufCap := Nat.zero_lt_of_lt hcap
    rw [State.receive, State.timeoutDiscard_of_lt (hdrop.trans_eq helapsed.symm)]
    exact ⟨State.append_len_of_lt hemptied b, State.buf_append_len hemptied b⟩

end Sys2Proof.Machine

/-! ### Descriptor words (R91 to R95): the decoder answers what the encoder wrote -/

namespace Sys2Proof

theorem decodeHeader_rtn (lg : Bool) (c f e : Byte) :
    decodeHeader (headerWord 0b00#2 lg c f e) = .ok (.rtn lg c f e) := by
  simp [decodeHeader, headerWord_kind, headerWord_lg_getElem, headerWord_reserved_getElem, headerWord_control,
    headerWord_function, headerWord_explen]

theorem decodeHeader_nodata (c f : Byte) :
    decodeHeader (headerWord 0b01#2 false c f 0#8) = .ok (.nodata c f) := by
  simp [decodeHeader, headerWord_kind, headerWord_lg_getElem, headerWord_reserved_getElem, headerWord_control,
    headerWord_function, headerWord_explen]

theorem decodeLegacy_lgcy (fid : Fid) : decodeLegacy (legacyWord fid) = .ok (.lgcy fid) := by
  simp [decodeLegacy, legacyWord_reserved, legacyWord_fid]

theorem decodeInteger_unsigned (wsel : BitVec 2) (conv : Conv) (fid : Fid) :
    decodeInteger (integerWord false wsel conv fid) = .ok (unsignedRead wsel conv fid) := by
  simp [decodeInteger, integerWord_reserved, integerWord_conv, integerWord_divsel, decodeConv_sel, integerWord_wsel,
    integerWord_fid, integerWord_sgn_getElem]

theorem decodeInteger_signed (wsel : BitVec 2) (k : BitVec 2) (fid : Fid) :
    decodeInteger (integerWord true wsel (.num k) fid) = .ok (signedRead wsel k fid) := by
  simp [decodeInteger, integerWord_reserved, integerWord_conv, integerWord_divsel, decodeConv_sel, integerWord_wsel,
    integerWord_fid, integerWord_sgn_getElem]

theorem decodeSlice_skip {n : Byte} (hn : n ≠ 0#8) : decodeSlice (sliceWord 0b00#2 false n 0#12) = .ok (.skip n) := by
  simp [decodeSlice, sliceWord_rend, sliceWord_supp_getElem, sliceWord_reservedHigh_getElem, sliceWord_reservedLow,
    sliceWord_lenf, sliceWord_fid, hn]

theorem decodeSlice_text (supp : Bool) {n : Byte} (hn : n ≠ 0#8) (fid : Fid) :
    decodeSlice (sliceWord 0b01#2 supp n fid) = .ok (.text supp n fid) := by
  simp [decodeSlice, sliceWord_rend, sliceWord_supp_getElem, sliceWord_reservedHigh_getElem, sliceWord_reservedLow,
    sliceWord_lenf, sliceWord_fid, hn]

theorem decodeSlice_bits {n : Byte} (hn : n ≠ 0#8) (fid : Fid) :
    decodeSlice (sliceWord 0b10#2 false n fid) = .ok (.bits n fid) := by
  simp [decodeSlice, sliceWord_rend, sliceWord_supp_getElem, sliceWord_reservedHigh_getElem, sliceWord_reservedLow,
    sliceWord_lenf, sliceWord_fid, hn]

theorem decodeCommand_feedWord (b : Byte) : decodeCommand (0x100#10 ||| b.setWidth 10) = .feed b := by
  have h9 : (0x100#10 ||| b.setWidth 10).getLsbD 9 = false := by simp
  have h8 : (0x100#10 ||| b.setWidth 10).getLsbD 8 = true := by simp
  rw [decodeCommand_feed h9 h8, BitVec.setWidth_or, BitVec.setWidth_setWidth_of_le _ (by decide)]
  simp

/-- Settles O3: a port word by its bits 9 and 8; a descriptor by its class, and then by the fields its format reads back. -/
theorem decodeOfEncode : Obligations.DecodeOfEncode := by
  intro i hi
  cases i with
  | reset => rfl
  | idle => rfl
  | feed b => exact congrArg Except.ok (decodeCommand_feedWord b)
  | regrd n => rfl
  | rtn lg c f e => exact (decodeDescriptor_header ..).trans (decodeHeader_rtn lg c f e)
  | nodata c f => exact (decodeDescriptor_header ..).trans (decodeHeader_nodata c f)
  | lgcy fid => exact (decodeDescriptor_legacy fid).trans (decodeLegacy_lgcy fid)
  | u8 conv fid => exact (decodeDescriptor_integer ..).trans (decodeInteger_unsigned 0#2 conv fid)
  | u16 conv fid => exact (decodeDescriptor_integer ..).trans (decodeInteger_unsigned 1#2 conv fid)
  | u24 conv fid => exact (decodeDescriptor_integer ..).trans (decodeInteger_unsigned 2#2 conv fid)
  | u32 conv fid => exact (decodeDescriptor_integer ..).trans (decodeInteger_unsigned 3#2 conv fid)
  | s8 k fid => exact (decodeDescriptor_integer ..).trans (decodeInteger_signed 0#2 k fid)
  | s16 k fid => exact (decodeDescriptor_integer ..).trans (decodeInteger_signed 1#2 k fid)
  | s24 k fid => exact (decodeDescriptor_integer ..).trans (decodeInteger_signed 2#2 k fid)
  | s32 k fid => exact (decodeDescriptor_integer ..).trans (decodeInteger_signed 3#2 k fid)
  | skip n => exact (decodeDescriptor_slice ..).trans (decodeSlice_skip (by simpa [Instr.wf] using hi))
  | text supp n fid => exact (decodeDescriptor_slice ..).trans (decodeSlice_text supp (by simpa [Instr.wf] using hi) fid)
  | bits n fid => exact (decodeDescriptor_slice ..).trans (decodeSlice_bits (by simpa [Instr.wf] using hi) fid)
  | end_ => exact decodeDescriptor_end.2 rfl

/-! ### Legal descriptor words are encodings (R102)

Each format's word is put together again from the fields the decoder reads; what the decoder then answers is encoded as
that word. -/

end Sys2Proof

namespace Sys2Proof

theorem getLsbD_placeField_bitField (w : Word) (lo len i : Nat) (hi : i < 32) :
    (placeField lo (bitField w lo len)).getLsbD i = (decide (lo ≤ i ∧ i < lo + len) && w.getLsbD i) := by
  by_cases hlo : lo ≤ i
  · have hlen : i - lo < len ↔ i < lo + len := by omega
    simp [placeField, bitField, hi, hlo, hlen, Nat.not_lt.2 hlo]
  · simp [placeField, bitField, hlo, Nat.lt_of_not_le hlo]

/-- Two fields that stand next to each other are one field. -/
theorem placeField_or_placeField {w : Word} {hi k lo len : Nat} (h : hi = lo + len) :
    placeField hi (bitField w hi k) ||| placeField lo (bitField w lo len) = placeField lo (bitField w lo (k + len)) := by
  apply BitVec.eq_of_getLsbD_eq
  intro i hi
  rw [BitVec.getLsbD_or, getLsbD_placeField_bitField w _ _ i hi, getLsbD_placeField_bitField w _ _ i hi,
    getLsbD_placeField_bitField w _ _ i hi, ← Bool.and_or_distrib_right, ← Bool.decide_or]
  congr 2
  apply propext
  omega

/-- A reserved field below a field adds nothing. -/
theorem placeField_of_reserved {w : Word} {hi k lo len : Nat} (h : hi = lo + len) (hres : bitField w lo len = 0#len) :
    placeField hi (bitField w hi k) = placeField lo (bitField w lo (k + len)) := by
  rw [← placeField_or_placeField h, hres]
  simp [placeField]

theorem ofBool_getLsbD (w : Word) (i : Nat) : BitVec.ofBool (w.getLsbD i) = bitField w i 1 := by
  ext j hj
  obtain rfl : j = 0 := by omega
  simp [bitField]

theorem bitField_one_eq_zero {w : Word} {i : Nat} (h : w.getLsbD i = false) : bitField w i 1 = 0#1 := by
  rw [← ofBool_getLsbD, h]
  rfl

/-- The field of all bits is the word. -/
theorem placeField_bitField_whole (w : Word) : placeField 0 (bitField w 0 32) = w := by
  simp [placeField, bitField]

theorem headerWord_bitFields {w : Word} (hcls : bitField w 28 4 = 0x1#4) (h24 : w.getLsbD 24 = false) :
    headerWord (bitField w 26 2) (w.getLsbD 25) (bitField w 16 8) (bitField w 8 8) (bitField w 0 8) = w := by
  rw [headerWord, ← hcls, ofBool_getLsbD, placeField_or_placeField, placeField_or_placeField,
    placeField_of_reserved (lo := 24) ?_ (bitField_one_eq_zero h24), placeField_or_placeField,
    placeField_or_placeField, placeField_or_placeField, placeField_bitField_whole]
  all_goals rfl

theorem legacyWord_bitFields {w : Word} (hcls : bitField w 28 4 = 0x2#4) (hres : bitField w 12 16 = 0#16) :
    legacyWord (bitField w 0 12) = w := by
  rw [legacyWord, ← hcls, placeField_of_reserved (lo := 12) ?_ hres, placeField_or_placeField,
    placeField_bitField_whole]
  all_goals rfl

theorem integerWord_bitFields {w : Word} {conv : Conv} (hcls : bitField w 28 4 = 0x3#4) (hres : bitField w 12 9 = 0#9)
    (hsel : bitField w 23 2 = conv.sel) (hdiv : bitField w 21 2 = conv.divsel) :
    integerWord (w.getLsbD 27) (bitField w 25 2) conv (bitField w 0 12) = w := by
  rw [integerWord, ← hcls, ← hsel, ← hdiv, ofBool_getLsbD, placeField_or_placeField, placeField_or_placeField,
    placeField_or_placeField, placeField_or_placeField, placeField_of_reserved (lo := 12) ?_ hres,
    placeField_or_placeField, placeField_bitField_whole]
  all_goals rfl

theorem sliceWord_bitFields {w : Word} (hcls : bitField w 28 4 = 0x4#4) (h24 : w.getLsbD 24 = false)
    (hres : bitField w 12 4 = 0#4) :
    sliceWord (bitField w 26 2) (w.getLsbD 25) (bitField w 16 8) (bitField w 0 12) = w := by
  rw [sliceWord, ← hcls, ofBool_getLsbD, placeField_or_placeField, placeField_or_placeField,
    placeField_of_reserved (lo := 24) ?_ (bitField_one_eq_zero h24), placeField_or_placeField,
    placeField_of_reserved (lo := 12) ?_ hres, placeField_or_placeField, placeField_bitField_whole]
  all_goals rfl

/-- The class of a word selects the format its decoding is (R90). -/
theorem decodeDescriptor_cases (w : Word) :
    (bitField w 28 4 = 0x1#4 ∧ decodeDescriptor w = decodeHeader w) ∨
    (bitField w 28 4 = 0x2#4 ∧ decodeDescriptor w = decodeLegacy w) ∨
    (bitField w 28 4 = 0x3#4 ∧ decodeDescriptor w = decodeInteger w) ∨
    (bitField w 28 4 = 0x4#4 ∧ decodeDescriptor w = decodeSlice w) ∨
    (bitField w 28 4 = 0xF#4 ∧ decodeDescriptor w = if w = 0xF0000000#32 then .ok .end_ else .error .badEnd) ∨
    ((bitField w 28 4 = 0x0#4 ∨ (5 ≤ (bitField w 28 4).toNat ∧ (bitField w 28 4).toNat ≤ 14)) ∧
      decodeDescriptor w = .error .noClass) := by
  unfold decodeDescriptor
  generalize bitField w 28 4 = cls
  dsimp only
  split
  · next h => exact .inl ⟨h, rfl⟩
  · split
    · next h => exact .inr (.inl ⟨h, rfl⟩)
    · split
      · next h => exact .inr (.inr (.inl ⟨h, rfl⟩))
      · split
        · next h => exact .inr (.inr (.inr (.inl ⟨h, rfl⟩)))
        · split
          · next h => exact .inr (.inr (.inr (.inr (.inl ⟨h, rfl⟩))))
          · exact .inr (.inr (.inr (.inr (.inr ⟨by bv_omega, rfl⟩))))

theorem encode_of_decodeHeader {w : Word} {i : Instr} (hcls : bitField w 28 4 = 0x1#4) (h : decodeHeader w = .ok i) :
    i.wf = true ∧ encode i = .word w := by
  unfold decodeHeader at h
  dsimp only at h
  split at h
  · cases h
  next h24 =>
    have hw := headerWord_bitFields hcls (Bool.eq_false_iff.2 h24)
    split at h
    next hkind =>
      cases h
      exact ⟨rfl, congrArg Encoded.word (by rw [← hkind, hw])⟩
    next =>
      split at h
      next hkind =>
        split at h
        · cases h
        next hlg =>
          split at h
          · cases h
          next he =>
            cases h
            rw [hkind, Bool.eq_false_iff.2 hlg, not_not.1 he] at hw
            exact ⟨rfl, congrArg Encoded.word hw⟩
      next => cases h

theorem encode_of_decodeLegacy {w : Word} {i : Instr} (hcls : bitField w 28 4 = 0x2#4) (h : decodeLegacy w = .ok i) :
    i.wf = true ∧ encode i = .word w := by
  unfold decodeLegacy at h
  split at h
  · cases h
  next hres =>
    cases h
    exact ⟨rfl, congrArg Encoded.word (legacyWord_bitFields hcls (not_not.1 hres))⟩

theorem sel_divsel_of_decodeConv {x k : BitVec 2} {conv : Conv} (h : decodeConv x k = .ok conv) :
    x = conv.sel ∧ k = conv.divsel := by
  unfold decodeConv at h
  split at h
  next hx =>
    cases h
    exact ⟨hx, rfl⟩
  next =>
    split at h
    next hx =>
      split at h
      · cases h
      next hk =>
        cases h
        exact ⟨hx, not_not.1 hk⟩
    next =>
      split at h
      next hx =>
        split at h
        · cases h
        next hk =>
          cases h
          exact ⟨hx, not_not.1 hk⟩
      next => cases h

theorem bitVec_two_cases (x : BitVec 2) : x = 0#2 ∨ x = 1#2 ∨ x = 2#2 ∨ x = 3#2 := by
  bv_omega

theorem encode_unsignedRead (wsel : BitVec 2) (conv : Conv) (fid : Fid) :
    (unsignedRead wsel conv fid).wf = true ∧
      encode (unsignedRead wsel conv fid) = .word (integerWord false wsel conv fid) := by
  rcases bitVec_two_cases wsel with rfl | rfl | rfl | rfl <;> exact ⟨rfl, rfl⟩

theorem encode_signedRead (wsel k : BitVec 2) (fid : Fid) :
    (signedRead wsel k fid).wf = true ∧
      encode (signedRead wsel k fid) = .word (integerWord true wsel (.num k) fid) := by
  rcases bitVec_two_cases wsel with rfl | rfl | rfl | rfl <;> exact ⟨rfl, rfl⟩

theorem encode_of_decodeInteger {w : Word} {i : Instr} (hcls : bitField w 28 4 = 0x3#4) (h : decodeInteger w = .ok i) :
    i.wf = true ∧ encode i = .word w := by
  unfold decodeInteger at h
  dsimp only at h
  split at h
  · cases h
  next hres =>
    split at h
    · cases h
    next conv hconv =>
      obtain ⟨hsel, hdiv⟩ := sel_divsel_of_decodeConv hconv
      have hw := integerWord_bitFields hcls (not_not.1 hres) hsel hdiv
      split at h
      next hsgn =>
        rw [hsgn] at hw
        cases conv with
        | num k =>
          cases h
          exact (encode_signedRead _ k _).imp_right (·.trans (congrArg Encoded.word hw))
        | rs => cases h
        | fw => cases h
      next hsgn =>
        rw [Bool.eq_false_iff.2 hsgn] at hw
        cases h
        exact (encode_unsignedRead _ conv _).imp_right (·.trans (congrArg Encoded.word hw))

theorem encode_of_decodeSlice {w : Word} {i : Instr} (hcls : bitField w 28 4 = 0x4#4) (h : decodeSlice w = .ok i) :
    i.wf = true ∧ encode i = .word w := by
  unfold decodeSlice at h
  dsimp only at h
  split at h
  · cases h
  next h24 =>
    split at h
    · cases h
    next hres =>
      have hw := sliceWord_bitFields hcls (Bool.eq_false_iff.2 h24) (not_not.1 hres)
      split at h
      · cases h
      next hrend =>
        split at h
        · cases h
        next hsupp =>
          split at h
          · cases h
          next hn =>
            have hwf : (bitField w 16 8 != 0#8) = true := bne_iff_ne.2 hn
            have hplain : bitField w 26 2 ≠ 0b01#2 → w.getLsbD 25 = false := fun hr =>
              Bool.eq_false_iff.2 fun hs => hsupp ⟨hs, hr⟩
            split at h
            next hskip =>
              split at h
              · cases h
              next hfid =>
                cases h
                rw [hplain (by rw [hskip]; decide), hskip, not_not.1 hfid] at hw
                exact ⟨hwf, congrArg Encoded.word hw⟩
            next hskip =>
              split at h
              next htext =>
                cases h
                rw [htext] at hw
                exact ⟨hwf, congrArg Encoded.word hw⟩
              next htext =>
                cases h
                have hbits : bitField w 26 2 = 0b10#2 := by
                  rcases bitVec_two_cases (bitField w 26 2) with h | h | h | h
                  exacts [absurd h hskip, absurd h htext, h, absurd h hrend]
                rw [hplain htext, hbits] at hw
                exact ⟨hwf, congrArg Encoded.word hw⟩

/-- Settles O4: by the format the class selects; the fields the decoder reads, with the reserved bits it has seen to be 0,
are all the bits of the word. -/
theorem encodeOfDecode : Obligations.EncodeOfDecode := by
  intro w i h
  rcases decodeDescriptor_cases w with ⟨hcls, hw⟩ | ⟨hcls, hw⟩ | ⟨hcls, hw⟩ | ⟨hcls, hw⟩ | ⟨-, hw⟩ | ⟨-, hw⟩ <;>
    rw [hw] at h
  · exact encode_of_decodeHeader hcls h
  · exact encode_of_decodeLegacy hcls h
  · exact encode_of_decodeInteger hcls h
  · exact encode_of_decodeSlice hcls h
  · split at h
    next hend =>
      cases h
      exact ⟨rfl, congrArg Encoded.word hend.symm⟩
    next => cases h
  · cases h

/-! ### The illegal words (R98), format by format -/

/-- A check that rejects, before the rest of a decoder. -/
theorem exists_error_ite {α : Type} {p : Prop} [Decidable p] {a : Illegal} {rest : Except Illegal α} :
    (∃ e, (if p then .error a else rest) = .error e) ↔ p ∨ ∃ e, rest = .error e := by
  by_cases hp : p <;> simp [hp]

theorem not_exists_error_ok {α : Type} {x : α} : ¬∃ e : Illegal, (.ok x : Except Illegal α) = .error e := nofun

theorem decodeHeader_error_iff (w : Word) :
    (∃ e, decodeHeader w = .error e) ↔
      w.getLsbD 24 = true ∨ (bitField w 26 2 = 0b10#2 ∨ bitField w 26 2 = 0b11#2) ∨
        (bitField w 26 2 = 0b01#2 ∧ (w.getLsbD 25 = true ∨ bitField w 0 8 ≠ 0#8)) := by
  unfold decodeHeader
  rw [exists_error_ite]
  refine or_congr_right ?_
  rcases bitVec_two_cases (bitField w 26 2) with hkind | hkind | hkind | hkind <;> rw [hkind]
  · simp
  · rw [if_neg (by decide), if_pos rfl, exists_error_ite, exists_error_ite]
    simp
  · simp
  · simp

theorem decodeLegacy_error_iff (w : Word) : (∃ e, decodeLegacy w = .error e) ↔ bitField w 12 16 ≠ 0#16 := by
  rw [decodeLegacy, exists_error_ite, or_iff_left not_exists_error_ok]

theorem decodeConv_error_iff (x k : BitVec 2) :
    (∃ e, decodeConv x k = .error e) ↔ x = 0b11#2 ∨ (k ≠ 0#2 ∧ x ≠ 0b00#2) := by
  by_cases hk : k = 0#2 <;> rcases bitVec_two_cases x with rfl | rfl | rfl | rfl <;> simp [decodeConv, hk]

theorem converts_of_decodeConv {x k : BitVec 2} {conv : Conv} (h : decodeConv x k = .ok conv) :
    x ≠ 0b00#2 ↔ conv = .rs ∨ conv = .fw := by
  rw [(sel_divsel_of_decodeConv h).1]
  cases conv <;> simp [Conv.sel]

theorem decodeInteger_error_iff (w : Word) :
    (∃ e, decodeInteger w = .error e) ↔
      bitField w 12 9 ≠ 0#9 ∨ bitField w 23 2 = 0b11#2 ∨ (bitField w 21 2 ≠ 0#2 ∧ bitField w 23 2 ≠ 0b00#2) ∨
        (w.getLsbD 27 = true ∧ bitField w 23 2 ≠ 0b00#2) := by
  unfold decodeInteger
  rw [exists_error_ite, ← or_assoc (a := bitField w 23 2 = 0b11#2), ← decodeConv_error_iff]
  refine or_congr_right ?_
  rcases hconv : decodeConv (bitField w 23 2) (bitField w 21 2) with e | conv
  · simp
  · rw [or_iff_right not_exists_error_ok, converts_of_decodeConv hconv]
    dsimp only
    split <;> cases conv <;> simp_all

theorem decodeSlice_error_iff (w : Word) :
    (∃ e, decodeSlice w = .error e) ↔
      w.getLsbD 24 = true ∨ bitField w 12 4 ≠ 0#4 ∨ bitField w 26 2 = 0b11#2 ∨
        (w.getLsbD 25 = true ∧ bitField w 26 2 ≠ 0b01#2) ∨ bitField w 16 8 = 0#8 ∨
        (bitField w 26 2 = 0b00#2 ∧ bitField w 0 12 ≠ 0#12) := by
  unfold decodeSlice
  simp only [exists_error_ite]
  refine or_congr_right (or_congr_right (or_congr_right (or_congr_right (or_congr_right ?_))))
  by_cases hskip : bitField w 26 2 = 0b00#2
  · rw [if_pos hskip, exists_error_ite, or_iff_left not_exists_error_ok, and_iff_right hskip]
  · rw [if_neg hskip]
    split <;> simp [hskip]

theorem toNat_class_eq {w : Word} {c : BitVec 4} (h : bitField w 28 4 = c) : (w.extractLsb' 28 4).toNat = c.toNat :=
  congrArg BitVec.toNat h

end Sys2Proof

namespace Sys2Proof.Machine

/-- A ROM that holds an illegal word has a defect. -/
theorem decodeRom_of_illegal {rom : List Word} {w : Word} {e : Illegal} (hmem : w ∈ rom)
    (hw : decodeDescriptor w = .error e) : decodeRom rom = none := by
  induction rom with
  | nil => cases hmem
  | cons v rom ih =>
    rw [decodeRom]
    rcases List.mem_cons.1 hmem with rfl | hmem
    · rw [hw]
    · split
      · rfl
      · rw [ih hmem, Option.map_none]

theorem romDefect_of_illegal {rom : List Word} {w : Word} {e : Illegal} (hmem : w ∈ rom)
    (hw : decodeDescriptor w = .error e) : romDefect rom ≠ none := by
  intro h
  obtain ⟨-, is, rs, his, -⟩ := romDefect_none h
  rw [decodeRom_of_illegal hmem hw] at his
  cases his

/-- Settles O5: the class selects a format, whose own checks are the clauses for that class; a ROM with an illegal word is
none that decodes, and the step looks at the defects of the ROM first. -/
theorem illegalWordsRefused : Obligations.IllegalWordsRefused := by
  refine ⟨fun w => ?_, ⟨_, rfl⟩, ⟨_, rfl⟩, fun s w e hcap htime hmem hw => ?_⟩
  · rcases decodeDescriptor_cases w with ⟨hcls, hw⟩ | ⟨hcls, hw⟩ | ⟨hcls, hw⟩ | ⟨hcls, hw⟩ | ⟨hcls, hw⟩ | ⟨hcls, hw⟩ <;>
      rw [hw]
    · rw [decodeHeader_error_iff, toNat_class_eq hcls]
      simp [bitField]
    · rw [decodeLegacy_error_iff, toNat_class_eq hcls]
      simp [bitField]
    · rw [decodeInteger_error_iff, toNat_class_eq hcls]
      simp [bitField]
    · rw [decodeSlice_error_iff, toNat_class_eq hcls]
      simp [bitField, or_assoc]
    · rw [toNat_class_eq hcls]
      by_cases hend : w = 0xF0000000#32 <;> simp [hend]
    · exact iff_of_true ⟨_, rfl⟩ (.inl (hcls.imp_left toNat_class_eq))
  · obtain ⟨c, hc⟩ := Option.ne_none_iff_exists'.1 (romDefect_of_illegal hmem hw)
    exact ⟨c, step_refused (paramsDefect_of_romDefect hcap htime hc)⟩

/-- Settles O6: the parse drops no word. -/
theorem assembleOfParse : Obligations.AssembleOfParse := fun _ _ h => flatMap_assembleRoutine_of_routines h

/-- Settles O2: the fifteen words and their instructions are written out, and the decoder and the encoder evaluate on each. -/
theorem workedEncodingsAgree : Obligations.WorkedEncodingsAgree := by
  unfold Obligations.WorkedEncodingsAgree
  decide

end Sys2Proof.Machine

/-! ### The words that frame a routine (R191 to R196 of 43_message_decoder.md): each whole next state -/

namespace Sys2Proof.Machine

theorem exec_rtn_of_eq {s : State} {e : Byte} (h : s.plen = e) (lg : Bool) (c f : Byte) :
    exec (.rtn lg c f e) s = .next { s with cur := 0#8, pend := [], dp := s.dp + (if lg = true then 2#16 else 1#16) } := by
  cases lg <;> simp [exec, execRtn, h, State.advance]

theorem exec_rtn_of_ne {s : State} {e : Byte} (h : s.plen ≠ e) (c f : Byte) :
    exec (.rtn false c f e) s = .next ((s.emit (.sizeMismatch e s.plen)).finish .size) := by
  simp [exec, execRtn, h]

theorem exec_rtn_legacy_of_ne {s : State} {e : Byte} (h : s.plen ≠ e) (c f : Byte) :
    exec (.rtn true c f e) s = .next ((s.emit (.sizeMismatch e s.plen)).advance 1) := by
  simp [exec, execRtn, h]

theorem exec_lgcy (fid : Fid) (s : State) :
    exec (.lgcy fid) s = .next ((s.emit (.publish fid (.num (s.plen.toNat : Int) 0#2))).finish .size) := rfl

theorem exec_end (s : State) : exec .end_ s = .next (s.commit.finish .decoded) := rfl

/-- Settles O24: the size check passes, and DP steps over the header, and the LGCY word if there is one. -/
theorem rtnSizeMatches : Obligations.RtnSizeMatches := fun _ lg c f _ h => exec_rtn_of_eq h lg c f

/-- Settles O25: the signal is emitted and the frame ends, with a code that has the *consumed* bit. -/
theorem rtnSizeMismatch : Obligations.RtnSizeMismatch := by
  intro s c f e h
  rw [exec_rtn_of_ne h, State.finish_of_consumed _ rfl]
  rfl

/-- Settles O28: END commits PEND and ends the frame, with a code that has the *consumed* bit. -/
theorem endCommits : Obligations.EndCommits := by
  intro s
  rw [exec_end, State.finish_of_consumed _ rfl]
  rfl

/-! ### The step inside a FEED -/

theorem step_decode {s : State} {w : Word} {i : Instr} (hok : paramsOk s.params) (hp : s.phase = .decode)
    (hw : s.rom[s.dp.toNat]? = some w) (hi : decodeDescriptor w = .ok i) : step s = exec i s :=
  step_run hok (State.fetch_descriptor hp hw hi)

theorem settle_of_rest (k : Nat) {s : State} (hp : s.phase = .rest) : settle k s = .next s := by
  cases k with
  | zero => rfl
  | succ k => rw [settle, hp]

theorem settle_succ_of_step {k : Nat} {s t : State} (hp : s.phase = .decode) (h : step s = .next t) :
    settle (k + 1) s = settle k t := by
  rw [settle, hp, h]

/-- Settles O26: the mismatch leaves DP at the LGCY word, one word on (no wrap, for the ROM has at most 65536 words), and the
next step runs it. -/
theorem legacyFallback : Obligations.LegacyFallback := by
  refine ⟨fun s fid => ?_, fun s w v c f e fid hok hp hw hwi hv hvi hne => ?_⟩
  · rw [exec_lgcy, State.finish_of_consumed _ rfl]
    rfl
  · have hstep : step s = .next ((s.emit (.sizeMismatch e s.plen)).advance 1) := by
      rw [step_decode hok hp hw hwi, exec_rtn_legacy_of_ne hne]
    have hlen : s.rom.length ≤ 65536 := (romDefect_none ((paramsOk_iff _).1 hok).2.2).1
    have hnext : s.dp.toNat + 1 < s.rom.length := (List.getElem?_eq_some_iff.1 hv).1
    have hdp : (s.dp + 1#16).toNat = s.dp.toNat + 1 := by bv_omega
    have hlgcy : step ((s.emit (.sizeMismatch e s.plen)).advance 1) = .next _ :=
      step_decode (i := .lgcy fid) hok hp (hdp ▸ hv :) hvi
    rw [settle_succ_of_step hp hstep, settle_succ_of_step (by exact hp) hlgcy, settle_of_rest 0 rfl,
      State.finish_of_consumed _ rfl]
    simp [State.emit, State.advance, Code.toBits]

end Sys2Proof.Machine

/-! ### The field descriptors (42_field_reader.md)

All eleven read their width at CUR and then do one thing with the bytes: ACC takes an integer's value, and PEND takes the
events `fieldEvents` gives (`exec_field`). What a field can do is said once from that. -/

namespace Sys2Proof.Machine

/-- ACC after a field descriptor: an integer read leaves its unsigned value there (R162), a slice leaves ACC alone. -/
def fieldAcc (i : Instr) (acc : Word) (bytes : List Byte) : Word :=
  match i with
  | .skip _ => acc
  | .text _ _ _ => acc
  | .bits _ _ => acc
  | _ => BitVec.ofNat 32 (bigEndian bytes)

/-- What a field descriptor does with the bytes it has read. -/
def State.useField (i : Instr) (s : State) (bytes : List Byte) : State :=
  { s with acc := fieldAcc i s.acc bytes, pend := s.pend ++ fieldEvents s.params.ws i bytes }

theorem exec_field {i : Instr} (hi : i.isField = true) (s : State) :
    exec i s = s.readField i.width (State.useField i) := by
  cases i with
  | text supp n fid =>
    rw [exec, execText, Instr.width]
    congr 1
    funext s' bytes
    by_cases hs : (supp && suppressed s'.params.ws bytes) = true <;>
      simp [hs, State.useField, fieldAcc, fieldEvents, State.pendEvent]
  | skip n =>
    rw [exec, execSkip, Instr.width]
    congr 1
    funext s' bytes
    simp [State.useField, fieldAcc, fieldEvents]
  | reset => cases hi
  | idle => cases hi
  | feed b => cases hi
  | regrd n => cases hi
  | rtn lg c f e => cases hi
  | nodata c f => cases hi
  | lgcy fid => cases hi
  | end_ => cases hi
  | _ => rfl

/-- A field descriptor whose slice lies in the payload. -/
theorem exec_field_of_fits {i : Instr} (hi : i.isField = true) {s : State} {bytes : List Byte}
    (hfit : s.cur.toNat + i.width ≤ s.plen.toNat) (hbytes : s.bufSlice (9 + s.cur.toNat) i.width = some bytes) :
    exec i s = .next { s with
      cur := s.cur + BitVec.ofNat 8 i.width, acc := fieldAcc i s.acc bytes, dp := s.dp + 1#16,
      pend := s.pend ++ fieldEvents s.params.ws i bytes } := by
  rw [exec_field hi, State.readField_bytes hfit hbytes]
  rfl

/-- A field descriptor whose slice does not. -/
theorem exec_field_overrun {i : Instr} (hi : i.isField = true) {s : State}
    (hpast : s.plen.toNat < s.cur.toNat + i.width) : exec i s = .next (s.raiseOverrun i.width) := by
  rw [exec_field hi, State.readField_overrun hpast]

/-- Everything a field descriptor that answers a next state can have done. -/
theorem exec_field_next {i : Instr} (hi : i.isField = true) {s t : State} (h : exec i s = .next t) :
    (s.plen.toNat < s.cur.toNat + i.width ∧ t = s.raiseOverrun i.width) ∨
    ∃ bytes, s.cur.toNat + i.width ≤ s.plen.toNat ∧ s.bufSlice (9 + s.cur.toNat) i.width = some bytes ∧
      t = { s with
        cur := s.cur + BitVec.ofNat 8 i.width, acc := fieldAcc i s.acc bytes, dp := s.dp + 1#16,
        pend := s.pend ++ fieldEvents s.params.ws i bytes } := by
  rw [exec_field hi] at h
  exact State.readField_next h

/-- CUR does not wrap within the payload. -/
theorem toNat_cur_add {cur plen : Byte} {w : Nat} (h : cur.toNat + w ≤ plen.toNat) :
    (cur + BitVec.ofNat 8 w).toNat = cur.toNat + w := by
  have := plen.isLt
  rw [BitVec.toNat_add, BitVec.toNat_ofNat]
  omega

/-- Settles O35: the read past the payload end raises Overrun, whatever the field does with its bytes. -/
theorem overrunEntry : Obligations.OverrunEntry := by
  intro s i hi hpast
  rw [exec_field_overrun hi hpast, State.raiseOverrun, State.finish_of_consumed _ rfl]
  rfl

/-- Settles O36: an Overrun ends the frame and moves no cursor; a read that fits moves CUR, DP, ACC and PEND only. -/
theorem fieldFrame : Obligations.FieldFrame := by
  intro s t i hi h
  rcases exec_field_next hi h with ⟨hpast, rfl⟩ | ⟨bytes, hfit, -, rfl⟩
  · simp [hpast]
  · have hcur := toNat_cur_add hfit
    simp only [hcur, true_and, and_true, implies_true, Nat.le_add_right, true_or]
    rintro (⟨n, rfl⟩ | ⟨u, n, f, rfl⟩ | ⟨n, f, rfl⟩) <;> rfl

/-! ### What an instruction leaves unchanged -/

end Sys2Proof.Machine

namespace Sys2Proof

/-- The instruction is a word of a layout ROM (R90), and no port command or status read. -/
def Instr.isDescriptor : Instr → Bool
  | .reset => false
  | .idle => false
  | .feed _ => false
  | .regrd _ => false
  | _ => true

end Sys2Proof

namespace Sys2Proof.Machine

theorem isDescriptor_of_decode {w : Word} {i : Instr} (h : decodeDescriptor w = .ok i) : i.isDescriptor = true := by
  rcases decodeDescriptor_ok h with ⟨_, _, _, _, rfl⟩ | ⟨_, _, rfl⟩ | ⟨_, rfl⟩ | hi | rfl
  case inr.inr.inr.inl => cases i <;> simp_all [Instr.isField, Instr.isDescriptor]
  all_goals rfl

/-- What no descriptor writes is as before: BUF and LAST_TS, the straps, the registers the dispatch has set, the read data and
the input ports. -/
structure State.KeepsFrame (s t : State) : Prop where
  mem : t.mem = s.mem
  lastTs : t.lastTs = s.lastTs
  params : t.params = s.params
  n : t.n = s.n
  sum : t.sum = s.sum
  rcv : t.rcv = s.rcv
  ctl : t.ctl = s.ctl
  fn : t.fn = s.fn
  plen : t.plen = s.plen
  data : t.data = s.data
  now : t.now = s.now
  stat : t.stat = s.stat
  inputs : t.inputs = s.inputs

/-- The frame of every descriptor. -/
theorem exec_descriptor_frame {i : Instr} (hi : i.isDescriptor = true) {s t : State} (h : exec i s = .next t) :
    s.KeepsFrame t := by
  by_cases hfield : i.isField = true
  · rcases exec_field_next hfield h with ⟨-, rfl⟩ | ⟨bytes, -, -, rfl⟩ <;> constructor <;> rfl
  · cases i with
    | rtn lg c f e =>
      by_cases hsize : s.plen = e
      · rw [exec_rtn_of_eq hsize] at h
        cases h
        constructor <;> rfl
      · cases lg
        · rw [exec_rtn_of_ne hsize] at h
          cases h
          constructor <;> rfl
        · rw [exec_rtn_legacy_of_ne hsize] at h
          cases h
          constructor <;> rfl
    | nodata c f => cases h; constructor <;> rfl
    | lgcy fid => cases h; constructor <;> rfl
    | end_ => cases h; constructor <;> rfl
    | reset => cases hi
    | idle => cases hi
    | feed b => cases hi
    | regrd n => cases hi
    | _ => exact absurd rfl hfield

/-- Settles O37: a descriptor by its frame; the other port commands name the fields they write. -/
theorem onlyFeedStores : Obligations.OnlyFeedStores := by
  intro s t i hfeed h
  cases hi : i.isDescriptor with
  | true =>
    have hframe := exec_descriptor_frame hi h
    exact ⟨fun a => by rw [hframe.mem], hframe.params, fun _ => hframe.lastTs, hframe.n, hframe.sum, hframe.rcv,
      hframe.ctl, hframe.fn, hframe.plen, hframe.now, hframe.stat, hframe.inputs⟩
  | false =>
    cases i with
    | reset => cases h; simp
    | idle => cases h; simp
    | regrd n => cases h; simp
    | feed b => exact absurd rfl (hfeed b)
    | _ => cases hi

end Sys2Proof.Machine

/-! ### The integer reads (R162 to R170): big-endian and two's-complement values -/

namespace Sys2Proof.Machine

theorem bigEndian_append (l : List Byte) (b : Byte) : bigEndian (l ++ [b]) = 256 * bigEndian l + b.toNat := by
  simp [bigEndian]

/-- A byte joined below a word. -/
theorem toNat_append_byte {n : Nat} (x : BitVec n) (b : Byte) : (x ++ b).toNat = 256 * x.toNat + b.toNat := by
  rw [BitVec.toNat_append, ← Nat.shiftLeft_add_eq_or_of_lt b.isLt, Nat.shiftLeft_eq, Nat.mul_comm]

/-- The bytes of a slice, first byte most significant, are the joined bytes. -/
theorem bigEndian_append_of_eq {n : Nat} {l : List Byte} {x : BitVec n} (h : bigEndian l = x.toNat) (b : Byte) :
    bigEndian (l ++ [b]) = (x ++ b).toNat := by
  rw [bigEndian_append, toNat_append_byte, h]

theorem bigEndian_one (b0 : Byte) : bigEndian [b0] = b0.toNat := by simp [bigEndian]

theorem bigEndian_two (b0 b1 : Byte) : bigEndian [b0, b1] = (b0 ++ b1).toNat :=
  bigEndian_append_of_eq (bigEndian_one b0) b1

theorem bigEndian_three (b0 b1 b2 : Byte) : bigEndian [b0, b1, b2] = (b0 ++ b1 ++ b2).toNat :=
  bigEndian_append_of_eq (bigEndian_two b0 b1) b2

theorem bigEndian_four (b0 b1 b2 b3 : Byte) : bigEndian [b0, b1, b2, b3] = (b0 ++ b1 ++ b2 ++ b3).toNat :=
  bigEndian_append_of_eq (bigEndian_three b0 b1 b2) b3

/-- `sext_N` (R10) is the two's-complement value of the word. -/
theorem signExtend_toNat {n : Nat} (x : BitVec (n + 1)) : signExtend (n + 1) x.toNat = x.toInt := by
  have hpow : 2 ^ (n + 1) = 2 * 2 ^ n := Nat.pow_succ'
  have hhalf : x.toNat < 2 ^ n ↔ 2 * x.toNat < 2 ^ (n + 1) := by omega
  rw [signExtend, BitVec.toInt_eq_toNat_cond, Nat.add_sub_cancel]
  simp only [hhalf]
  push_cast
  rfl

section Slices

variable {s : State} {b0 b1 b2 b3 : Byte} (h0 : s.buf (9 + s.cur.toNat) = some b0)
  (h1 : s.buf (10 + s.cur.toNat) = some b1) (h2 : s.buf (11 + s.cur.toNat) = some b2)
  (h3 : s.buf (12 + s.cur.toNat) = some b3)

include h0 in
theorem bufSlice_one : s.bufSlice (9 + s.cur.toNat) 1 = some [b0] := by
  simp [State.bufSlice, readRun_succ, h0]

include h0 h1 in
theorem bufSlice_two : s.bufSlice (9 + s.cur.toNat) 2 = some [b0, b1] := by
  simp [State.bufSlice, readRun_succ, h0, Nat.add_right_comm 9 s.cur.toNat, h1]

include h0 h1 h2 in
theorem bufSlice_three : s.bufSlice (9 + s.cur.toNat) 3 = some [b0, b1, b2] := by
  simp [State.bufSlice, readRun_succ, h0, Nat.add_right_comm _ s.cur.toNat, h1, h2]

include h0 h1 h2 h3 in
theorem bufSlice_four : s.bufSlice (9 + s.cur.toNat) 4 = some [b0, b1, b2, b3] := by
  simp [State.bufSlice, readRun_succ, h0, Nat.add_right_comm _ s.cur.toNat, h1, h2, h3]

end Slices

/-- Settles O29: each read has its slice, whose value is written out; the value published is the conversion of it. -/
theorem unsignedReads : Obligations.UnsignedReads := by
  intro s conv fid b0 b1 b2 b3 h0 published
  have hpublished : ∀ v : Nat, convertValue conv v = published v := by cases conv <;> exact fun _ => rfl
  have hvalue1 : bigEndian [b0] = b0.toNat := bigEndian_one b0
  have hvalue2 : bigEndian [b0, b1] = 256 * b0.toNat + b1.toNat := by simp [bigEndian]
  have hvalue3 : bigEndian [b0, b1, b2] = 65536 * b0.toNat + 256 * b1.toNat + b2.toNat := by
    simp [bigEndian]; omega
  have hvalue4 : bigEndian [b0, b1, b2, b3] =
      2 ^ 24 * b0.toNat + 2 ^ 16 * b1.toNat + 2 ^ 8 * b2.toNat + b3.toNat := by
    simp [bigEndian]; omega
  refine ⟨fun hfit => ?_, fun hfit h1 => ?_, fun hfit h1 h2 => ?_, fun hfit h1 h2 h3 => ?_⟩
  · rw [exec_field_of_fits rfl hfit (bufSlice_one h0)]
    simp only [fieldAcc, fieldEvents, hvalue1, hpublished, Instr.width]
  · rw [exec_field_of_fits rfl hfit (bufSlice_two h0 h1)]
    simp only [fieldAcc, fieldEvents, hvalue2, hpublished, Instr.width]
  · rw [exec_field_of_fits rfl hfit (bufSlice_three h0 h1 h2)]
    simp only [fieldAcc, fieldEvents, hvalue3, hpublished, Instr.width]
  · rw [exec_field_of_fits rfl hfit (bufSlice_four h0 h1 h2 h3)]
    simp only [fieldAcc, fieldEvents, hvalue4, hpublished, Instr.width]

/-- Settles O30: each read has its slice, whose value is that of the joined bytes, read in two's complement at their width. -/
theorem signedReads : Obligations.SignedReads := by
  intro s k fid b0 b1 b2 b3 h0
  refine ⟨fun hfit => ?_, fun hfit h1 => ?_, fun hfit h1 h2 => ?_, fun hfit h1 h2 h3 => ?_⟩
  · rw [exec_field_of_fits rfl hfit (bufSlice_one h0)]
    simp only [fieldAcc, fieldEvents, bigEndian_one, signExtend_toNat, BitVec.ofNat_toNat, Instr.width]
  · rw [exec_field_of_fits rfl hfit (bufSlice_two h0 h1)]
    simp only [fieldAcc, fieldEvents, bigEndian_two, signExtend_toNat, BitVec.ofNat_toNat, Instr.width]
  · rw [exec_field_of_fits rfl hfit (bufSlice_three h0 h1 h2)]
    simp only [fieldAcc, fieldEvents, bigEndian_three, signExtend_toNat, BitVec.ofNat_toNat, Instr.width]
  · rw [exec_field_of_fits rfl hfit (bufSlice_four h0 h1 h2 h3)]
    simp only [fieldAcc, fieldEvents, bigEndian_four, signExtend_toNat, BitVec.ofNat_toNat, BitVec.setWidth_eq, Instr.width]

/-! ### The slices (R171 to R174) -/

/-- Settles O31: SKIP has no event and leaves ACC. -/
theorem skipResult : Obligations.SkipResult := by
  intro s n bytes hfit hbytes
  rw [exec_field_of_fits (i := .skip n) rfl hfit hbytes]
  simp [fieldAcc, fieldEvents, Instr.width]

theorem suppressed_iff (ws bytes : List Byte) :
    suppressed ws bytes = true ↔ textOf ws bytes = [] ∨ bytes.head? = some 0x00#8 := by
  simp [suppressed]

/-- Settles O32: the suppression test decides whether the text is an event of the field. -/
theorem textResult : Obligations.TextResult := by
  intro s supp n fid bytes hfit hbytes
  have hexec := exec_field_of_fits (i := .text supp n fid) rfl hfit hbytes
  rw [← suppressed_iff, ← Bool.and_eq_true]
  refine ⟨fun hsupp => ?_, fun hsupp => ?_⟩
  · rw [hexec, fieldEvents, if_pos hsupp]
    simp [fieldAcc, Instr.width]
  · rw [hexec, fieldEvents, if_neg hsupp]
    simp [fieldAcc, Instr.width]

theorem mem_of_mem_takeWhile_contains {ws l : List Byte} {b : Byte} (h : b ∈ l.takeWhile ws.contains) : b ∈ ws := by
  simpa using List.mem_takeWhile_imp h

/-- The second trim takes a run of whitespace from the end. -/
theorem textOf_append_trimmed (ws s : List Byte) : ∃ suf : List Byte,
    (s.filter (· != 0#8)).dropWhile ws.contains = textOf ws s ++ suf ∧ ∀ b ∈ suf, b ∈ ws := by
  refine ⟨(((s.filter (· != 0#8)).dropWhile ws.contains).reverse.takeWhile ws.contains).reverse, ?_, fun b hb =>
    mem_of_mem_takeWhile_contains (List.mem_reverse.1 hb)⟩
  rw [textOf, ← List.reverse_append, List.takeWhile_append_dropWhile, List.reverse_reverse]

theorem not_mem_of_head?_dropWhile {ws l : List Byte} {b : Byte} (h : (l.dropWhile ws.contains).head? = some b) :
    b ∉ ws := by
  have := List.head?_dropWhile_not ws.contains l
  rw [h] at this
  simpa using this

/-- Settles O33: the text is what two longest runs of whitespace leave of the null-free bytes; its first byte is the first one
left by the first trim, its last byte the first one, from the end, left by the second. -/
theorem textTrimsEdges : Obligations.TextTrimsEdges := by
  intro ws s
  obtain ⟨suf, htrim, hsuf⟩ := textOf_append_trimmed ws s
  have hsplit : s.filter (· != 0#8) = (s.filter (· != 0#8)).takeWhile ws.contains ++ textOf ws s ++ suf := by
    rw [List.append_assoc, ← htrim, List.takeWhile_append_dropWhile]
  have hne : (fun b : Byte => decide (b ≠ 0x00#8)) = (· != 0#8) := funext fun b => by simp [bne, beq_eq_decide]
  refine ⟨_, suf, (congrArg (List.filter · s) hne).trans hsplit, fun b => mem_of_mem_takeWhile_contains, hsuf,
    fun b hb => ?_, fun b hb => ?_, fun b hb => ?_⟩
  · have hmem : b ∈ s.filter (· != 0#8) := by
      rw [hsplit]
      simp [hb]
    simpa using (List.mem_filter.1 hmem).2
  · refine not_mem_of_head?_dropWhile (l := s.filter (· != 0#8)) ?_
    rw [htrim, List.head?_append, hb, Option.some_or]
  · rw [textOf, List.getLast?_reverse] at hb
    exact not_mem_of_head?_dropWhile hb

theorem bitString_cons (x : Byte) (bytes : List Byte) : bitString (x :: bytes) = bitChars x ++ bitString bytes := rfl

@[simp] theorem length_bitChars (x : Byte) : (bitChars x).length = 8 := rfl

theorem length_bitString (bytes : List Byte) : (bitString bytes).length = 8 * bytes.length := by
  induction bytes with
  | nil => rfl
  | cons x bytes ih =>
    rw [bitString_cons, List.length_append, length_bitChars, ih, List.length_cons]
    omega

theorem getElem?_bitChars (x : Byte) {i : Nat} (hi : i < 8) :
    (bitChars x)[i]? = some (if x.getLsbD (7 - i) = true then 0x31#8 else 0x30#8) := by
  interval_cases i <;> rfl

theorem getElem?_bitString (bytes : List Byte) (j : Nat) {i : Nat} (hi : i < 8) :
    (bitString bytes)[8 * j + i]? = (bytes[j]?).map fun x => if x.getLsbD (7 - i) = true then 0x31#8 else 0x30#8 := by
  induction bytes generalizing j with
  | nil => simp [bitString]
  | cons x bytes ih =>
    cases j with
    | zero => rw [bitString_cons, Nat.mul_zero, Nat.zero_add, List.getElem?_append_left hi, getElem?_bitChars x hi]; rfl
    | succ j =>
      have hskip : 8 * (j + 1) + i = (bitChars x).length + (8 * j + i) := by
        rw [length_bitChars]
        omega
      rw [bitString_cons, hskip, List.getElem?_append_right (Nat.le_add_right _ _), Nat.add_sub_cancel_left, ih,
        List.getElem?_cons_succ]

/-- Settles O34: BITS pends the rendering of its slice, eight characters for each byte. -/
theorem bitsResult : Obligations.BitsResult := by
  intro s n fid bytes hfit hbytes
  refine ⟨bitString bytes, ?_, ?_, fun j i _ hi => getElem?_bitString bytes j hi⟩
  · rw [exec_field_of_fits (i := .bits n fid) rfl hfit hbytes]
    simp [fieldAcc, fieldEvents, Instr.width]
  · rw [length_bitString, (readRun_eq_some.1 hbytes).1]

end Sys2Proof.Machine

/-! ### FEED up to its validation (R122 to R125 of 40_bytewindow.md) -/

namespace Sys2Proof.Machine

/-- R125 at saturation. -/
theorem State.append_of_saturated {s : State} (h : s.params.bufCap ≤ s.len) (b : Byte) : s.append b = s := by
  simp [State.append, State.appendAddr, Nat.not_lt.2 h]

/-- The append leaves every byte of the buffer, at saturation too. -/
theorem State.buf_append_below {s : State} (b : Byte) {i : Nat} (hi : i < s.len) : (s.append b).buf i = s.buf i := by
  by_cases h : s.len < s.params.bufCap
  · exact State.buf_append_of_lt h b hi
  · rw [State.append_of_saturated (Nat.le_of_not_lt h)]

theorem State.len_le_append (s : State) (b : Byte) : s.len ≤ (s.append b).len := by
  by_cases h : s.len < s.params.bufCap
  · rw [State.append_len_of_lt h]
    exact Nat.le_succ _
  · rw [State.append_of_saturated (Nat.le_of_not_lt h)]

/-- The timeout test of R123 is the one over the integers. -/
theorem State.timedOut_iff (s : State) :
    s.timedOut = true ↔ (s.params.timeout : Int) < ((s.now % 2 ^ s.params.tsW : Nat) - (s.lastTs : Int)) %
      ((2 ^ s.params.tsW : Nat) : Int) := by
  rw [State.timedOut, decide_eq_true_eq, elapsed, Int.lt_toNat]
  rfl

/-- LEN after the timeout test. -/
theorem State.keptLen_eq (s : State) :
    s.timeoutDiscard.stamp.len = if s.timedOut then 0 else s.len := by
  rw [State.stamp_len, State.timeoutDiscard_len]

/-- FEED's discard, timestamp and append write BUF, LEN and LAST_TS only. -/
theorem State.receive_frame (s : State) (b : Byte) :
    s.receive b = { s with mem := (s.receive b).mem, len := (s.receive b).len, lastTs := s.nowPort } := by
  unfold State.receive State.append State.timeoutDiscard
  split <;> split <;> rfl

/-- Settles O14: the timeout test is R123's inequality over the integers; the append stores at LEN, or nowhere. -/
theorem feedReceivesTheByte : Obligations.FeedReceivesTheByte := by
  intro s b now elapsed kept u
  have hkept : s.timeoutDiscard.stamp.len = kept := by
    rw [State.keptLen_eq]
    exact if_congr s.timedOut_iff rfl rfl
  have hcap : s.timeoutDiscard.stamp.params.bufCap = s.params.bufCap := by simp
  refine ⟨rfl, s.receive_frame b, fun hroom => ?_, fun hfull => ?_⟩
  · rw [← hkept, ← hcap] at hroom
    have hu : u = _ := State.append_of_len_lt hroom b
    refine ⟨hkept ▸ State.append_len_of_lt hroom b, hkept ▸ State.buf_append_len hroom b, fun a ha => ?_⟩
    rw [hu, hkept]
    simpa using Memory.read_write_other s.mem b ha
  · rw [← hkept, ← hcap] at hfull
    have hu : u = _ := State.append_of_saturated hfull b
    rw [hu]
    exact ⟨hkept, by simp⟩

/-! ### What the validation answers (R140 to R148, R224, R225) -/

theorem State.tryValidate_of_begun {s : State} (h : s.wellStarted) (hlen : s.len < 11) :
    s.tryValidate = .next (s.finish .incomplete) := by
  obtain ⟨h2, h0, h1⟩ := h
  simp [State.tryValidate, Config.minFrame, Nat.not_lt.2 h2, hlen, h0, h1]

theorem State.checkLength_of_short {s : State} {n : Byte} (hlen : s.len < 11 + n.toNat) (c f : Byte) :
    s.checkLength c f n = .next (({ s with ctl := c, fn := f, n := n } : State).finish .incomplete) := by
  have hshort : s.len < Config.hdrLen + n.toNat + Config.ckLen := by
    simp only [Config.hdrLen, Config.ckLen]
    omega
  rw [State.checkLength, if_pos hshort]

theorem State.checkFrame_of_mismatch {s : State} {raw : List Byte} {computed received : Half}
    (hsum : checksumOf (raw.take (9 + s.n.toNat)) = computed)
    (hrcv : receivedOf ((raw.drop (9 + s.n.toNat)).take 2) = received) (hne : computed ≠ received) :
    s.checkFrame raw = .next ((({ s with sum := computed, rcv := received } : State).emit
      (.checksumMismatch computed received raw)).finish .checksum) := by
  simp [State.checkFrame, Config.hdrLen, Config.ckLen, hsum, hrcv, hne]

theorem State.dispatch_of_found {s : State} {a : Nat} (h : scanHeaders s.ctl s.fn true 0 s.rom = .found a) :
    s.dispatch = .next { s with plen := s.n, dp := BitVec.ofNat 16 a, phase := .decode } := by
  rw [State.dispatch, h]

/-- RCV is the pair of bytes after the payload (R146). -/
theorem receivedOf_of_buffer {s : State} {raw : List Byte} {n : Nat} {hi lo : Byte} (hraw : s.buffer = some raw)
    (hlen : 11 + n ≤ s.len) (hhi : s.buf (9 + n) = some hi) (hlo : s.buf (10 + n) = some lo) :
    receivedOf ((raw.drop (9 + n)).take 2) = hi ++ lo := by
  have hrawhi : raw[9 + n]? = some hi := by rw [State.getElem?_of_buffer hraw (by omega), hhi]
  have hrawlo : raw[9 + n + 1]? = some lo := by
    rw [State.getElem?_of_buffer hraw (by omega), Nat.add_right_comm, hlo]
  rw [take_two_drop hrawhi hrawlo, receivedOf_pair]

/-- Settles O17: the validation ends at the length test of the header, or at that of the frame. -/
theorem feedIncompleteFrame : Obligations.FeedIncompleteFrame := by
  intro s b u h2 h0 h1
  refine ⟨fun hlen => ?_, fun c f n hlen hc hf hn hshort => ?_⟩
  · rw [exec_feed, State.tryValidate_of_begun ⟨h2, h0, h1⟩ hlen, finish_receive_of_not_consumed s b rfl]
    rfl
  · rw [exec_feed, State.tryValidate_of_wellStarted ⟨h2, h0, h1⟩ hlen hc hf hn, State.checkLength_of_short hshort,
      State.finish_of_not_consumed _ rfl, ← receive_startCommand_events s b]
    rfl

/-- Settles O18: the whole frame comes to the checksums, both written out from its bytes. -/
theorem feedChecksumMismatch : Obligations.FeedChecksumMismatch := by
  intro s b c f n hi lo raw u sum hraw h2 h0 h1 hlen hc hf hn hhi hlo hne
  have hsum : checksumOf (raw.take (9 + n.toNat)) = sum :=
    BitVec.eq_of_toNat_eq (by simp [checksumOf, sum])
  rw [exec_feed, State.tryValidate_of_wellStarted ⟨h2, h0, h1⟩ (by omega) hc hf hn, State.checkLength_of_whole hlen hraw,
    State.checkFrame_of_mismatch hsum (receivedOf_of_buffer hraw hlen hhi hlo) hne, State.finish_of_consumed _ rfl,
    State.emit]
  simp [u, Code.toBits]

/-- Settles O20: the good frame comes to the dispatch, whose scan finds the header of the routine with the key. -/
theorem feedEntersRoutine : Obligations.FeedEntersRoutine := by
  rintro s b c f n hi lo raw is rs r u hraw h2 h0 h1 hlen hc hf hn hhi hlo hck hrom his hrs hr rfl rfl
  have hscan : scanHeaders r.control r.function true 0 u.rom = .found r.start := by
    rw [receive_startCommand_rom, scanHeaders_found hrom his hrs hr]
  exact (exec_feed_good hraw ⟨h2, h0, h1⟩ hlen hc hf hn hhi hlo hck).trans (State.dispatch_of_found hscan)

/-- Settles O22: the first two bytes stand under the append, so the buffer is dead again when the validation looks at it. -/
theorem deadBufferStaysDead : Obligations.DeadBufferStaysDead := by
  rintro s b ⟨hlen, b0, b1, h0, h1, hmarker⟩ htime
  have hkept : s.startCommand.timeoutDiscard = s.startCommand := by
    rw [State.timeoutDiscard, if_neg]
    exact Bool.eq_false_iff.1 htime
  have hbuf : ∀ i, i < s.len → (s.startCommand.receive b).buf i = s.buf i := fun i hi => by
    rw [State.receive, hkept]
    exact State.buf_append_below b hi
  have hlen' : 2 ≤ (s.startCommand.receive b).len := by
    rw [State.receive, hkept]
    exact hlen.trans (State.len_le_append s.startCommand.stamp b)
  have hdead : (s.startCommand.receive b).dead :=
    ⟨hlen', b0, b1, (hbuf 0 (by omega)).trans h0, (hbuf 1 (by omega)).trans h1, hmarker⟩
  rw [exec_feed, State.tryValidate_of_dead hdead]
  exact ⟨_, rfl, hdead, rfl, rfl, by simp, rfl⟩

/-- A buffer of two bytes or more that does not begin with the markers is dead, where its bytes have a value. -/
theorem State.dead_of_not_wellStarted {s : State} (hvalued : ∀ i, i < s.len → (Memory.read s.mem i).isSome = true)
    (hlen : 2 ≤ s.len) (h : ¬s.wellStarted) : s.dead := by
  obtain ⟨b0, h0⟩ := Option.isSome_iff_exists.1 (hvalued 0 (by omega))
  obtain ⟨b1, h1⟩ := Option.isSome_iff_exists.1 (hvalued 1 (by omega))
  rw [← State.buf_of_lt (by omega)] at h0 h1
  refine ⟨hlen, b0, b1, h0, h1, ?_⟩
  by_contra hmarkers
  obtain ⟨rfl, rfl⟩ : b0 = Config.marker ∧ b1 = Config.marker := by simpa using hmarkers
  exact h ⟨hlen, h0, h1⟩

/-- Settles O23: such a buffer is short of two bytes or dead, and the validation ends there. -/
theorem noMarkersNoDecode : Obligations.NoMarkersNoDecode := by
  intro s b u hvalued hnot
  rw [exec_feed]
  by_cases hlen : u.len < 2
  · rw [State.tryValidate_of_len_lt_two hlen]
    exact ⟨_, rfl, .inl rfl, receive_startCommand_events s b, rfl, rfl, rfl, rfl⟩
  · rw [State.tryValidate_of_dead (State.dead_of_not_wellStarted hvalued (by omega) hnot)]
    exact ⟨_, rfl, .inr rfl, receive_startCommand_events s b, rfl, rfl, rfl, rfl⟩

end Sys2Proof.Machine

/-! ### Everything the validation can have done

One inversion: a validation that answers a next state is one of the seven classes of outcome, in the order of R250. -/

namespace Sys2Proof.Machine

/-- The state in which the checksums have been computed (R143, R145, R146). -/
def State.withSums (s : State) (c f n : Byte) (computed received : Half) : State :=
  { s with ctl := c, fn := f, n := n, sum := computed, rcv := received }

/-- A whole frame stands in the buffer `raw`: the header fields, and the two checksums of it (R143 to R146). -/
structure State.WholeFrame (s : State) (raw : List Byte) (c f n : Byte) (computed received : Half) : Prop where
  started : s.wellStarted
  raw_eq : s.buffer = some raw
  long : 11 ≤ s.len
  whole : 11 + n.toNat ≤ s.len
  control : s.buf 6 = some c
  function : s.buf 7 = some f
  length : s.buf 8 = some n
  computed_eq : computed = checksumOf (raw.take (9 + n.toNat))
  received_eq : received = receivedOf ((raw.drop (9 + n.toNat)).take 2)

/-- The next states of the validation, one constructor for each class of outcome (R250). -/
inductive State.Validated (s : State) : State → Prop
  | short : s.len < 2 → s.Validated (s.finish .incomplete)
  | dead : s.dead → s.Validated (s.finish .malformedStart)
  | begun : s.wellStarted → s.len < 11 → s.Validated (s.finish .incomplete)
  | waiting (c f n : Byte) : s.wellStarted → 11 ≤ s.len → s.buf 8 = some n → s.len < 11 + n.toNat →
      s.Validated (({ s with ctl := c, fn := f, n := n } : State).finish .incomplete)
  | mismatch (raw : List Byte) (c f n : Byte) (computed received : Half) :
      s.WholeFrame raw c f n computed received → computed ≠ received →
      s.Validated (((s.withSums c f n computed received).emit (.checksumMismatch computed received raw)).finish .checksum)
  | unknown (raw : List Byte) (c f n : Byte) (ck : Half) (a : Nat) :
      s.WholeFrame raw c f n ck ck → scanHeaders c f true 0 s.rom = .absent a →
      s.Validated ((({ s.withSums c f n ck ck with plen := n, dp := BitVec.ofNat 16 a } : State).emit
        (.unknownKey s.params.role c f)).finish .unknown)
  | entered (raw : List Byte) (c f n : Byte) (ck : Half) (a : Nat) :
      s.WholeFrame raw c f n ck ck → scanHeaders c f true 0 s.rom = .found a →
      s.Validated { s.withSums c f n ck ck with plen := n, dp := BitVec.ofNat 16 a, phase := .decode }

theorem State.Validated.of_checkFrame {s t : State} {raw : List Byte} {c f n : Byte} {computed received : Half}
    (hframe : s.WholeFrame raw c f n computed received)
    (h : ({ s with ctl := c, fn := f, n := n } : State).checkFrame raw = .next t) : s.Validated t := by
  obtain ⟨-, -, -, -, -, -, -, hsum, hrcv⟩ := id hframe
  by_cases hck : computed = received
  · subst hck
    rw [State.checkFrame_of_match (s := { s with ctl := c, fn := f, n := n }) hsum.symm hrcv.symm] at h
    rcases State.dispatch_cases (s.withSums c f n computed computed) with ⟨-, hd⟩ | ⟨a, hscan, hd⟩ | ⟨a, hscan, hd⟩
    · cases hd.symm.trans h
    · cases hd.symm.trans h
      exact .unknown raw c f n computed a hframe hscan
    · cases hd.symm.trans h
      exact .entered raw c f n computed a hframe hscan
  · rw [State.checkFrame_of_mismatch (s := { s with ctl := c, fn := f, n := n }) hsum.symm hrcv.symm hck] at h
    cases h
    exact .mismatch raw c f n computed received hframe hck

theorem State.validated_of_tryValidate {s t : State} (h : s.tryValidate = .next t) : s.Validated t := by
  rcases s.tryValidate_cases with ⟨hlen, hv⟩ | ⟨-, -, hv⟩ | ⟨hdead, hv⟩ | ⟨hstart, hlen, hv⟩ | ⟨-, -, -, hv⟩ |
    ⟨c, f, n, hstart, hlen, hc, hf, hn, hv⟩ <;> rw [hv] at h
  · cases h
    exact .short hlen
  · cases h
  · cases h
    exact .dead hdead
  · cases h
    exact .begun hstart hlen
  · cases h
  · rcases s.checkLength_cases c f n with ⟨hshort, hl⟩ | ⟨-, -, hl⟩ | ⟨raw, hwhole, hraw, hl⟩ <;> rw [hl] at h
    · cases h
      exact .waiting c f n hstart hlen hn hshort
    · cases h
    · exact .of_checkFrame ⟨hstart, hraw, hlen, hwhole, hc, hf, hn, rfl, rfl⟩ h

/-- What the validation leaves unchanged, whatever it answers. -/
structure State.KeepsReceived (s t : State) : Prop where
  mem : t.mem = s.mem
  lastTs : t.lastTs = s.lastTs
  params : t.params = s.params
  cur : t.cur = s.cur
  acc : t.acc = s.acc
  pend : t.pend = s.pend
  data : t.data = s.data
  now : t.now = s.now
  stat : t.stat = s.stat
  inputs : t.inputs = s.inputs

theorem State.Validated.keepsReceived {s t : State} (h : s.Validated t) : s.KeepsReceived t := by
  cases h <;> constructor <;> rfl

/-- Settles O21: the validation leaves BUF as the append has stored to it. -/
theorem feedFrame : Obligations.FeedFrame := by
  intro s t b h
  have hkeeps := (State.validated_of_tryValidate h).keepsReceived
  have hmem : t.mem = (s.startCommand.timeoutDiscard.stamp.append b).mem := hkeeps.mem
  refine ⟨fun a ha x hx => ?_, fun ha x => ?_, ?_, ?_, ?_, ?_, ?_, ?_, ?_, ?_, ?_⟩
  · rw [hmem, State.append_mem, ha]
    simpa using Memory.read_write_other s.mem b hx
  · rw [hmem, State.append_mem, ha]
    simp
  · rw [hkeeps.lastTs, State.receive_lastTs]
    rfl
  · simp [hkeeps.params]
  · simp [hkeeps.cur]
  · simp [hkeeps.acc]
  · simp [hkeeps.pend]
  · simp [hkeeps.data]
  · simp [hkeeps.now]
  · simp [hkeeps.stat]
  · simp [hkeeps.inputs]

/-! ### Reset, the status read and the step -/

/-- Settles O9: the fields of the state after reset are written out; its parameters are allowed, and no tick is presented. -/
theorem resetState : Obligations.ResetState := by
  have hok : paramsDefect State.reset.params = none := rfl
  refine ⟨rfl, rfl, rfl, rfl, rfl, rfl, rfl, rfl, fun i => State.buf_of_ge (Nat.zero_le i), ?_⟩
  rw [step, hok, State.fetch_wait rfl rfl rfl]

theorem exec_regrd (s : State) (n : BitVec 3) :
    exec (.regrd n) s = .next { s with ready := false, events := [], data := some (s.reg n) } := rfl

theorem State.reg_of_five_le (s : State) {n : BitVec 3} (h : 5 ≤ n.toNat) : s.reg n = 0 := by
  have hne : ∀ k : BitVec 3, k.toNat < 5 → n ≠ k := fun k hk hnk => by
    rw [hnk] at h
    omega
  rw [State.reg, if_neg (hne _ (by decide)), if_neg (hne _ (by decide)), if_neg (hne _ (by decide)),
    if_neg (hne _ (by decide)), if_neg (hne _ (by decide))]

/-- Settles O12: the read data is the register's value, and LEN reads as 16 bits whatever it counts. -/
theorem statusRead : Obligations.StatusRead := by
  intro s n
  refine ⟨exec_regrd s n, rfl, State.lenRegister_of_lt, s.lenRegister_lt, rfl, rfl, rfl, ?_, s.reg_of_five_le⟩
  cases hrole : s.params.role <;> simp [State.reg, hrole, roleNumber]

/-- Settles O40: each clause is the fetch of its case. -/
theorem stepRunsDecoded : Obligations.StepRunsDecoded := by
  intro s hok
  refine ⟨fun hp hs hi => ?_, fun n hp hs => step_run hok (State.fetch_statusRead hp hs), fun k ks i hp hs hi hd => ?_,
    fun w i hp hw hi => step_decode hok hp hw hi⟩
  · rw [step, show paramsDefect s.params = none from hok, State.fetch_wait hp hs hi]
  · cases hd
    exact step_run hok (State.fetch_command hp hs hi)

/-- A step inside a FEED is one descriptor, so it has a descriptor's frame. -/
theorem step_decode_frame {s t : State} (hp : s.phase = .decode) (h : step s = .next t) : s.KeepsFrame t := by
  obtain ⟨-, ⟨hrest, -⟩ | ⟨n, hrest, -⟩ | ⟨k, ks, hrest, -⟩ | ⟨w, i, -, -, hi, hexec⟩⟩ := step_next h
  · cases hrest.symm.trans hp
  · cases hrest.symm.trans hp
  · cases hrest.symm.trans hp
  · exact exec_descriptor_frame (isDescriptor_of_decode hi) hexec

/-- Settles O41: the frame of the descriptor the step runs. -/
theorem feedIsUninterrupted : Obligations.FeedIsUninterrupted := by
  intro s t hp h
  have hframe := step_decode_frame hp h
  exact ⟨hframe.inputs, hframe.stat, hframe.now, hframe.mem, hframe.lastTs, hframe.params, hframe.data, hframe.n,
    hframe.plen, hframe.ctl, hframe.fn⟩

theorem State.KeepsFrame.refl (s : State) : s.KeepsFrame s := by constructor <;> rfl

theorem State.KeepsFrame.trans {s t u : State} (hst : s.KeepsFrame t) (htu : t.KeepsFrame u) : s.KeepsFrame u where
  mem := htu.mem.trans hst.mem
  lastTs := htu.lastTs.trans hst.lastTs
  params := htu.params.trans hst.params
  n := htu.n.trans hst.n
  sum := htu.sum.trans hst.sum
  rcv := htu.rcv.trans hst.rcv
  ctl := htu.ctl.trans hst.ctl
  fn := htu.fn.trans hst.fn
  plen := htu.plen.trans hst.plen
  data := htu.data.trans hst.data
  now := htu.now.trans hst.now
  stat := htu.stat.trans hst.stat
  inputs := htu.inputs.trans hst.inputs

/-- The rest of a FEED, whatever its length, has a descriptor's frame. -/
theorem settle_frame {k : Nat} {s t : State} (h : settle k s = .next t) : s.KeepsFrame t := by
  induction k generalizing s with
  | zero =>
    cases h
    exact .refl _
  | succ k ih =>
    cases hp : s.phase with
    | rest =>
      rw [settle_of_rest _ hp] at h
      cases h
      exact .refl _
    | decode =>
      rcases hstep : step s with u | r | r
      · rw [settle_succ_of_step hp hstep] at h
        exact (step_decode_frame hp hstep).trans (ih h)
      · simp [settle, hp, hstep] at h
      · simp [settle, hp, hstep] at h

/-- What a command that answers a next state does not consume or change. -/
theorem exec_keeps {i : Instr} {s t : State} (h : exec i s = .next t) :
    t.params = s.params ∧ t.now = s.now ∧ t.stat = s.stat ∧ t.inputs = s.inputs := by
  by_cases hfeed : ∃ b, i = .feed b
  · obtain ⟨b, rfl⟩ := hfeed
    obtain ⟨-, -, -, hpar, -, -, -, -, hnow, hstat, hinputs⟩ := feedFrame s t b h
    exact ⟨hpar, hnow, hstat, hinputs⟩
  · obtain ⟨-, hpar, -, -, -, -, -, -, -, hnow, hstat, hinputs⟩ := onlyFeedStores s t i (not_exists.1 hfeed) h
    exact ⟨hpar, hnow, hstat, hinputs⟩

theorem step_params {s t : State} (h : step s = .next t) : t.params = s.params := by
  obtain ⟨-, ⟨-, -, -, rfl⟩ | ⟨n, -, -, hexec⟩ | ⟨k, ks, -, -, -, hexec⟩ | ⟨w, i, -, -, -, hexec⟩⟩ := step_next h
  · rfl
  · exact (exec_keeps hexec).1
  · exact (exec_keeps hexec).1
  · exact (exec_keeps hexec).1

theorem run_params {k : Nat} {s t : State} (h : Host.Core.run Sys2Proof.core k s = .next t) : t.params = s.params := by
  induction k generalizing s with
  | zero =>
    cases h
    rfl
  | succ k ih =>
    rcases hstep : Sys2Proof.core.step s with u | r | r
    · simp only [Host.Core.run, hstep] at h
      exact (ih h).trans (step_params hstep)
    · simp [Host.Core.run, hstep] at h
    · simp [Host.Core.run, hstep] at h

/-- Settles O42: no step changes the parameters, so no run does; the ROM is one of them. -/
theorem configurationConstant : Obligations.ConfigurationConstant := by
  intro k s t h
  have hpar := run_params h
  exact ⟨hpar, by rw [State.rom, State.rom, hpar]⟩

/-- Settles O13: neither the command nor the rest of its FEED takes the register number away, so it stands when the command
is complete, and the next step is the status read. -/
theorem statusReadAfterCommand : Obligations.StatusReadAfterCommand := by
  intro s t u k ks n fuel hp hs hi hk hstep hsettle hu
  obtain ⟨hok, hcases⟩ := step_next hstep
  have hexec := (step_run hok (State.fetch_command hp hs hi)).symm.trans hstep
  obtain ⟨hpar, -, hstat, -⟩ := exec_keeps hexec
  have hframe := settle_frame hsettle
  have huok : paramsOk u.params := by
    rw [hframe.params, hpar]
    exact hok
  have hustat : u.stat = some n := by rw [hframe.stat, hstat, hk]
  rw [step_run huok (State.fetch_statusRead hu hustat)]
  rfl

end Sys2Proof.Machine

/-! ### Where a word of a ROM stands in its routine (R100)

`RomSuffix rom a p`: from address `a` on, the words of the ROM are what `p` says. Each form of suffix gives its first word and
the suffix after it; the steps inside a FEED are read off from these. -/

namespace Sys2Proof.Machine

/-- The words of a ROM from an address on, as the grammar reads them. -/
def RomSuffix (rom : List Word) (a : Nat) (p : Suffix) : Prop :=
  ∃ is, decodeRom rom = some is ∧ parseFrom a (is.drop a) = some p

/-- The instruction at an address of a ROM. -/
def RomAt (rom : List Word) (a : Nat) (i : Instr) : Prop :=
  ∃ w, rom[a]? = some w ∧ decodeDescriptor w = .ok i

theorem RomAt.lt_length {rom : List Word} {a : Nat} {i : Instr} (h : RomAt rom a i) : a < rom.length := by
  obtain ⟨w, hw, -⟩ := h
  exact (List.getElem?_eq_some_iff.1 hw).1

/-- The first instruction of a suffix, the suffix after it, and the suffix itself: the productions of R100, one by one. -/
inductive Production (a : Nat) : Instr → Suffix → Suffix → Prop
  | end_ (rs : List Routine) : Production a .end_ (.atHeader rs) (.inFields [] rs)
  | legacy (fid : Fid) (fs : List Instr) (rs : List Routine) :
      Production a (.lgcy fid) (.inFields fs rs) (.atLegacy fid fs rs)
  | plainHeader (c f e : Byte) (fs : List Instr) (rs : List Routine) :
      Production a (.rtn false c f e) (.inFields fs rs) (.atHeader (⟨c, f, .decode, e, none, fs, a⟩ :: rs))
  | legacyHeader (c f e : Byte) (fid : Fid) (fs : List Instr) (rs : List Routine) :
      Production a (.rtn true c f e) (.atLegacy fid fs rs) (.atHeader (⟨c, f, .decode, e, some fid, fs, a⟩ :: rs))
  | noData (c f : Byte) (rs : List Routine) :
      Production a (.nodata c f) (.inFields [] rs) (.atHeader (⟨c, f, .noData, 0#8, none, [], a⟩ :: rs))
  | field (i : Instr) (fs : List Instr) (rs : List Routine) : i.isField = true →
      Production a i (.inFields fs rs) (.inFields (i :: fs) rs)

theorem production_of_parseFrom {a : Nat} {i : Instr} {is : List Instr} {p : Suffix}
    (h : parseFrom a (i :: is) = some p) : ∃ q, parseFrom (a + 1) is = some q ∧ Production a i q p := by
  obtain ⟨q, hq, hcases⟩ := parseFrom_cons h
  refine ⟨q, hq, ?_⟩
  rcases hcases with ⟨rfl, rs, rfl, rfl⟩ | ⟨fid, fs, rs, rfl, rfl, rfl⟩ | ⟨c, f, e, fs, rs, rfl, rfl, rfl⟩ |
    ⟨c, f, e, fid, fs, rs, rfl, rfl, rfl⟩ | ⟨c, f, rs, rfl, rfl, rfl⟩ | ⟨fs, rs, hi, rfl, rfl⟩
  · exact .end_ rs
  · exact .legacy fid fs rs
  · exact .plainHeader c f e fs rs
  · exact .legacyHeader c f e fid fs rs
  · exact .noData c f rs
  · exact .field i fs rs hi

/-- The first word of a suffix, unless the suffix is the empty one at the ROM's end. -/
theorem RomSuffix.first {rom : List Word} {a : Nat} {p : Suffix} (h : RomSuffix rom a p) (hp : p ≠ .atHeader []) :
    ∃ i q, RomAt rom a i ∧ RomSuffix rom (a + 1) q ∧ Production a i q p := by
  obtain ⟨is, his, hparse⟩ := h
  cases hrest : is.drop a with
  | nil =>
    rw [hrest, parseFrom] at hparse
    exact absurd (Option.some.inj hparse).symm hp
  | cons i rest =>
    have htail : is.drop (a + 1) = rest := by rw [← List.tail_drop, hrest, List.tail_cons]
    have hget : is[a]? = some i := by rw [← List.head?_drop, hrest, List.head?_cons]
    rw [hrest] at hparse
    obtain ⟨q, hq, hprod⟩ := production_of_parseFrom hparse
    exact ⟨i, q, decodeRom_get his a hget, ⟨is, his, htail ▸ hq⟩, hprod⟩

section Words

variable {rom : List Word} {a : Nat}

theorem RomSuffix.end_ {rs : List Routine} (h : RomSuffix rom a (.inFields [] rs)) : RomAt rom a .end_ := by
  obtain ⟨i, q, hi, -, ⟨⟩⟩ := h.first nofun
  exact hi

theorem RomSuffix.field {i : Instr} {fs : List Instr} {rs : List Routine} (h : RomSuffix rom a (.inFields (i :: fs) rs)) :
    RomAt rom a i ∧ i.isField = true ∧ RomSuffix rom (a + 1) (.inFields fs rs) := by
  obtain ⟨i, q, hi, hq, hprod⟩ := h.first nofun
  cases hprod with
  | field _ _ _ hfield => exact ⟨hi, hfield, hq⟩

theorem RomSuffix.legacy {fid : Fid} {fs : List Instr} {rs : List Routine} (h : RomSuffix rom a (.atLegacy fid fs rs)) :
    RomAt rom a (.lgcy fid) ∧ RomSuffix rom (a + 1) (.inFields fs rs) := by
  obtain ⟨i, q, hi, hq, ⟨⟩⟩ := h.first nofun
  exact ⟨hi, hq⟩

/-- A suffix that begins with a routine: its header, the routine's own form, and what follows the header. -/
theorem RomSuffix.header {r : Routine} {rs : List Routine} (h : RomSuffix rom a (.atHeader (r :: rs))) :
    (r.kind = .noData ∧ RomAt rom a (.nodata r.control r.function)) ∨
    (r.kind = .decode ∧ r.legacy = none ∧ RomAt rom a (.rtn false r.control r.function r.explen) ∧
      RomSuffix rom (a + 1) (.inFields r.fields rs)) ∨
    (∃ fid, r.kind = .decode ∧ r.legacy = some fid ∧ RomAt rom a (.rtn true r.control r.function r.explen) ∧
      RomSuffix rom (a + 1) (.atLegacy fid r.fields rs)) := by
  obtain ⟨i, q, hi, hq, hprod⟩ := h.first nofun
  cases hprod with
  | noData c f => exact .inl ⟨rfl, hi⟩
  | plainHeader c f e fs => exact .inr (.inl ⟨rfl, rfl, hi, hq⟩)
  | legacyHeader c f e fid fs => exact .inr (.inr ⟨fid, rfl, rfl, hi, hq⟩)

/-- A ROM of which something stands at an address has a word there, so DP does not wrap in a ROM of at most 65536 words. -/
theorem RomSuffix.toNat_dp {dp : Half} {p : Suffix} {k : Nat} (hlen : rom.length ≤ 65536)
    (h : RomSuffix rom (dp.toNat + k) p) (hp : p ≠ .atHeader []) : (dp + BitVec.ofNat 16 k).toNat = dp.toNat + k := by
  obtain ⟨i, q, hi, -⟩ := h.first hp
  have := hi.lt_length
  rw [BitVec.toNat_add, BitVec.toNat_ofNat]
  omega

theorem RomSuffix.toNat_ofNat {p : Suffix} (hlen : rom.length ≤ 65536) (h : RomSuffix rom a p) (hp : p ≠ .atHeader []) :
    (BitVec.ofNat 16 a).toNat = a := by
  obtain ⟨i, q, hi, -⟩ := h.first hp
  have := hi.lt_length
  rw [BitVec.toNat_ofNat]
  omega

theorem RomSuffix.mem_routines {is : List Instr} {rs : List Routine} {p : Suffix} (h : RomSuffix rom a p)
    (hp : p ≠ .atHeader []) (his : decodeRom rom = some is) (hrs : routines is = some rs) :
    ∀ r ∈ suffixRoutines p, r ∈ rs := by
  obtain ⟨i, q, hi, -⟩ := h.first hp
  obtain ⟨is', his', hparse⟩ := h
  obtain rfl := Option.some.inj (his'.symm.trans his)
  obtain ⟨q, hq, hsub⟩ := parseFrom_drop (routines_eq_some.1 hrs) a
  rw [Nat.zero_add, hparse] at hq
  obtain rfl := Option.some.inj hq
  exact fun r hr => hsub r hr (by rw [decodeRom_length his]; exact hi.lt_length.le)

end Words

/-- Each routine a parse lists stands at its own address (R102). -/
theorem exists_drop_of_mem_suffixRoutines {a : Nat} {is : List Instr} {p : Suffix} (h : parseFrom a is = some p)
    {r : Routine} (hr : r ∈ suffixRoutines p) :
    ∃ k rest, r.start = a + k ∧ parseFrom (a + k) (is.drop k) = some (.atHeader (r :: rest)) := by
  induction is generalizing a p with
  | nil =>
    cases h
    cases hr
  | cons i is ih =>
    have hwhole := h
    obtain ⟨q, hq, hprod⟩ := production_of_parseFrom h
    have hlater : r ∈ suffixRoutines q →
        ∃ k rest, r.start = a + k ∧ parseFrom (a + k) ((i :: is).drop k) = some (.atHeader (r :: rest)) := fun hr => by
      obtain ⟨k, rest, hstart, hk⟩ := ih hq hr
      exact ⟨k + 1, rest, by omega, by rwa [List.drop_succ_cons, Nat.add_comm k, ← Nat.add_assoc]⟩
    cases hprod with
    | end_ | legacy | field => exact hlater hr
    | plainHeader | legacyHeader | noData =>
      rcases List.mem_cons.1 hr with rfl | hr
      · exact ⟨0, _, rfl, hwhole⟩
      · exact hlater hr

/-- The scan of the headers stops at the header of a routine with the key (R224). -/
theorem romSuffix_of_scan_found {rom : List Word} {is : List Instr} {rs : List Routine} (his : decodeRom rom = some is)
    (hrs : routines is = some rs) {c f : Byte} {a : Nat} (h : scanHeaders c f true 0 rom = .found a) :
    ∃ r rest, lookup rs c f = some r ∧ RomSuffix rom a (.atHeader (r :: rest)) := by
  rw [scanHeaders_of_routines his hrs] at h
  cases hr : lookup rs c f with
  | none => rw [hr] at h; cases h
  | some r =>
    rw [hr] at h
    obtain rfl := Scan.found.inj h
    obtain ⟨k, rest, hstart, hk⟩ := exists_drop_of_mem_suffixRoutines (routines_eq_some.1 hrs) (List.mem_of_find?_eq_some hr)
    rw [Nat.zero_add] at hstart hk
    exact ⟨r, rest, rfl, is, his, hstart ▸ hk⟩

/-- In a ROM that parses the scan always meets headers. -/
theorem scanHeaders_ne_illFormed {rom : List Word} {is : List Instr} {rs : List Routine} (his : decodeRom rom = some is)
    (hrs : routines is = some rs) (c f : Byte) : scanHeaders c f true 0 rom ≠ .illFormed := by
  rw [scanHeaders_of_routines his hrs]
  cases lookup rs c f <;> exact nofun

end Sys2Proof.Machine

/-! ### The step inside a FEED, from a state that meets the invariant (R198) -/

namespace Sys2Proof.Machine

theorem paramsOk.rom {s : State} (h : paramsOk s.params) : s.rom.length ≤ 65536 ∧ ∃ is rs, decodeRom s.rom = some is ∧
    routines is = some rs ∧ wfSum rs = true ∧ wfKeys rs = true :=
  romDefect_none ((paramsOk_iff _).1 h).2.2

/-- The fields up to the END account for the payload bytes not yet read (R198). -/
def State.fits (s : State) : Suffix → Prop
  | .atHeader _ => True
  | .inFields fs _ => s.cur.toNat + widthSum fs = s.plen.toNat
  | .atLegacy _ _ _ => True

theorem State.inRoutine_iff {s : State} :
    s.inRoutine ↔ ∃ p, RomSuffix s.rom s.dp.toNat p ∧ p ≠ .atHeader [] ∧ s.fits p := by
  constructor
  · rintro ⟨is, his, rest, rfl, hne, hform⟩
    obtain ⟨i, rest, hcons⟩ := List.exists_cons_of_ne_nil hne
    have hnonempty : ∀ p, parseFrom s.dp.toNat (is.drop s.dp.toNat) = some p → p ≠ .atHeader [] := by
      rintro p hp rfl
      rw [hcons] at hp
      obtain ⟨q, -, hprod⟩ := production_of_parseFrom hp
      cases hprod
    rcases hform with ⟨rs, hp⟩ | ⟨fid, fs, rs, hp⟩ | ⟨fs, rs, hp, hfit⟩
    · exact ⟨_, ⟨is, his, hp⟩, hnonempty _ hp, trivial⟩
    · exact ⟨_, ⟨is, his, hp⟩, hnonempty _ hp, trivial⟩
    · exact ⟨_, ⟨is, his, hp⟩, hnonempty _ hp, hfit⟩
  · rintro ⟨p, ⟨is, his, hp⟩, hne, hfit⟩
    refine ⟨is, his, _, rfl, fun hnil => ?_, ?_⟩
    · rw [hnil] at hp
      exact hne (Option.some.inj hp).symm
    · cases p with
      | atHeader rs => exact .inl ⟨rs, hp⟩
      | inFields fs rs => exact .inr (.inr ⟨fs, rs, hp, hfit⟩)
      | atLegacy fid fs rs => exact .inr (.inl ⟨fid, fs, rs, hp⟩)

theorem step_romAt {s : State} {i : Instr} (hok : paramsOk s.params) (hp : s.phase = .decode)
    (hi : RomAt s.rom s.dp.toNat i) : step s = exec i s := by
  obtain ⟨w, hw, hi⟩ := hi
  exact step_decode hok hp hw hi

/-- A slice of the buffer has a value (R21). -/
theorem State.exists_bufSlice {s : State} (hvalued : ∀ i, i < s.len → (Memory.read s.mem i).isSome = true) {a n : Nat}
    (h : a + n ≤ s.len) : ∃ bytes, s.bufSlice a n = some bytes := by
  refine Option.isSome_iff_exists.1 (readRun_isSome fun i hi => ?_)
  rw [State.buf_of_lt (by omega)]
  exact hvalued _ (by omega)

/-- A read that stays in the payload reads bytes of the frame, which ends the buffer (R39 (e)). -/
theorem State.Inv.exists_payload {s : State} (h : s.Inv) (hp : s.phase = .decode) {w : Nat}
    (hfit : s.cur.toNat + w ≤ s.plen.toNat) : ∃ bytes, s.bufSlice (9 + s.cur.toNat) w = some bytes := by
  obtain ⟨hplen, hlen, -⟩ := h.decoding hp
  rw [hplen] at hfit
  exact State.exists_bufSlice h.valued (by omega)

/-- The next states of a step inside a FEED from a state that meets the invariant: no Overrun and no stop is among them. -/
inductive State.Decoded (s : State) : State → Prop
  | matched (dp : Half) (fs : List Instr) (rs : List Routine) : RomSuffix s.rom dp.toNat (.inFields fs rs) →
      widthSum fs = s.plen.toNat → s.Decoded { s with cur := 0#8, pend := [], dp := dp }
  | mismatched (e : Byte) : s.Decoded ((s.emit (.sizeMismatch e s.plen)).finish .size)
  | legacy (e : Byte) (fid : Fid) (fs : List Instr) (rs : List Routine) :
      RomSuffix s.rom (s.dp + 1#16).toNat (.atLegacy fid fs rs) →
      s.Decoded ((s.emit (.sizeMismatch e s.plen)).advance 1)
  | noData : s.Decoded (s.finish .noData)
  | fellBack (fid : Fid) : s.Decoded ((s.emit (.publish fid (.num (s.plen.toNat : Int) 0#2))).finish .size)
  | field (i : Instr) (fs : List Instr) (rs : List Routine) (bytes : List Byte) : i.isField = true →
      RomSuffix s.rom (s.dp + 1#16).toNat (.inFields fs rs) →
      s.cur.toNat + i.width + widthSum fs = s.plen.toNat →
      s.Decoded { s with
        cur := s.cur + BitVec.ofNat 8 i.width, acc := fieldAcc i s.acc bytes, dp := s.dp + 1#16,
        pend := s.pend ++ fieldEvents s.params.ws i bytes }
  | ended : s.cur = s.plen → s.Decoded (s.commit.finish .decoded)

theorem widthSum_cons (i : Instr) (fs : List Instr) : widthSum (i :: fs) = i.width + widthSum fs := by
  simp [widthSum]

/-- At a header: the size check passes (and the fields then account for the payload, by `wf_sum`), or it does not. -/
theorem State.decoded_of_header {s : State} (hok : paramsOk s.params) (hp : s.phase = .decode) {r : Routine}
    {rs : List Routine} (h : RomSuffix s.rom s.dp.toNat (.atHeader (r :: rs))) : ∃ t, step s = .next t ∧ s.Decoded t := by
  obtain ⟨hlen, is, all, his, hall, hsum, -⟩ := hok.rom
  have hmem : r ∈ all := h.mem_routines nofun his hall r (List.mem_cons_self ..)
  have hfields : r.kind = .decode → s.plen = r.explen → widthSum r.fields = s.plen.toNat := fun hkind hsize => by
    rw [wfSum_iff.1 hsum r hmem hkind, hsize]
  rcases h.header with ⟨-, hi⟩ | ⟨hkind, -, hi, hrest⟩ | ⟨fid, hkind, -, hi, hrest⟩
  · exact ⟨_, step_romAt hok hp hi, .noData⟩
  · rw [step_romAt hok hp hi]
    by_cases hsize : s.plen = r.explen
    · rw [exec_rtn_of_eq hsize]
      exact ⟨_, rfl, .matched _ r.fields rs (hrest.toNat_dp hlen nofun ▸ hrest :) (hfields hkind hsize)⟩
    · rw [exec_rtn_of_ne hsize]
      exact ⟨_, rfl, .mismatched r.explen⟩
  · rw [step_romAt hok hp hi]
    by_cases hsize : s.plen = r.explen
    · obtain ⟨-, hrest⟩ := hrest.legacy
      rw [exec_rtn_of_eq hsize]
      exact ⟨_, rfl, .matched _ r.fields rs (hrest.toNat_dp (k := 2) hlen nofun ▸ hrest :) (hfields hkind hsize)⟩
    · rw [exec_rtn_legacy_of_ne hsize]
      exact ⟨_, rfl, .legacy r.explen fid r.fields rs (hrest.toNat_dp hlen nofun ▸ hrest :)⟩

/-- Among the fields: the next one fits, or END stands where the payload ends. -/
theorem State.Inv.decoded_of_fields {s : State} (hinv : s.Inv) (hok : paramsOk s.params) (hp : s.phase = .decode)
    {fs : List Instr} {rs : List Routine} (h : RomSuffix s.rom s.dp.toNat (.inFields fs rs))
    (hfit : s.cur.toNat + widthSum fs = s.plen.toNat) : ∃ t, step s = .next t ∧ s.Decoded t := by
  obtain ⟨hlen, -⟩ := hok.rom
  cases fs with
  | nil =>
    have hcur : s.cur = s.plen := BitVec.eq_of_toNat_eq hfit
    exact ⟨_, step_romAt hok hp h.end_, .ended hcur⟩
  | cons i fs =>
    obtain ⟨hi, hfield, hrest⟩ := h.field
    rw [widthSum_cons] at hfit
    have hread : s.cur.toNat + i.width ≤ s.plen.toNat := by omega
    obtain ⟨bytes, hbytes⟩ := hinv.exists_payload hp hread
    rw [step_romAt hok hp hi, exec_field_of_fits hfield hread hbytes]
    exact ⟨_, rfl, .field i fs rs bytes hfield (hrest.toNat_dp hlen nofun ▸ hrest :) (by omega)⟩

theorem State.Inv.decoded {s : State} (hinv : s.Inv) (hok : paramsOk s.params) (hp : s.phase = .decode) :
    ∃ t, step s = .next t ∧ s.Decoded t := by
  obtain ⟨-, -, hroutine⟩ := hinv.decoding hp
  obtain ⟨p, hsuffix, hne, hfit⟩ := State.inRoutine_iff.1 hroutine
  cases p with
  | atHeader rs =>
    cases rs with
    | nil => exact absurd rfl hne
    | cons r rs => exact State.decoded_of_header hok hp hsuffix
  | inFields fs rs => exact hinv.decoded_of_fields hok hp hsuffix hfit
  | atLegacy fid fs rs => exact ⟨_, step_romAt hok hp hsuffix.legacy.1, .fellBack fid⟩

end Sys2Proof.Machine

/-! ### The invariant (R39 of 10_state.md, and R198 inside a FEED)

Its part about BUF, LEN and LAST_TS is kept by each operation that writes them (`State.Stored`); the rest is kept by the
classes of next states of a command and of a descriptor. -/

namespace Sys2Proof.Machine

/-- The part of the invariant that speaks of BUF, LEN and LAST_TS. -/
structure State.Stored (s : State) : Prop where
  canonical : Memory.wf s.mem = true
  inBuffer : ∀ c ∈ s.mem, c.1 < s.params.bufCap
  lenInCap : s.len ≤ s.params.bufCap
  valued : ∀ i, i < s.len → (Memory.read s.mem i).isSome = true
  stamped : s.lastTs < 2 ^ s.params.tsW

/-- The part of the invariant that speaks of PEND (R32). -/
def State.PendsPublishes (s : State) : Prop := ∀ e ∈ s.pend, ∃ fid v, e = .publish fid v

theorem State.Inv.stored {s : State} (h : s.Inv) : s.Stored :=
  ⟨h.canonical, h.inBuffer, h.lenInCap, h.valued, h.stamped⟩

/-- Fewer bytes of the same memory. -/
theorem State.Stored.of_len_le {s t : State} (h : s.Stored) (hmem : t.mem = s.mem) (hlen : t.len ≤ s.len)
    (hpar : t.params = s.params) (hts : t.lastTs < 2 ^ s.params.tsW) : t.Stored where
  canonical := by rw [hmem]; exact h.canonical
  inBuffer := by rw [hmem, hpar]; exact h.inBuffer
  lenInCap := by rw [hpar]; exact hlen.trans h.lenInCap
  valued := by rw [hmem]; exact fun i hi => h.valued i (hi.trans_le hlen)
  stamped := by rw [hpar]; exact hts

/-- BUF, LEN, LAST_TS and the parameters are all it looks at. -/
theorem State.Stored.congr {s t : State} (h : s.Stored) (hmem : t.mem = s.mem := by rfl) (hlen : t.len = s.len := by rfl)
    (hpar : t.params = s.params := by rfl) (hts : t.lastTs = s.lastTs := by rfl) : t.Stored :=
  h.of_len_le hmem hlen.le hpar (hts ▸ h.stamped)

theorem State.nowPort_lt (s : State) : s.nowPort < 2 ^ s.params.tsW := Nat.mod_lt _ (by positivity)

theorem State.Stored.append {s : State} (h : s.Stored) (b : Byte) : (s.append b).Stored := by
  by_cases hroom : s.len < s.params.bufCap
  · rw [State.append_of_len_lt hroom]
    refine ⟨Memory.wf_write _ _ h.canonical, fun c hc => ?_, hroom, fun i hi => ?_, h.stamped⟩
    · rcases Memory.mem_write hc with rfl | hc
      · exact hroom
      · exact h.inBuffer c hc
    · rcases Nat.lt_succ_iff_lt_or_eq.1 hi with hi | rfl
      · rw [Memory.read_write_other _ _ hi.ne]
        exact h.valued i hi
      · rw [Memory.read_write_same]
        rfl
  · rwa [State.append_of_saturated (Nat.le_of_not_lt hroom)]

theorem State.Stored.receive {s : State} (h : s.Stored) (b : Byte) : (s.receive b).Stored := by
  refine State.Stored.append (h.of_len_le ?_ ?_ ?_ ?_) b
  · simp
  · rw [State.keptLen_eq]
    split
    · exact Nat.zero_le _
    · exact le_rfl
  · simp
  · rw [State.stamp_lastTs, State.nowPort_timeoutDiscard]
    exact s.nowPort_lt

theorem State.not_wellStarted_of_dead {s : State} (h : s.dead) : ¬s.wellStarted := by
  rintro ⟨-, h0, h1⟩
  obtain ⟨-, b0, b1, h0', h1', hmarker⟩ := h
  rw [h0] at h0'
  rw [h1] at h1'
  obtain rfl := Option.some.inj h0'
  obtain rfl := Option.some.inj h1'
  exact hmarker.elim (· rfl) (· rfl)

/-- Between commands with an empty buffer. -/
theorem State.Stored.inv_of_empty {s : State} (h : s.Stored) (hp : s.phase = .rest) (hlen : s.len = 0)
    (hcode : ∃ c : Code, s.res = c.toBits) (hpend : s.PendsPublishes) : s.Inv where
  canonical := h.canonical
  inBuffer := h.inBuffer
  lenInCap := h.lenInCap
  valued := h.valued
  stamped := h.stamped
  coded := hcode
  cleared _ _ := hlen
  unfinished _ hstart := absurd hstart.1 (by omega)
  pending := hpend
  decoding hd := absurd (hp.symm.trans hd) nofun

/-- The end of a FEED that consumes its frame (R127). -/
theorem State.Stored.inv_finish_consumed {s : State} (h : s.Stored) (hpend : s.PendsPublishes) {c : Code}
    (hc : c.consumed = true) : (s.finish c).Inv := by
  have hlen : (s.finish c).len = 0 := by simp [hc]
  have hstored : (s.finish c).Stored := h.of_len_le rfl (by omega) rfl h.stamped
  exact hstored.inv_of_empty rfl hlen ⟨c, rfl⟩ hpend

/-- The end of a FEED that keeps its buffer, which holds no whole frame. -/
theorem State.Stored.inv_finish_kept {s : State} (h : s.Stored) (hpend : s.PendsPublishes) {c : Code}
    (hc : c.consumed = false)
    (hun : s.wellStarted → s.len ≤ 10 ∨ ∃ n, s.buf 8 = some n ∧ 11 ≤ s.len ∧ s.len < 11 + n.toNat) :
    (s.finish c).Inv := by
  rw [State.finish_of_not_consumed s hc]
  exact { canonical := h.canonical, inBuffer := h.inBuffer, lenInCap := h.lenInCap, valued := h.valued,
          stamped := h.stamped, coded := ⟨c, rfl⟩, cleared := fun _ hbit => absurd (hc.symm.trans hbit) nofun,
          unfinished := fun _ => hun, pending := hpend, decoding := nofun }

/-- A step inside a FEED that stays inside it. -/
theorem State.Inv.decode_next {s t : State} (h : s.Inv) (hp : s.phase = .decode) (hkeeps : s.KeepsFrame t)
    (hlen : t.len = s.len) (hres : t.res = s.res) (hphase : t.phase = .decode) (hpend : t.PendsPublishes)
    (hroutine : t.inRoutine) : t.Inv := by
  have hstored : t.Stored :=
    h.stored.of_len_le hkeeps.mem hlen.le hkeeps.params (by rw [hkeeps.lastTs]; exact h.stamped)
  obtain ⟨hplen, hframe, -⟩ := h.decoding hp
  exact { canonical := hstored.canonical, inBuffer := hstored.inBuffer, lenInCap := hstored.lenInCap,
          valued := hstored.valued, stamped := hstored.stamped, coded := by rw [hres]; exact h.coded,
          cleared := fun hr => absurd (hphase.symm.trans hr) nofun,
          unfinished := fun hr => absurd (hphase.symm.trans hr) nofun, pending := hpend,
          decoding := fun _ => ⟨by rw [hkeeps.plen, hkeeps.n, hplen], by rw [hlen, hkeeps.n, hframe], hroutine⟩ }

/-- A field publishes, or does nothing. -/
theorem exists_publish_of_mem_fieldEvents {ws slice : List Byte} {i : Instr} {e : Event}
    (h : e ∈ fieldEvents ws i slice) : ∃ fid v, e = .publish fid v := by
  cases i with
  | text supp n fid =>
    rw [fieldEvents] at h
    split at h
    · cases h
    · exact ⟨_, _, List.mem_singleton.1 h⟩
  | skip | reset | idle | feed | regrd | rtn | nodata | lgcy | end_ => cases h
  | _ => exact ⟨_, _, List.mem_singleton.1 h⟩

theorem State.Inv.of_decoded {s t : State} (h : s.Inv) (hp : s.phase = .decode) (ht : s.Decoded t) : t.Inv := by
  cases ht with
  | matched dp fs rs hsuffix hsum =>
    have hroutine : ({ s with cur := 0#8, pend := [], dp := dp } : State).inRoutine :=
      State.inRoutine_iff.2 ⟨_, hsuffix, nofun, by simpa [State.fits] using hsum⟩
    exact h.decode_next hp (by constructor <;> rfl) rfl rfl hp nofun hroutine
  | mismatched e => exact (h.stored.congr (t := s.emit _)).inv_finish_consumed h.pending rfl
  | legacy e fid fs rs hsuffix =>
    have hroutine : ((s.emit (.sizeMismatch e s.plen)).advance 1).inRoutine :=
      State.inRoutine_iff.2 ⟨_, hsuffix, nofun, trivial⟩
    exact h.decode_next hp (by constructor <;> rfl) rfl rfl hp h.pending hroutine
  | noData => exact h.stored.inv_finish_consumed h.pending rfl
  | fellBack fid => exact (h.stored.congr (t := s.emit _)).inv_finish_consumed h.pending rfl
  | field i fs rs bytes hi hsuffix hfit =>
    have hcur := toNat_cur_add (w := i.width) (cur := s.cur) (plen := s.plen) (by omega)
    refine h.decode_next hp (by constructor <;> rfl) rfl rfl hp (fun e he => ?_)
      (State.inRoutine_iff.2 ⟨_, hsuffix, nofun, ?_⟩)
    · exact (List.mem_append.1 he).elim (h.pending e) exists_publish_of_mem_fieldEvents
    · rw [State.fits, hcur]
      exact hfit
  | ended =>
    have hnone : s.commit.PendsPublishes := fun e he => absurd he List.not_mem_nil
    exact (h.stored.congr (t := s.commit)).inv_finish_consumed hnone rfl

/-- A FEED's buffer is at most one byte longer than what no whole frame is. -/
theorem State.Inv.receive_len {s : State} (h : s.Inv) (hp : s.phase = .rest) (b : Byte)
    (hstart : (s.receive b).wellStarted) :
    (s.receive b).len ≤ 11 ∨ ∃ n, (s.receive b).buf 8 = some n ∧ (s.receive b).len ≤ 11 + n.toNat := by
  have hgrow : (s.receive b).len ≤ s.timeoutDiscard.stamp.len + 1 := by
    rw [State.receive, State.append_len]
    split <;> omega
  cases htime : s.timedOut with
  | true =>
    have hkept : s.timeoutDiscard.stamp.len = 0 := by rw [State.keptLen_eq, htime]; rfl
    exact .inl (by omega)
  | false =>
    have hkept : s.timeoutDiscard = s := by rw [State.timeoutDiscard, htime]; rfl
    have hlen : s.timeoutDiscard.stamp.len = s.len := by rw [hkept, State.stamp_len]
    have hbuf : ∀ i, i < s.len → (s.receive b).buf i = s.buf i := fun i hi => by
      rw [State.receive, hkept]
      exact State.buf_append_below b hi
    by_cases h2 : s.len < 2
    · exact .inl (by omega)
    · obtain ⟨-, h0, h1⟩ := hstart
      rw [hbuf 0 (by omega)] at h0
      rw [hbuf 1 (by omega)] at h1
      rcases h.unfinished hp ⟨by omega, h0, h1⟩ with h10 | ⟨n, hn, h11, hshort⟩
      · exact .inl (by omega)
      · exact .inr ⟨n, (hbuf 8 (by omega)).trans hn, by omega⟩

theorem State.Inv.startCommand {s : State} (h : s.Inv) : s.startCommand.Inv :=
  ⟨h.canonical, h.inBuffer, h.lenInCap, h.valued, h.stamped, h.coded, h.cleared, h.unfinished, h.pending, h.decoding⟩

/-- A FEED that enters a routine: the frame ends the buffer, for without its last byte it was not whole. -/
theorem State.Stored.inv_entered {u : State} (h : u.Stored) (hpend : u.PendsPublishes)
    (hcoded : ∃ c : Code, u.res = c.toBits) {raw : List Byte} {c f n : Byte} {ck : Half} {a : Nat} {r : Routine}
    {rs : List Routine} (hframe : u.WholeFrame raw c f n ck ck)
    (hgrow : u.wellStarted → u.len ≤ 11 ∨ ∃ n, u.buf 8 = some n ∧ u.len ≤ 11 + n.toNat) (hlen : u.rom.length ≤ 65536)
    (hsuffix : RomSuffix u.rom a (.atHeader (r :: rs))) :
    ({ u.withSums c f n ck ck with plen := n, dp := BitVec.ofNat 16 a, phase := .decode } : State).Inv := by
  have hend : u.len = 11 + n.toNat := by
    have hwhole := hframe.whole
    rcases hgrow hframe.started with h11 | ⟨n', hn', hle⟩
    · omega
    · obtain rfl := Option.some.inj (hn'.symm.trans hframe.length)
      omega
  have hdp := hsuffix.toNat_ofNat hlen nofun
  have hroutine : ({ u.withSums c f n ck ck with plen := n, dp := BitVec.ofNat 16 a, phase := .decode } : State).inRoutine :=
    State.inRoutine_iff.2 ⟨_, (hdp.symm ▸ hsuffix :), nofun, trivial⟩
  exact { canonical := h.canonical, inBuffer := h.inBuffer, lenInCap := h.lenInCap, valued := h.valued,
          stamped := h.stamped, coded := hcoded, cleared := nofun, unfinished := nofun, pending := hpend,
          decoding := fun _ => ⟨rfl, hend, hroutine⟩ }

theorem State.Inv.of_reset {s t : State} (h : s.Inv) (ht : exec .reset s = .next t) : t.Inv := by
  cases ht
  have hstored := h.stored.of_len_le (t := { s.startCommand with len := 0, lastTs := 0, res := 0x0#4, phase := .rest })
    rfl (Nat.zero_le _) rfl (Nat.two_pow_pos _)
  exact hstored.inv_of_empty rfl rfl ⟨.incomplete, rfl⟩ h.pending

/-- The invariant does not look at the input ports. -/
theorem State.Inv.load {s : State} (h : s.Inv) (inputs : List Tick) (now : Nat) (stat : Option (BitVec 3)) :
    ({ s with inputs := inputs, now := now, stat := stat } : State).Inv :=
  ⟨h.canonical, h.inBuffer, h.lenInCap, h.valued, h.stamped, h.coded, h.cleared, h.unfinished, h.pending, h.decoding⟩

/-- FEED keeps the invariant, whatever its class of outcome. -/
theorem State.Inv.of_feed {s t : State} (h : s.Inv) (hp : s.phase = .rest) (hok : paramsOk s.params) {b : Byte}
    (ht : exec (.feed b) s = .next t) : t.Inv := by
  have hstored : (s.startCommand.receive b).Stored := h.startCommand.stored.receive b
  have hpend : (s.startCommand.receive b).PendsPublishes := by
    rw [State.PendsPublishes, State.receive_pend]
    exact h.pending
  have hcoded : ∃ c : Code, (s.startCommand.receive b).res = c.toBits := by
    rw [State.receive_res]
    exact h.coded
  have hgrow := h.startCommand.receive_len hp b
  have hrom := receive_startCommand_rom s b
  have ht := State.validated_of_tryValidate ht
  generalize s.startCommand.receive b = u at *
  cases ht with
  | short hlen => exact hstored.inv_finish_kept hpend rfl fun hstart => absurd hstart.1 (by omega)
  | dead hdead => exact hstored.inv_finish_kept hpend rfl fun hstart => absurd hstart (State.not_wellStarted_of_dead hdead)
  | begun hstart hlen => exact hstored.inv_finish_kept hpend rfl fun _ => .inl (by omega)
  | waiting c f n hstart hlen hn hshort =>
    have hstored : ({ u with ctl := c, fn := f, n := n } : State).Stored := hstored.congr
    exact hstored.inv_finish_kept hpend rfl fun _ => .inr ⟨n, hn, hlen, hshort⟩
  | mismatch raw c f n computed received =>
    exact (hstored.congr (t := (u.withSums c f n computed received).emit _)).inv_finish_consumed hpend rfl
  | unknown raw c f n ck a =>
    have hstored : (({ u.withSums c f n ck ck with plen := n, dp := BitVec.ofNat 16 a } : State).emit
      (.unknownKey u.params.role c f)).Stored := hstored.congr
    exact hstored.inv_finish_consumed hpend rfl
  | entered raw c f n ck a hframe hscan =>
    obtain ⟨hlen, is, rs, his, hrs, -⟩ := hok.rom
    rw [hrom] at hscan
    obtain ⟨r, rest, -, hsuffix⟩ := romSuffix_of_scan_found his hrs hscan
    exact hstored.inv_entered hpend hcoded hframe hgrow (hrom ▸ hlen) (hrom ▸ hsuffix)

/-- Settles O46: at rest by the command, whose classes of outcome each keep it; inside a FEED by the descriptor at DP. -/
theorem invariantKept : Obligations.InvariantKept := by
  intro s t h hstep
  obtain ⟨hok, ⟨-, -, -, rfl⟩ | ⟨n, hp, -, hexec⟩ | ⟨k, ks, hp, -, -, hexec⟩ | ⟨w, i, hp, -⟩⟩ := step_next hstep
  · exact h
  · cases hexec
    have hcleared := (h.load s.inputs s.now none).startCommand
    exact ⟨hcleared.canonical, hcleared.inBuffer, hcleared.lenInCap, hcleared.valued, hcleared.stamped, hcleared.coded,
      hcleared.cleared, hcleared.unfinished, hcleared.pending, hcleared.decoding⟩
  · have hloaded : ({ s with inputs := ks, now := k.now, stat := k.stat } : State).Inv :=
      ⟨h.canonical, h.inBuffer, h.lenInCap, h.valued, h.stamped, h.coded, h.cleared, h.unfinished, h.pending, h.decoding⟩
    rcases decodeCommand_cases k.cmd with hi | hi | ⟨b, hi⟩ <;> rw [hi] at hexec
    · exact hloaded.of_reset hexec
    · cases hexec
      exact hloaded.startCommand
    · exact hloaded.of_feed hp hok hexec
  · obtain ⟨t', ht', hdecoded⟩ := h.decoded hok hp
    cases ht'.symm.trans hstep
    exact h.of_decoded hp hdecoded

/-- Settles O45: the buffer is empty and RES is the code of INCOMPLETE. -/
theorem invariantAtReset : Obligations.InvariantAtReset := by
  intro p ts
  have hstored : ({ State.reset with params := p, inputs := ts } : State).Stored :=
    ⟨rfl, nofun, Nat.zero_le _, nofun, Nat.two_pow_pos _⟩
  exact hstored.inv_of_empty rfl rfl ⟨.incomplete, rfl⟩ nofun

/-! ### No stop and no Overrun -/

theorem State.dispatch_not_refused {s : State} (hscan : ∀ c f, scanHeaders c f true 0 s.rom ≠ .illFormed) (r : Refusal) :
    s.dispatch ≠ .refused r := by
  rcases s.dispatch_cases with ⟨hill, -⟩ | ⟨a, -, hd⟩ | ⟨a, -, hd⟩
  · exact absurd hill (hscan _ _)
  · rw [hd]; nofun
  · rw [hd]; nofun

/-- The checksums decide between the dispatch and the report. -/
theorem State.checkFrame_cases (s : State) (raw : List Byte) :
    (∃ ck, s.checkFrame raw = ({ s with sum := ck, rcv := ck } : State).dispatch) ∨ ∃ t, s.checkFrame raw = .next t := by
  by_cases hck : checksumOf (raw.take (9 + s.n.toNat)) = receivedOf ((raw.drop (9 + s.n.toNat)).take 2)
  · exact .inl ⟨_, State.checkFrame_of_match rfl hck.symm⟩
  · exact .inr ⟨_, State.checkFrame_of_mismatch rfl rfl hck⟩

theorem State.checkFrame_not_refused {s : State} (hscan : ∀ c f, scanHeaders c f true 0 s.rom ≠ .illFormed)
    (raw : List Byte) (r : Refusal) : s.checkFrame raw ≠ .refused r := by
  rcases s.checkFrame_cases raw with ⟨ck, hck⟩ | ⟨t, ht⟩
  · rw [hck]
    exact State.dispatch_not_refused (s := { s with sum := ck, rcv := ck }) hscan r
  · rw [ht]; nofun

/-- The validation is refused only where the scan meets what is no header. -/
theorem State.tryValidate_not_refused {s : State} (hscan : ∀ c f, scanHeaders c f true 0 s.rom ≠ .illFormed) (r : Refusal) :
    s.tryValidate ≠ .refused r := by
  rcases s.tryValidate_cases with ⟨-, hv⟩ | ⟨-, -, hv⟩ | ⟨-, hv⟩ | ⟨-, -, hv⟩ | ⟨-, -, -, hv⟩ |
    ⟨c, f, n, -, -, -, -, -, hv⟩
  case inr.inr.inr.inr.inr =>
    rw [hv]
    rcases s.checkLength_cases c f n with ⟨-, hl⟩ | ⟨-, -, hl⟩ | ⟨raw, -, -, hl⟩
    · rw [hl]; nofun
    · rw [hl]; nofun
    · rw [hl]
      exact State.checkFrame_not_refused (s := { s with ctl := c, fn := f, n := n }) hscan raw r
  all_goals rw [hv]; nofun

theorem State.dispatch_not_fault (s : State) (r : Fault) : s.dispatch ≠ .fault r := by
  rcases s.dispatch_cases with ⟨-, hd⟩ | ⟨a, -, hd⟩ | ⟨a, -, hd⟩ <;> rw [hd] <;> nofun

/-- The validation faults only where a byte below LEN has no value. -/
theorem State.tryValidate_not_fault {s : State} (hvalued : ∀ i, i < s.len → (Memory.read s.mem i).isSome = true)
    (r : Fault) : s.tryValidate ≠ .fault r := by
  have hbuf : ∀ i, i < s.len → s.buf i ≠ none := fun i hi hnone => by
    rw [State.buf_of_lt hi] at hnone
    have := hvalued i hi
    rw [hnone] at this
    cases this
  rcases s.tryValidate_cases with ⟨-, hv⟩ | ⟨hlen, hnone, -⟩ | ⟨-, hv⟩ | ⟨-, -, hv⟩ | ⟨-, hlen, hnone, -⟩ |
    ⟨c, f, n, -, -, -, -, -, hv⟩
  · rw [hv]; nofun
  · exact (hnone.elim (hbuf 0 (by omega)) (hbuf 1 (by omega))).elim
  · rw [hv]; nofun
  · rw [hv]; nofun
  · exact (hnone.elim (hbuf 6 (by omega)) (·.elim (hbuf 7 (by omega)) (hbuf 8 (by omega)))).elim
  · rw [hv]
    rcases s.checkLength_cases c f n with ⟨-, hl⟩ | ⟨-, hnone, -⟩ | ⟨raw, -, -, hl⟩
    · rw [hl]; nofun
    · obtain ⟨bytes, hbytes⟩ := State.exists_bufSlice hvalued (a := 0) (n := s.len) (by omega)
      cases hnone.symm.trans hbytes
    · rw [hl]
      rcases State.checkFrame_cases _ raw with ⟨ck, hck⟩ | ⟨t, ht⟩
      · rw [hck]
        exact State.dispatch_not_fault _ r
      · rw [ht]; nofun

/-- With parameters an instance may have, no instruction is refused, in any state. -/
theorem exec_not_refused {s : State} (hok : paramsOk s.params) (i : Instr) (r : Refusal) : exec i s ≠ .refused r := by
  by_cases hfield : i.isField = true
  · rw [exec_field hfield]
    exact s.readField_not_refused _ _ r
  · cases i with
    | feed b =>
      obtain ⟨-, is, rs, his, hrs, -⟩ := hok.rom
      refine State.tryValidate_not_refused (fun c f => ?_) r
      rw [receive_startCommand_rom]
      exact scanHeaders_ne_illFormed his hrs c f
    | rtn lg c f e =>
      rw [exec, execRtn]
      split
      · nofun
      · cases lg <;> nofun
    | reset | idle | regrd | nodata | lgcy | end_ => nofun
    | _ => exact absurd rfl hfield

/-- The fetch runs in a state with the same parameters, and meets an illegal word only where the ROM holds one. -/
theorem State.fetch_cases (s : State) :
    s.fetch = .wait ∨ s.fetch = .beyondRom ∨ (∃ w why, w ∈ s.rom ∧ decodeDescriptor w = .error why) ∨
      ∃ i s', s.fetch = .run i s' ∧ s'.params = s.params := by
  unfold State.fetch
  split
  · split
    · exact .inr (.inl rfl)
    next w hw =>
      split
      next why hwhy => exact .inr (.inr (.inl ⟨w, why, List.mem_of_getElem? hw, hwhy⟩))
      next i hi => exact .inr (.inr (.inr ⟨i, s, rfl, rfl⟩))
  · split
    next n hn => exact .inr (.inr (.inr ⟨_, _, rfl, rfl⟩))
    next =>
      split
      · exact .inl rfl
      next k ks hi => exact .inr (.inr (.inr ⟨_, _, rfl, rfl⟩))

theorem step_not_refused {s : State} (hok : paramsOk s.params) (r : Refusal) : step s ≠ .refused r := by
  have hdefect : paramsDefect s.params = none := hok
  obtain ⟨-, is, rs, his, -⟩ := hok.rom
  rcases s.fetch_cases with hf | hf | ⟨w, why, hmem, hwhy⟩ | ⟨i, s', hf, hpar⟩
  · simp [step, hdefect, hf]
  · simp [step, hdefect, hf]
  · cases (decodeRom_of_illegal hmem hwhy).symm.trans his
  · rw [step_run hok hf]
    exact exec_not_refused (hpar ▸ hok) i r

/-- FEED from a state that meets the invariant answers a next state. -/
theorem State.Inv.feed_next {s : State} (h : s.Inv) (hok : paramsOk s.params) (b : Byte) :
    ∃ t, exec (.feed b) s = .next t := by
  rcases hexec : exec (.feed b) s with t | r | r
  · exact ⟨t, rfl⟩
  · exact absurd hexec (State.tryValidate_not_fault (h.startCommand.stored.receive b).valued r)
  · exact absurd hexec (exec_not_refused hok _ r)

/-- Settles O47: inside a FEED by the word that stands at DP; at rest only a FEED could stop, and it has its bytes and its
headers. No state is refused, for every word of the ROM is legal. -/
theorem neverStops : Obligations.NeverStops := by
  refine ⟨fun s h hok => ?_, fun s r hok => ?_⟩
  · cases hp : s.phase with
    | decode =>
      obtain ⟨t, ht, -⟩ := h.decoded hok hp
      exact ⟨t, ht⟩
    | rest =>
      cases hs : s.stat with
      | some n => exact ⟨_, step_run hok (State.fetch_statusRead hp hs)⟩
      | none =>
        cases hi : s.inputs with
        | nil => exact ⟨s, (stepRunsDecoded s hok).1 hp hs hi⟩
        | cons k ks =>
          rw [step_run hok (State.fetch_command hp hs hi)]
          rcases decodeCommand_cases k.cmd with hi | hi | ⟨b, hi⟩ <;> rw [hi]
          · exact ⟨_, rfl⟩
          · exact ⟨_, rfl⟩
          · exact (h.load ks k.now k.stat).feed_next hok b
  · exact step_not_refused hok r

/-- Where END stands no field is left to read, so the cursor is at the payload end. -/
theorem State.inRoutine.cur_of_end {s : State} (h : s.inRoutine) (hend : s.rom[s.dp.toNat]? = some endWord) :
    s.cur = s.plen := by
  have honly : ∀ {i : Instr}, RomAt s.rom s.dp.toNat i → i = .end_ := fun ⟨w, hw, hi⟩ => by
    obtain rfl := Option.some.inj (hw.symm.trans hend)
    exact Except.ok.inj (hi.symm.trans (decodeDescriptor_end.2 rfl))
  obtain ⟨p, hsuffix, hne, hfit⟩ := State.inRoutine_iff.1 h
  obtain ⟨i, q, hi, -, hprod⟩ := hsuffix.first hne
  obtain rfl := honly hi
  cases hprod with
  | end_ rs => exact BitVec.eq_of_toNat_eq hfit
  | field _ _ _ hfield => cases hfield

/-- A step from a state that meets the invariant writes no Overrun: not its code, and not its event. -/
theorem State.Decoded.no_overrun {s t : State} (h : s.Decoded t) (hpend : s.PendsPublishes) :
    (t.res = 0xD#4 → s.res = 0xD#4) ∧
      ∀ dp c w p, .overrun dp c w p ∈ t.events → .overrun dp c w p ∈ s.events := by
  cases h with
  | matched => exact ⟨id, fun _ _ _ _ => id⟩
  | field => exact ⟨id, fun _ _ _ _ => id⟩
  | legacy => exact ⟨id, fun dp c w p he => by simpa using he⟩
  | mismatched => exact ⟨fun h => absurd h (by decide : Code.size.toBits ≠ 0xD#4), fun dp c w p he => by simpa using he⟩
  | fellBack => exact ⟨fun h => absurd h (by decide : Code.size.toBits ≠ 0xD#4), fun dp c w p he => by simpa using he⟩
  | noData => exact ⟨fun h => absurd h (by decide : Code.noData.toBits ≠ 0xD#4), fun _ _ _ _ => id⟩
  | ended =>
    refine ⟨fun h => absurd h (by decide : Code.decoded.toBits ≠ 0xD#4), fun dp c w p he => ?_⟩
    rcases List.mem_append.1 he with he | he
    · exact he
    · obtain ⟨fid, v, hev⟩ := hpend _ he
      cases hev

theorem State.Validated.no_overrun {s t : State} (h : s.Validated t) (hevents : s.events = []) :
    (t.res = 0xD#4 → s.res = 0xD#4) ∧ ∀ dp c w p, .overrun dp c w p ∉ t.events := by
  cases h with
  | short | begun | waiting =>
    exact ⟨fun h => absurd h (by decide : Code.incomplete.toBits ≠ 0xD#4), fun _ _ _ _ he => by simp [hevents] at he⟩
  | dead =>
    exact ⟨fun h => absurd h (by decide : Code.malformedStart.toBits ≠ 0xD#4), fun _ _ _ _ he => by simp [hevents] at he⟩
  | mismatch =>
    exact ⟨fun h => absurd h (by decide : Code.checksum.toBits ≠ 0xD#4), fun _ _ _ _ he => by
      simp [hevents, State.withSums] at he⟩
  | unknown =>
    exact ⟨fun h => absurd h (by decide : Code.unknown.toBits ≠ 0xD#4), fun _ _ _ _ he => by
      simp [hevents, State.withSums] at he⟩
  | entered => exact ⟨id, fun _ _ _ _ he => by simp [hevents, State.withSums] at he⟩

/-- Settles O48: no class of next state writes an Overrun, and END commits Publish events only. -/
theorem overrunUnreachable : Obligations.OverrunUnreachable := by
  intro s t h hstep
  obtain ⟨hok, hcases⟩ := step_next hstep
  have hcur : s.phase = .decode → s.rom[s.dp.toNat]? = some endWord → s.cur = s.plen := fun hp hend => by
    obtain ⟨-, -, hroutine⟩ := h.decoding hp
    exact hroutine.cur_of_end hend
  rw [← and_assoc]
  refine ⟨?_, hcur⟩
  obtain ⟨-, -, -, rfl⟩ | ⟨n, -, -, hexec⟩ | ⟨k, ks, hp, -, -, hexec⟩ | ⟨w, i, hp, -⟩ := hcases
  · exact ⟨id, fun _ _ _ _ => id⟩
  · cases hexec
    exact ⟨id, fun _ _ _ _ he => absurd he List.not_mem_nil⟩
  · rcases decodeCommand_cases k.cmd with hi | hi | ⟨b, hi⟩ <;> rw [hi] at hexec
    · cases hexec
      exact ⟨fun h => absurd h (by decide : 0x0#4 ≠ 0xD#4), fun _ _ _ _ he => absurd he List.not_mem_nil⟩
    · cases hexec
      exact ⟨id, fun _ _ _ _ he => absurd he List.not_mem_nil⟩
    · have hvalidated := State.validated_of_tryValidate hexec
      obtain ⟨hres, hevents⟩ := hvalidated.no_overrun (receive_startCommand_events _ b)
      exact ⟨by simpa using hres, fun dp c w p he => absurd he (hevents dp c w p)⟩
  · obtain ⟨t', ht', hdecoded⟩ := h.decoded hok hp
    cases ht'.symm.trans hstep
    exact hdecoded.no_overrun h.pending

end Sys2Proof.Machine

/-! ### A routine run to its end (R190 to R197)

`settle` over the words of a routine is `routineResult` of the routine and the payload: by induction on the fields, each of
which takes its bytes off the payload not yet read. -/

namespace Sys2Proof.Machine

/-- The payload of the frame being decoded, `BUF[9 : 9+PLEN)` (R53). -/
def State.payload (s : State) : Option (List Byte) := s.bufSlice 9 s.plen.toNat

/-- A slice of a run of reads is a run of reads. -/
theorem readRun_slice {f : Nat → Option Byte} {a n : Nat} {l : List Byte} (h : readRun f a n = some l) {k w : Nat}
    (hkw : k + w ≤ n) : readRun f (a + k) w = some ((l.drop k).take w) := by
  obtain ⟨hlen, hget⟩ := readRun_eq_some.1 h
  refine readRun_eq_some.2 ⟨by rw [List.length_take, List.length_drop]; omega, fun i hi => ?_⟩
  rw [List.getElem?_take_of_lt hi, List.getElem?_drop, ← hget _ (by omega), Nat.add_assoc]

/-- What the rest of a FEED leaves when it has come to its end inside a routine: the code and the events, an empty buffer, and
a descriptor's frame. -/
structure State.Ends (s t : State) (c : Code) (events : List Event) : Prop where
  frame : s.KeepsFrame t
  phase : t.phase = .rest
  res : t.res = c.toBits
  ready : t.ready = true
  len : t.len = 0
  events : t.events = events

theorem State.Ends.of_step {s u t : State} {c : Code} {events : List Event} (h : u.Ends t c events)
    (hframe : s.KeepsFrame u) : s.Ends t c events :=
  ⟨hframe.trans h.frame, h.phase, h.res, h.ready, h.len, h.events⟩

theorem State.ends_finish {s u : State} {c : Code} (hframe : s.KeepsFrame u) (hc : c.consumed = true) :
    s.Ends (u.finish c) c u.events where
  frame := hframe.trans (by constructor <;> rfl)
  phase := rfl
  res := rfl
  ready := hc
  len := by simp [hc]
  events := rfl

/-- The fields up to the END, over the payload they have left to read. -/
theorem settle_fields {fs : List Instr} {rs : List Routine} {payload : List Byte} {s : State} {k : Nat}
    (hok : paramsOk s.params) (hp : s.phase = .decode) (h : RomSuffix s.rom s.dp.toNat (.inFields fs rs))
    (hpayload : s.payload = some payload) (hfit : s.cur.toNat + widthSum fs = s.plen.toNat) (hk : fs.length < k) :
    ∃ t, settle k s = .next t ∧
      s.Ends t .decoded (s.events ++ s.pend ++ fieldsEvents s.params.ws fs (payload.drop s.cur.toNat)) := by
  induction fs generalizing s k with
  | nil =>
    obtain ⟨k, rfl⟩ := Nat.exists_eq_add_of_lt hk
    have hstep : step s = .next (s.commit.finish .decoded) := step_romAt hok hp h.end_
    refine ⟨_, (settle_succ_of_step hp hstep).trans (settle_of_rest _ rfl), ?_⟩
    rw [fieldsEvents, List.append_nil]
    exact State.ends_finish (u := s.commit) (by constructor <;> rfl) rfl
  | cons i fs ih =>
    obtain ⟨k, rfl⟩ : ∃ k', k = k' + 1 := ⟨k - 1, by omega⟩
    obtain ⟨hi, hfield, hrest⟩ := h.field
    rw [widthSum_cons] at hfit
    have hread : s.cur.toNat + i.width ≤ s.plen.toNat := by omega
    have hstep := (step_romAt hok hp hi).trans (exec_field_of_fits hfield hread (readRun_slice hpayload hread))
    have hcur := toNat_cur_add hread
    have hdp := hrest.toNat_dp hok.rom.1 nofun
    rw [settle_succ_of_step hp hstep]
    obtain ⟨t, ht, hends⟩ := ih (k := k) (s := { s with
        cur := s.cur + BitVec.ofNat 8 i.width, dp := s.dp + 1#16
        acc := fieldAcc i s.acc ((payload.drop s.cur.toNat).take i.width)
        pend := s.pend ++ fieldEvents s.params.ws i ((payload.drop s.cur.toNat).take i.width) })
      hok hp (hdp.symm ▸ hrest :) hpayload (by simp only [hcur]; omega) (by simpa using hk)
    refine ⟨t, ht, ?_⟩
    have := hends.of_step (s := s) (by constructor <;> rfl)
    simpa only [hcur, fieldsEvents, List.append_assoc, List.drop_drop] using this

/-- After a size check that passes, the decode loop runs over the whole payload (R194). -/
theorem settle_matched {lg : Bool} {c f e : Byte} {fs : List Instr} {rs : List Routine} {payload : List Byte} {s : State}
    {k : Nat} (hok : paramsOk s.params) (hp : s.phase = .decode) (hi : RomAt s.rom s.dp.toNat (.rtn lg c f e))
    (hrest : RomSuffix s.rom (s.dp + (if lg = true then 2#16 else 1#16)).toNat (.inFields fs rs))
    (hpayload : s.payload = some payload) (hsize : s.plen = e) (hsum : widthSum fs = e.toNat) (hk : fs.length + 1 < k) :
    ∃ t, settle k s = .next t ∧ s.Ends t .decoded (s.events ++ fieldsEvents s.params.ws fs payload) := by
  obtain ⟨k, rfl⟩ : ∃ k', k = k' + 1 := ⟨k - 1, by omega⟩
  have hstep := (step_romAt hok hp hi).trans (exec_rtn_of_eq hsize lg c f)
  rw [settle_succ_of_step hp hstep]
  obtain ⟨t, ht, hends⟩ := settle_fields (k := k)
    (s := { s with cur := 0#8, pend := [], dp := s.dp + (if lg = true then 2#16 else 1#16) }) hok hp hrest hpayload
    (by simpa [hsize] using hsum) (by omega)
  refine ⟨t, ht, ?_⟩
  simpa using hends.of_step (s := s) (by constructor <;> rfl)

/-- One step that ends the frame. -/
theorem settle_of_finish {s u : State} {c : Code} {k : Nat} (hp : s.phase = .decode) (hstep : step s = .next (u.finish c))
    (hframe : s.KeepsFrame u) (hc : c.consumed = true) (hk : 0 < k) :
    ∃ t, settle k s = .next t ∧ s.Ends t c u.events := by
  obtain ⟨k, rfl⟩ : ∃ k', k = k' + 1 := ⟨k - 1, by omega⟩
  exact ⟨_, (settle_succ_of_step hp hstep).trans (settle_of_rest _ rfl), State.ends_finish hframe hc⟩

theorem routineResult_noData {r : Routine} (hkind : r.kind = .noData) (ws payload : List Byte) :
    routineResult ws r payload = (.noData, []) := by
  rw [routineResult, hkind]

theorem routineResult_of_eq {r : Routine} {payload : List Byte} (hkind : r.kind = .decode)
    (hsize : payload.length = r.explen.toNat) (ws : List Byte) :
    routineResult ws r payload = (.decoded, fieldsEvents ws r.fields payload) := by
  simp [routineResult, hkind, hsize]

theorem routineResult_of_ne {r : Routine} {payload : List Byte} (hkind : r.kind = .decode) (hlegacy : r.legacy = none)
    (hsize : payload.length ≠ r.explen.toNat) (ws : List Byte) :
    routineResult ws r payload = (.size, [.sizeMismatch r.explen (BitVec.ofNat 8 payload.length)]) := by
  simp [routineResult, hkind, hsize, hlegacy]

theorem routineResult_legacy_of_ne {r : Routine} {payload : List Byte} {fid : Fid} (hkind : r.kind = .decode)
    (hlegacy : r.legacy = some fid) (hsize : payload.length ≠ r.explen.toNat) (ws : List Byte) :
    routineResult ws r payload = (.size, [.sizeMismatch r.explen (BitVec.ofNat 8 payload.length),
      .publish fid (.num payload.length 0#2)]) := by
  simp [routineResult, hkind, hsize, hlegacy]

/-- A routine from its header, over the whole payload: the size check, then the fields or the signals. -/
theorem settle_routine {r : Routine} {rs : List Routine} {payload : List Byte} {s : State} {k : Nat}
    (hok : paramsOk s.params) (hp : s.phase = .decode) (h : RomSuffix s.rom s.dp.toNat (.atHeader (r :: rs)))
    (hpayload : s.payload = some payload) (hk : (assembleRoutine r).length ≤ k) :
    ∃ t, settle k s = .next t ∧
      s.Ends t (routineResult s.params.ws r payload).1 (s.events ++ (routineResult s.params.ws r payload).2) := by
  obtain ⟨hlen, is, all, his, hall, hsum, -⟩ := hok.rom
  have hmem : r ∈ all := h.mem_routines nofun his hall r (List.mem_cons_self ..)
  have hplen : payload.length = s.plen.toNat := (readRun_eq_some.1 hpayload).1
  have hsize : payload.length = r.explen.toNat ↔ s.plen = r.explen := by rw [hplen, BitVec.toNat_inj]
  rcases h.header with ⟨hkind, hi⟩ | ⟨hkind, hlegacy, hi, hrest⟩ | ⟨fid, hkind, hlegacy, hi, hrest⟩
  · rw [routineResult_noData hkind, List.append_nil]
    simp only [assembleRoutine, hkind, List.length_cons] at hk
    exact settle_of_finish hp (step_romAt hok hp hi) (.refl s) rfl (by omega)
  · simp only [assembleRoutine, hkind, hlegacy, List.length_cons, List.length_append] at hk
    by_cases heq : s.plen = r.explen
    · rw [routineResult_of_eq hkind (hsize.2 heq)]
      exact settle_matched hok hp hi (hrest.toNat_dp hlen nofun ▸ hrest :) hpayload heq (wfSum_iff.1 hsum r hmem hkind)
        (by omega)
    · rw [routineResult_of_ne hkind hlegacy (mt hsize.1 heq), hplen, BitVec.ofNat_toNat, BitVec.setWidth_eq]
      have hstep := (step_romAt hok hp hi).trans (exec_rtn_of_ne heq _ _)
      exact settle_of_finish hp hstep (by constructor <;> rfl) rfl (by omega)
  · simp only [assembleRoutine, hkind, hlegacy, List.length_cons, List.length_append] at hk
    by_cases heq : s.plen = r.explen
    · rw [routineResult_of_eq hkind (hsize.2 heq)]
      exact settle_matched hok hp hi (hrest.legacy.2.toNat_dp (k := 2) hlen nofun ▸ hrest.legacy.2 :) hpayload heq
        (wfSum_iff.1 hsum r hmem hkind) (by omega)
    · rw [routineResult_legacy_of_ne hkind hlegacy (mt hsize.1 heq), hplen, BitVec.ofNat_toNat, BitVec.setWidth_eq]
      obtain ⟨k, rfl⟩ : ∃ k', k = k' + 1 := ⟨k - 1, by omega⟩
      have hstep := (step_romAt hok hp hi).trans (exec_rtn_legacy_of_ne heq _ _)
      have hlgcy : RomAt s.rom (s.dp + 1#16).toNat (.lgcy fid) := (hrest.toNat_dp hlen nofun ▸ hrest.legacy.1 :)
      have hnext := (step_romAt (s := (s.emit (.sizeMismatch r.explen s.plen)).advance 1) hok hp hlgcy).trans
        (exec_lgcy fid _)
      rw [settle_succ_of_step hp hstep]
      obtain ⟨t, ht, hends⟩ := settle_of_finish (k := k) (by exact hp) hnext (by constructor <;> rfl) rfl (by omega)
      refine ⟨t, ht, ?_⟩
      simpa using hends.of_step (s := s) (by constructor <;> rfl)

theorem RomSuffix.length_le {rom : List Word} {a : Nat} {p : Suffix} (h : RomSuffix rom a p) :
    (assembleSuffix p).length ≤ rom.length := by
  obtain ⟨is, his, hp⟩ := h
  rw [assembleSuffix_of_parseFrom hp, List.length_drop, decodeRom_length his]
  exact Nat.sub_le _ _

/-- The ROM has words enough for each of its routines. -/
theorem RomSuffix.length_routine_le {rom : List Word} {a : Nat} {r : Routine} {rs : List Routine}
    (h : RomSuffix rom a (.atHeader (r :: rs))) : (assembleRoutine r).length ≤ rom.length := by
  have := h.length_le
  rw [assembleSuffix, List.flatMap_cons, List.length_append] at this
  omega

/-- Inside a FEED with a header at DP. -/
theorem State.inRoutine.at_header {s : State} (h : s.inRoutine)
    (hkey : ∃ w key, s.rom[s.dp.toNat]? = some w ∧ headerKey w = some key) :
    ∃ r rs, RomSuffix s.rom s.dp.toNat (.atHeader (r :: rs)) := by
  obtain ⟨w, key, hw, hkey⟩ := hkey
  obtain ⟨p, hsuffix, hne, -⟩ := State.inRoutine_iff.1 h
  obtain ⟨i, q, ⟨w', hw', hi⟩, -, hprod⟩ := hsuffix.first hne
  obtain rfl := Option.some.inj (hw'.symm.trans hw)
  rw [headerKey, hi] at hkey
  cases hprod with
  | plainHeader | legacyHeader | noData => exact ⟨_, _, hsuffix⟩
  | end_ | legacy => cases hkey
  | field _ _ _ hfield =>
    cases i with
    | rtn | nodata => cases hfield
    | _ => cases hkey

/-- Settles O50: the two runs are over the same routine and the same payload, and both are its `routineResult`. -/
theorem routineDependsOnPayloadOnly : Obligations.RoutineDependsOnPayloadOnly := by
  intro s s' h h' hok hok' hp hp' hrom hws hdp hplen hkey hbytes hevents hevents'
  obtain ⟨hframe, hlen, hroutine⟩ := h.decoding hp
  obtain ⟨r, rs, hsuffix⟩ := hroutine.at_header hkey
  obtain ⟨payload, hpayload⟩ : ∃ payload, s.payload = some payload := by
    refine State.exists_bufSlice h.valued ?_
    rw [hframe]
    omega
  have hpayload' : s'.payload = some payload := by
    obtain ⟨hplenEq, hget⟩ := readRun_eq_some.1 hpayload
    refine readRun_eq_some.2 ⟨hplen ▸ hplenEq, fun i hi => ?_⟩
    rw [hplen] at hi
    rw [hbytes i hi, hget i hi]
  have hsuffix' : RomSuffix s'.rom s'.dp.toNat (.atHeader (r :: rs)) := by rwa [hrom, hdp]
  obtain ⟨t, ht, hends⟩ := settle_routine hok hp hsuffix hpayload hsuffix.length_routine_le
  obtain ⟨t', ht', hends'⟩ := settle_routine hok' hp' hsuffix' hpayload' hsuffix'.length_routine_le
  refine ⟨t, t', ht, ht', hends.phase, hends'.phase, ?_, ?_, ?_⟩
  · rw [hends.res, hends'.res, hws]
  · rw [hends.events, hends'.events, hws, hevents, hevents']
  · rw [hends.ready, hends'.ready]

end Sys2Proof.Machine

/-! ### The validation as a function of the buffer (R140, R250)

`validateResult` on the bytes of the buffer, one lemma for each class of outcome; each class of next state of the model's
validation is the one of the same buffer. -/

namespace Sys2Proof.Machine

section Received

variable {s : State} {l : List Byte}

theorem length_of_buffer (h : s.buffer = some l) : l.length = s.len := (readRun_eq_some.1 h).1

theorem buffer_of_len_zero (h : s.len = 0) : s.buffer = some [] := by
  rw [State.buffer, h]
  rfl

theorem buffer_append (h : s.buffer = some l) (b : Byte) :
    (s.append b).buffer = some (if l.length < s.params.bufCap then l ++ [b] else l) := by
  have hlen := length_of_buffer h
  by_cases hroom : s.len < s.params.bufCap
  · rw [if_pos (hlen ▸ hroom)]
    refine readRun_eq_some.2 ⟨by rw [List.length_append, hlen, State.append_len_of_lt hroom]; rfl, fun i hi => ?_⟩
    rw [Nat.zero_add]
    rw [State.append_len_of_lt hroom] at hi
    rcases Nat.lt_succ_iff_lt_or_eq.1 hi with hi | rfl
    · rw [State.buf_append_below b hi, List.getElem?_append_left (hlen ▸ hi), State.getElem?_of_buffer h hi]
    · rw [State.buf_append_len hroom, ← hlen, List.getElem?_concat_length]
  · rw [if_neg (hlen ▸ hroom), State.append_of_saturated (Nat.le_of_not_lt hroom), h]

/-- The buffer FEED has received (R123, R125). -/
theorem buffer_receive (h : s.buffer = some l) (b : Byte) :
    (s.receive b).buffer = some (receivedBuffer s.params l s.lastTs s.nowPort b) := by
  have hkept : s.timeoutDiscard.stamp.buffer =
      some (if s.params.timeout < elapsed s.params.tsW s.nowPort s.lastTs then [] else l) := by
    by_cases htime : s.params.timeout < elapsed s.params.tsW s.nowPort s.lastTs
    · rw [if_pos htime, State.timeoutDiscard_of_lt htime]
      exact buffer_of_len_zero rfl
    · rw [if_neg htime, State.timeoutDiscard_of_le (Nat.le_of_not_lt htime)]
      exact h
  have := buffer_append hkept b
  rwa [State.stamp_params, State.timeoutDiscard_params] at this

theorem take_two_of_buffer (h : s.buffer = some l) (hlen : 2 ≤ s.len) {b0 b1 : Byte} (h0 : s.buf 0 = some b0)
    (h1 : s.buf 1 = some b1) : l.take 2 = [b0, b1] := by
  have hl0 : l[0]? = some b0 := by rw [State.getElem?_of_buffer h (by omega), h0]
  have hl1 : l[0 + 1]? = some b1 := by rw [State.getElem?_of_buffer h (by omega), h1]
  exact take_two_drop hl0 hl1

theorem getD_of_buffer (h : s.buffer = some l) {i : Nat} {b : Byte} (hi : i < s.len) (hb : s.buf i = some b) :
    l.getD i 0#8 = b := by
  rw [List.getD_eq_getElem?_getD, State.getElem?_of_buffer h hi, hb, Option.getD_some]

variable (p : Params) (rs : List Routine)

theorem validateResult_short (h : s.buffer = some l) (hlen : s.len < 2) : validateResult p rs l = (.incomplete, []) := by
  rw [validateResult, if_pos (by rwa [length_of_buffer h])]

theorem validateResult_dead (h : s.buffer = some l) (hdead : s.dead) : validateResult p rs l = (.malformedStart, []) := by
  obtain ⟨hlen, b0, b1, h0, h1, hmarker⟩ := hdead
  have hbegins : l.take 2 ≠ [Config.marker, Config.marker] := by
    rw [take_two_of_buffer h hlen h0 h1]
    simpa [imp_iff_not_or] using hmarker
  rw [validateResult, if_neg (by rw [length_of_buffer h]; omega), if_pos hbegins]

/-- What the validation answers past the start-marker test (R141), a function of the bytes alone. -/
def startedResult (l : List Byte) : Code × List Event :=
  if l.length < 11 then (.incomplete, [])
  else if l.length < 11 + (l.getD 8 0#8).toNat then (.incomplete, [])
  else if checksumOf (l.take (9 + (l.getD 8 0#8).toNat)) ≠ receivedOf ((l.drop (9 + (l.getD 8 0#8).toNat)).take 2) then
    (.checksum, [.checksumMismatch (checksumOf (l.take (9 + (l.getD 8 0#8).toNat)))
      (receivedOf ((l.drop (9 + (l.getD 8 0#8).toNat)).take 2)) l])
  else frameResult p rs (l.getD 6 0#8) (l.getD 7 0#8) ((l.drop 9).take (l.getD 8 0#8).toNat)

theorem validateResult_eq (l : List Byte) :
    validateResult p rs l =
      if l.length < 2 then (.incomplete, [])
      else if l.take 2 ≠ [Config.marker, Config.marker] then (.malformedStart, [])
      else startedResult p rs l := rfl

theorem validateResult_started (h : s.buffer = some l) (hstart : s.wellStarted) :
    validateResult p rs l = startedResult p rs l := by
  obtain ⟨hlen, h0, h1⟩ := hstart
  have hbegins : ¬l.take 2 ≠ [Config.marker, Config.marker] := by
    rw [take_two_of_buffer h hlen h0 h1]
    exact not_not.2 rfl
  rw [validateResult_eq, if_neg (by rw [length_of_buffer h]; omega), if_neg hbegins]

theorem validateResult_begun (h : s.buffer = some l) (hstart : s.wellStarted) (hlen : s.len < 11) :
    validateResult p rs l = (.incomplete, []) := by
  rw [validateResult_started p rs h hstart, startedResult, length_of_buffer h, if_pos hlen]

theorem validateResult_waiting (h : s.buffer = some l) (hstart : s.wellStarted) (hlen : 11 ≤ s.len) {n : Byte}
    (hn : s.buf 8 = some n) (hshort : s.len < 11 + n.toNat) : validateResult p rs l = (.incomplete, []) := by
  rw [validateResult_started p rs h hstart, startedResult, length_of_buffer h, if_neg (by omega),
    getD_of_buffer h (by omega) hn, if_pos hshort]

theorem validateResult_mismatch {c f n : Byte} {computed received : Half} (h : s.WholeFrame l c f n computed received)
    (hne : computed ≠ received) :
    validateResult p rs l = (.checksum, [.checksumMismatch computed received l]) := by
  obtain ⟨hstart, hraw, hlong, hwhole, hc, hf, hn, rfl, rfl⟩ := h
  rw [validateResult_started p rs hraw hstart, startedResult, length_of_buffer hraw, if_neg (by omega),
    getD_of_buffer hraw (by omega) hn, if_neg (by omega),
    if_pos hne]

theorem validateResult_good {c f n : Byte} {ck : Half} (h : s.WholeFrame l c f n ck ck) :
    validateResult p rs l = frameResult p rs c f ((l.drop 9).take n.toNat) := by
  obtain ⟨hstart, hraw, hlong, hwhole, hc, hf, hn, hsum, hrcv⟩ := h
  rw [validateResult_started p rs hraw hstart, startedResult, length_of_buffer hraw, if_neg (by omega),
    getD_of_buffer hraw (by omega) hn, if_neg (by omega),
    if_neg (not_not.2 (hsum.symm.trans hrcv)), getD_of_buffer hraw (by omega) hc, getD_of_buffer hraw (by omega) hf]

end Received

/-! ### A FEED run to its end (R122) -/

/-- The command is complete with a result: what it leaves of the state `u` that has received the byte. -/
structure State.Completes (u t : State) (c : Code) (events : List Event) : Prop where
  phase : t.phase = .rest
  res : t.res = c.toBits
  ready : t.ready = c.consumed
  events : t.events = events
  mem : t.mem = u.mem
  len : t.len = if c.consumed then 0 else u.len
  lastTs : t.lastTs = u.lastTs
  params : t.params = u.params
  data : t.data = u.data
  now : t.now = u.now
  stat : t.stat = u.stat
  inputs : t.inputs = u.inputs

theorem State.Completes.buffer {u t : State} {c : Code} {events : List Event} {raw : List Byte}
    (h : u.Completes t c events) (hraw : u.buffer = some raw) : t.buffer = some (if c.consumed then [] else raw) := by
  cases hc : c.consumed with
  | true => exact buffer_of_len_zero (by rw [h.len, hc]; rfl)
  | false =>
    have hlen : t.len = u.len := by rw [h.len, hc]; rfl
    rw [State.buffer, State.bufSlice, State.buf_congr h.mem hlen, hlen]
    exact hraw

theorem State.completes_finish {u v : State} {events : List Event} (h : u.KeepsReceived v) (hlen : v.len = u.len)
    (hevents : v.events = events) (c : Code) : u.Completes (v.finish c) c events where
  phase := rfl
  res := rfl
  ready := rfl
  events := hevents
  mem := h.mem
  len := by rw [State.finish_len, hlen]
  lastTs := h.lastTs
  params := h.params
  data := h.data
  now := h.now
  stat := h.stat
  inputs := h.inputs

theorem State.KeepsReceived.refl (u : State) : u.KeepsReceived u := by constructor <;> rfl

/-- A routine that ends completes the FEED that has entered it. -/
theorem State.Ends.completes {u v t : State} {c : Code} {events : List Event} (h : v.Ends t c events)
    (hv : u.KeepsReceived v) (hc : c.consumed = true) : u.Completes t c events where
  phase := h.phase
  res := h.res
  ready := h.ready.trans hc.symm
  events := h.events
  mem := h.frame.mem.trans hv.mem
  len := by rw [h.len, if_pos hc]
  lastTs := h.frame.lastTs.trans hv.lastTs
  params := h.frame.params.trans hv.params
  data := h.frame.data.trans hv.data
  now := h.frame.now.trans hv.now
  stat := h.frame.stat.trans hv.stat
  inputs := h.frame.inputs.trans hv.inputs

/-- The payload of a whole frame in the buffer. -/
theorem State.WholeFrame.payload {u : State} {raw : List Byte} {c f n : Byte} {computed received : Half}
    (h : u.WholeFrame raw c f n computed received) : u.bufSlice 9 n.toNat = some ((raw.drop 9).take n.toNat) := by
  have hwhole := h.whole
  have := readRun_slice (a := 0) (k := 9) (w := n.toNat) h.raw_eq (by omega)
  rwa [Nat.zero_add] at this

/-- The routines of a ROM and the scan say the same of a key. -/
theorem lookup_of_scan_absent {rom : List Word} {is : List Instr} {rs : List Routine} (his : decodeRom rom = some is)
    (hrs : routines is = some rs) {c f : Byte} {a : Nat} (h : scanHeaders c f true 0 rom = .absent a) :
    lookup rs c f = none := by
  rw [scanHeaders_of_routines his hrs] at h
  cases hr : lookup rs c f with
  | none => rfl
  | some r => rw [hr] at h; cases h

theorem frameResult_of_none {p : Params} {rs : List Routine} {c f : Byte} (h : lookup rs c f = none) (payload : List Byte) :
    frameResult p rs c f payload = (.unknown, [.unknownKey p.role c f]) := by
  rw [frameResult, h]

theorem frameResult_of_some {p : Params} {rs : List Routine} {c f : Byte} {r : Routine} (h : lookup rs c f = some r)
    (payload : List Byte) : frameResult p rs c f payload = routineResult p.ws r payload := by
  rw [frameResult, h]

theorem routineResult_consumed (ws : List Byte) (r : Routine) (payload : List Byte) :
    (routineResult ws r payload).1.consumed = true := by
  unfold routineResult
  split
  · rfl
  · split
    · exact (rfl : Code.decoded.consumed = true)
    · exact (rfl : Code.size.consumed = true)

/-- From the state that has received the byte, FEED completes with `validateResult` of the buffer: at once, or at the end of
the routine it enters. -/
theorem State.Validated.settles {u t : State} (h : u.Validated t) (hok : paramsOk u.params) (hevents : u.events = [])
    {raw : List Byte} (hraw : u.buffer = some raw) {is : List Instr} {rs : List Routine}
    (his : decodeRom u.rom = some is) (hrs : routines is = some rs) :
    ∃ t', settle u.rom.length t = .next t' ∧
      u.Completes t' (validateResult u.params rs raw).1 (validateResult u.params rs raw).2 := by
  cases h with
  | short hlen =>
    rw [validateResult_short _ _ hraw hlen]
    refine ⟨_, settle_of_rest _ rfl, ?_⟩
    exact State.completes_finish (by constructor <;> rfl) rfl hevents _
  | dead hdead =>
    rw [validateResult_dead _ _ hraw hdead]
    refine ⟨_, settle_of_rest _ rfl, ?_⟩
    exact State.completes_finish (by constructor <;> rfl) rfl hevents _
  | begun hstart hlen =>
    rw [validateResult_begun _ _ hraw hstart hlen]
    refine ⟨_, settle_of_rest _ rfl, ?_⟩
    exact State.completes_finish (by constructor <;> rfl) rfl hevents _
  | waiting c f n hstart hlen hn hshort =>
    rw [validateResult_waiting _ _ hraw hstart hlen hn hshort]
    refine ⟨_, settle_of_rest _ rfl, ?_⟩
    exact State.completes_finish (u := u) (v := { u with ctl := c, fn := f, n := n }) (by constructor <;> rfl) rfl hevents _
  | mismatch raw' c f n computed received hframe hne =>
    obtain rfl := Option.some.inj (hframe.raw_eq.symm.trans hraw)
    rw [validateResult_mismatch _ _ hframe hne]
    refine ⟨_, settle_of_rest _ rfl, ?_⟩
    exact State.completes_finish (u := u) (v := (u.withSums c f n computed received).emit _) (by constructor <;> rfl) rfl
      (congrArg (· ++ [Event.checksumMismatch computed received raw']) hevents) _
  | unknown raw' c f n ck a hframe hscan =>
    obtain rfl := Option.some.inj (hframe.raw_eq.symm.trans hraw)
    rw [validateResult_good _ _ hframe, frameResult_of_none (lookup_of_scan_absent his hrs hscan)]
    refine ⟨_, settle_of_rest _ rfl, ?_⟩
    exact State.completes_finish (u := u) (v := State.emit { u.withSums c f n ck ck with plen := n, dp := BitVec.ofNat 16 a } _)
      (by constructor <;> rfl) rfl (congrArg (· ++ [Event.unknownKey u.params.role c f]) hevents) _
  | entered raw' c f n ck a hframe hscan =>
    obtain rfl := Option.some.inj (hframe.raw_eq.symm.trans hraw)
    obtain ⟨r, rest, hlookup, hsuffix⟩ := romSuffix_of_scan_found his hrs hscan
    rw [validateResult_good _ _ hframe, frameResult_of_some hlookup]
    have hdp := hsuffix.toNat_ofNat hok.rom.1 nofun
    obtain ⟨t, ht, hends⟩ := settle_routine
      (s := { u.withSums c f n ck ck with plen := n, dp := BitVec.ofNat 16 a, phase := .decode }) hok rfl
      (hdp.symm ▸ hsuffix :) hframe.payload hsuffix.length_routine_le
    rw [show ({ u.withSums c f n ck ck with plen := n, dp := BitVec.ofNat 16 a, phase := .decode } : State).events = []
      from hevents, List.nil_append] at hends
    exact ⟨t, ht, hends.completes (by constructor <;> rfl) (routineResult_consumed _ _ _)⟩

/-- FEED at rest, run to its end, completes with `validateResult` of the buffer it has received. -/
theorem State.Inv.feed_completes {s : State} (h : s.Inv) (hok : paramsOk s.params) {b : Byte} {raw : List Byte}
    (hraw : (s.startCommand.receive b).buffer = some raw) {is : List Instr} {rs : List Routine}
    (his : decodeRom s.rom = some is) (hrs : routines is = some rs) :
    ∃ t, settleOutcome s.rom.length (exec (.feed b) s) = .next t ∧
      (s.startCommand.receive b).Completes t (validateResult s.params rs raw).1 (validateResult s.params rs raw).2 := by
  obtain ⟨u, hu⟩ := h.feed_next hok b
  have hpar : (s.startCommand.receive b).params = s.params := by simp
  have hvalidated := State.validated_of_tryValidate hu
  obtain ⟨t, ht, hcompletes⟩ := hvalidated.settles (hpar.symm ▸ hok) (receive_startCommand_events s b) hraw
    ((receive_startCommand_rom s b).symm ▸ his) hrs
  rw [receive_startCommand_rom] at ht
  rw [hpar] at hcompletes
  rw [hu]
  exact ⟨t, ht, hcompletes⟩

/-- Settles O49: the received buffer and its result are those of R122, and the rest of the FEED adds a frame. -/
theorem feedRefinesTheCommand : Obligations.FeedRefinesTheCommand := by
  intro s b is rs buffer h hp hok his hrs hbuffer r
  have hraw := buffer_receive (s := s.startCommand) hbuffer b
  obtain ⟨t, ht, hc⟩ := h.feed_completes hok hraw his hrs
  exact ⟨t, ht, hc.phase, hc.buffer hraw, hc.res, hc.ready, hc.events, by rw [hc.lastTs, State.receive_lastTs]; rfl,
    by rw [hc.params]; simp, by rw [hc.data]; simp, by rw [hc.now]; simp, by rw [hc.stat]; simp, by rw [hc.inputs]; simp⟩

/-! ### All or nothing (R197) -/

theorem eq_decoded_of_toBits {c : Code} (h : c.toBits = 0x8#4) : c = .decoded := by
  cases c with
  | decoded => rfl
  | _ => exact absurd h (by decide)

/-- What a result says of the buffer, when it is all of a routine's events or none. -/
def publishesAllOrNone (ws : List Byte) (rs : List Routine) (raw : List Byte) (result : Code × List Event) : Prop :=
  (result.1 = .decoded → ∃ r ∈ rs, ∃ n : Byte, raw[6]? = some r.control ∧ raw[7]? = some r.function ∧ raw[8]? = some n ∧
    r.kind = .decode ∧ r.explen = n ∧ result.2 = fieldsEvents ws r.fields ((raw.drop 9).take n.toNat)) ∧
  (result.1 ≠ .decoded → (∀ fid v, .publish fid v ∉ result.2) ∨
    (result.1 = .size ∧ ∃ r ∈ rs, ∃ (n : Byte) (fid : Fid), raw[6]? = some r.control ∧ raw[7]? = some r.function ∧
      raw[8]? = some n ∧ r.kind = .decode ∧ r.explen ≠ n ∧ r.legacy = some fid ∧
      result.2 = [.sizeMismatch r.explen n, .publish fid (.num (n.toNat : Int) 0#2)]))

theorem publishesAllOrNone_of_silent {ws : List Byte} {rs : List Routine} {raw : List Byte} {c : Code} {events : List Event}
    (hc : c ≠ .decoded) (hevents : ∀ fid v, .publish fid v ∉ events) : publishesAllOrNone ws rs raw (c, events) :=
  ⟨fun h => absurd h hc, fun _ => .inl hevents⟩

theorem publishesAllOrNone_routineResult {ws : List Byte} {rs : List Routine} {raw : List Byte} {r : Routine} {n : Byte}
    (hr : r ∈ rs) (hc : raw[6]? = some r.control) (hf : raw[7]? = some r.function) (hn : raw[8]? = some n)
    (hlen : 9 + n.toNat ≤ raw.length) :
    publishesAllOrNone ws rs raw (routineResult ws r ((raw.drop 9).take n.toNat)) := by
  have hpayload : ((raw.drop 9).take n.toNat).length = n.toNat := by
    rw [List.length_take, List.length_drop]
    omega
  have hsize : ((raw.drop 9).take n.toNat).length = r.explen.toNat ↔ r.explen = n := by
    rw [hpayload, BitVec.toNat_inj, eq_comm]
  cases hkind : r.kind with
  | noData =>
    rw [routineResult_noData hkind]
    exact publishesAllOrNone_of_silent nofun nofun
  | decode =>
    by_cases heq : r.explen = n
    · rw [routineResult_of_eq hkind (hsize.2 heq)]
      exact ⟨fun _ => ⟨r, hr, n, hc, hf, hn, hkind, heq, rfl⟩, fun h => absurd rfl h⟩
    · cases hlegacy : r.legacy with
      | none =>
        rw [routineResult_of_ne hkind hlegacy (mt hsize.1 heq)]
        exact publishesAllOrNone_of_silent nofun fun fid v hmem => nomatch List.mem_singleton.1 hmem
      | some fid =>
        rw [routineResult_legacy_of_ne hkind hlegacy (mt hsize.1 heq), hpayload, BitVec.ofNat_toNat, BitVec.setWidth_eq]
        exact ⟨nofun, fun _ => .inr ⟨rfl, r, hr, n, fid, hc, hf, hn, hkind, heq, hlegacy, rfl⟩⟩

theorem publishesAllOrNone_frameResult {p : Params} {rs : List Routine} {raw : List Byte} {c f n : Byte}
    (hc : raw[6]? = some c) (hf : raw[7]? = some f) (hn : raw[8]? = some n) (hlen : 9 + n.toNat ≤ raw.length) :
    publishesAllOrNone p.ws rs raw (frameResult p rs c f ((raw.drop 9).take n.toNat)) := by
  cases hlookup : lookup rs c f with
  | none =>
    rw [frameResult_of_none hlookup]
    exact publishesAllOrNone_of_silent nofun fun fid v hmem => nomatch List.mem_singleton.1 hmem
  | some r =>
    have hkey := List.find?_some hlookup
    simp only [Bool.and_eq_true, beq_iff_eq] at hkey
    obtain ⟨rfl, rfl⟩ := hkey
    rw [frameResult_of_some hlookup]
    exact publishesAllOrNone_routineResult (List.mem_of_find?_eq_some hlookup) hc hf hn hlen

theorem publishesAllOrNone_startedResult (p : Params) (rs : List Routine) (raw : List Byte) :
    publishesAllOrNone p.ws rs raw (startedResult p rs raw) := by
  have hsilent : publishesAllOrNone p.ws rs raw (.incomplete, []) := publishesAllOrNone_of_silent nofun nofun
  unfold startedResult
  split
  · exact hsilent
  next hlen =>
    split
    · exact hsilent
    next hwhole =>
      split
      · exact publishesAllOrNone_of_silent nofun fun fid v hmem => nomatch List.mem_singleton.1 hmem
      next =>
        have hget : ∀ i, i < 11 → raw[i]? = some (raw.getD i 0#8) := fun i hi => by
          rw [List.getD_eq_getElem?_getD, List.getElem?_eq_getElem (by omega), Option.getD_some]
        exact publishesAllOrNone_frameResult (hget 6 (by decide)) (hget 7 (by decide)) (hget 8 (by decide)) (by omega)

theorem publishesAllOrNone_validateResult (p : Params) (rs : List Routine) (raw : List Byte) :
    publishesAllOrNone p.ws rs raw (validateResult p rs raw) := by
  have hsilent : ∀ c : Code, c ≠ .decoded → publishesAllOrNone p.ws rs raw (c, []) := fun c hc =>
    publishesAllOrNone_of_silent hc nofun
  rw [validateResult_eq]
  split
  · exact hsilent _ nofun
  · split
    · exact hsilent _ nofun
    · exact publishesAllOrNone_startedResult p rs raw

/-- Settles O51: what the FEED completes with is `validateResult` of the buffer, of which it holds class by class. -/
theorem allOrNothing : Obligations.AllOrNothing := by
  intro s t b is rs raw h hp hok his hrs hraw ht
  obtain ⟨t', ht', hc⟩ := h.feed_completes hok hraw his hrs
  cases ht'.symm.trans ht
  obtain ⟨hdecoded, hother⟩ := publishesAllOrNone_validateResult s.params rs raw
  rw [hc.res, hc.events]
  refine ⟨fun h => hdecoded (eq_decoded_of_toBits h), fun h => ?_⟩
  refine (hother fun heq => h (congrArg Code.toBits heq)).imp_right fun ⟨hsize, hlegacy⟩ => ?_
  exact ⟨congrArg Code.toBits hsize, hlegacy⟩

/-! ### Saturation (R126) -/

/-- A buffer of 266 bytes or more is dead between commands: a well-started one would hold a whole frame. -/
theorem State.Inv.dead_of_long {s : State} (h : s.Inv) (hp : s.phase = .rest) (hlong : 266 ≤ s.len) : s.dead := by
  refine State.dead_of_not_wellStarted h.valued (by omega) fun hstart => ?_
  rcases h.unfinished hp hstart with h10 | ⟨n, -, -, hshort⟩
  · omega
  · have := n.isLt
    omega

/-- BUF_CAP is not looked at by the validation. -/
theorem validateResult_bufCap (p : Params) (cap : Nat) (rs : List Routine) (raw : List Byte) :
    validateResult { p with bufCap := cap } rs raw = validateResult p rs raw := rfl

/-- A dead buffer under a FEED in time: MALFORMED_START, and dead again. -/
theorem feed_of_dead {s : State} (hdead : s.dead) (htime : s.timedOut = false) (b : Byte) (k : Nat) :
    ∃ t, settleOutcome k (exec (.feed b) s) = .next t ∧ t.dead ∧ t.res = 0x1#4 ∧ t.ready = false ∧ t.events = [] ∧
      t.lastTs = s.nowPort := by
  obtain ⟨t, ht, hdead, hres, hready, hevents, hphase⟩ := deadBufferStaysDead s b hdead htime
  obtain ⟨-, -, hts, -⟩ := feedFrame s t b ht
  exact ⟨t, by rw [ht]; exact settle_of_rest k hphase, hdead, hres, hready, hevents, hts⟩

/-- After a timeout the buffer holds the byte alone, whatever BUF_CAP is. -/
theorem received_of_timedOut {s : State} (h : s.Inv) (hok : paramsOk s.params) (htime : s.timedOut = true) (b : Byte) :
    (s.startCommand.receive b).buffer = some [b] := by
  obtain ⟨l, hl⟩ := State.exists_bufSlice h.valued (a := 0) (n := s.len) (by omega)
  have hcap : 0 < s.params.bufCap := by
    have := ((paramsOk_iff _).1 hok).1
    omega
  have hlate : s.params.timeout < elapsed s.params.tsW s.startCommand.nowPort s.lastTs := of_decide_eq_true htime
  rw [buffer_receive (s := s.startCommand) hl b]
  simp [receivedBuffer, hlate, hcap]

/-- In time, a buffer of fewer than 266 bytes takes the byte, whatever BUF_CAP is. -/
theorem received_of_short {s : State} {l : List Byte} (hl : s.buffer = some l) (hok : paramsOk s.params)
    (htime : s.timedOut = false) (hshort : l.length < 266) (b : Byte) :
    (s.startCommand.receive b).buffer = some (l ++ [b]) := by
  have hcap : l.length < s.params.bufCap := hshort.trans_le ((paramsOk_iff _).1 hok).1
  have hearly : ¬s.params.timeout < elapsed s.params.tsW s.startCommand.nowPort s.lastTs := of_decide_eq_false htime
  rw [buffer_receive (s := s.startCommand) hl b]
  simp [receivedBuffer, hearly, hcap]

/-- The same time and the same parameters but for BUF_CAP make the same timeout test. -/
theorem timedOut_bufCap {s s' : State} (hpar : s'.params = { s.params with bufCap := s'.params.bufCap })
    (hts : s'.lastTs = s.lastTs) (hnow : s'.now = s.now) : s'.nowPort = s.nowPort ∧ s'.timedOut = s.timedOut := by
  have htsW : s'.params.tsW = s.params.tsW := by rw [hpar]
  have htimeout : s'.params.timeout = s.params.timeout := by rw [hpar]
  have hport : s'.nowPort = s.nowPort := by rw [State.nowPort, State.nowPort, hnow, htsW]
  exact ⟨hport, by rw [State.timedOut, State.timedOut, hport, htsW, htimeout, hts]⟩

/-- Two devices cannot be told apart by a FEED of the byte, and are left with equal buffers or both dead. -/
def FeedAlike (s s' : State) (b : Byte) : Prop :=
  ∃ t t', settleOutcome s.rom.length (exec (.feed b) s) = .next t ∧
    settleOutcome s'.rom.length (exec (.feed b) s') = .next t' ∧
    t'.res = t.res ∧ t'.ready = t.ready ∧ t'.events = t.events ∧ t'.lastTs = t.lastTs ∧
    (t'.buffer = t.buffer ∨ (t.dead ∧ t'.dead))

theorem feedAlike_of_dead {s s' : State} (hdead : s.dead) (hdead' : s'.dead) (htime : s.timedOut = false)
    (htime' : s'.timedOut = false) (hport : s'.nowPort = s.nowPort) (b : Byte) : FeedAlike s s' b := by
  obtain ⟨t, ht, hdead, hres, hready, hevents, hts⟩ := feed_of_dead hdead htime b s.rom.length
  obtain ⟨t', ht', hdead', hres', hready', hevents', hts'⟩ := feed_of_dead hdead' htime' b s'.rom.length
  exact ⟨t, t', ht, ht', hres'.trans hres.symm, hready'.trans hready.symm, hevents'.trans hevents.symm,
    by rw [hts, hts', hport], .inr ⟨hdead, hdead'⟩⟩

/-- The validation looks at the received bytes, and not at BUF_CAP. -/
theorem feedAlike_of_received {s s' : State} {b : Byte} {raw : List Byte} (h : s.Inv) (h' : s'.Inv)
    (hok : paramsOk s.params) (hok' : paramsOk s'.params)
    (hpar : s'.params = { s.params with bufCap := s'.params.bufCap }) (hport : s'.nowPort = s.nowPort)
    (hraw : (s.startCommand.receive b).buffer = some raw) (hraw' : (s'.startCommand.receive b).buffer = some raw) :
    FeedAlike s s' b := by
  obtain ⟨-, is, rs, his, hrs, -⟩ := hok.rom
  have hrom : s'.rom = s.rom := by rw [State.rom, hpar]; rfl
  obtain ⟨t, ht, hc⟩ := h.feed_completes hok hraw his hrs
  obtain ⟨t', ht', hc'⟩ := h'.feed_completes hok' hraw' (hrom ▸ his) hrs
  rw [hpar, validateResult_bufCap] at hc'
  refine ⟨t, t', ht, ht', hc'.res.trans hc.res.symm, hc'.ready.trans hc.ready.symm, hc'.events.trans hc.events.symm, ?_,
    .inl ?_⟩
  · rw [hc.lastTs, hc'.lastTs, State.receive_lastTs, State.receive_lastTs]
    exact hport
  · rw [hc.buffer hraw, hc'.buffer hraw']

/-- Settles O52: in time, two dead buffers stay dead, and two equal ones are both dead from 266 bytes on; else both devices
append to equal buffers below BUF_CAP, or to the empty one. -/
theorem saturationInvisible : Obligations.SaturationInvisible := by
  intro s s' b h h' hok hok' hp hp' hpar hts hnow hbuffers
  obtain ⟨hport, htimes⟩ := timedOut_bufCap hpar hts hnow
  cases htime : s.timedOut with
  | true =>
    exact feedAlike_of_received h h' hok hok' hpar hport (received_of_timedOut h hok htime b)
      (received_of_timedOut h' hok' (htimes.trans htime) b)
  | false =>
    rcases hbuffers with heq | ⟨hdead, hdead'⟩
    · obtain ⟨l, hl⟩ : ∃ l, s.buffer = some l := State.exists_bufSlice h.valued (by omega)
      have hl' : s'.buffer = some l := heq.trans hl
      by_cases hshort : l.length < 266
      · exact feedAlike_of_received h h' hok hok' hpar hport (received_of_short hl hok htime hshort b)
          (received_of_short hl' hok' (htimes.trans htime) hshort b)
      · have hdead : s.dead := h.dead_of_long hp (by rw [← length_of_buffer hl]; omega)
        have hdead' : s'.dead := h'.dead_of_long hp' (by rw [← length_of_buffer hl']; omega)
        exact feedAlike_of_dead hdead hdead' htime (htimes.trans htime) hport b
    · exact feedAlike_of_dead hdead hdead' htime (htimes.trans htime) hport b

end Sys2Proof.Machine

/-! ### What the validation depends on

Two states with the same BUF, LEN and ROM get the same verdict, and the next states differ only where the states themselves
do. This serves both noninterference statements below. -/

namespace Sys2Proof.Machine

/-- What the validation decides, apart from the state it writes it to (R250). -/
inductive Verdict where
  | done (code : Code)
  | waiting (c f n : Byte)
  | mismatch (raw : List Byte) (c f n : Byte) (computed received : Half)
  | unknown (c f n : Byte) (ck : Half) (dp : Nat)
  | entered (c f n : Byte) (ck : Half) (dp : Nat)

/-- The next state of a verdict. -/
def Verdict.apply : Verdict → State → State
  | .done code, s => s.finish code
  | .waiting c f n, s => ({ s with ctl := c, fn := f, n := n } : State).finish .incomplete
  | .mismatch raw c f n computed received, s =>
    ((s.withSums c f n computed received).emit (.checksumMismatch computed received raw)).finish .checksum
  | .unknown c f n ck dp, s =>
    (({ s.withSums c f n ck ck with plen := n, dp := BitVec.ofNat 16 dp } : State).emit
      (.unknownKey s.params.role c f)).finish .unknown
  | .entered c f n ck dp, s => { s.withSums c f n ck ck with plen := n, dp := BitVec.ofNat 16 dp, phase := .decode }

/-- The outcomes of two states by one verdict, or by one reason to stop. -/
def SameVerdict (s s' : State) (o o' : Outcome) : Prop :=
  (∃ v : Verdict, o = .next (v.apply s) ∧ o' = .next (v.apply s')) ∨
    (∃ r, o = .fault r ∧ o' = .fault r) ∨ ∃ r, o = .refused r ∧ o' = .refused r

theorem SameVerdict.verdict {s s' : State} (v : Verdict) :
    SameVerdict s s' (.next (v.apply s)) (.next (v.apply s')) := .inl ⟨v, rfl, rfl⟩

theorem SameVerdict.fault {s s' : State} (r : Fault) : SameVerdict s s' (.fault r) (.fault r) := .inr (.inl ⟨r, rfl, rfl⟩)

theorem SameVerdict.refused {s s' : State} (r : Refusal) : SameVerdict s s' (.refused r) (.refused r) :=
  .inr (.inr ⟨r, rfl, rfl⟩)

theorem State.dispatch_of_illFormed {s : State} (h : scanHeaders s.ctl s.fn true 0 s.rom = .illFormed) :
    s.dispatch = .refused (.illFormedRom .wfGrammar) := by
  rw [State.dispatch, h]

theorem State.checkLength_of_noValue {s : State} {n : Byte} (hlen : 11 + n.toNat ≤ s.len) (hnone : s.buffer = none)
    (c f : Byte) : s.checkLength c f n = .fault .bufferNoValue := by
  rcases s.checkLength_cases c f n with ⟨hshort, -⟩ | ⟨-, -, hl⟩ | ⟨raw, -, hraw, -⟩
  · omega
  · exact hl
  · cases hnone.symm.trans hraw

section Verdicts

variable {s s' : State} (hrom : s'.rom = s.rom) (hlen : s'.len = s.len) (hbuf : s'.buf = s.buf)

include hrom in
theorem sameVerdict_dispatch (c f n : Byte) (ck : Half) :
    SameVerdict s s' (s.withSums c f n ck ck).dispatch (s'.withSums c f n ck ck).dispatch := by
  have hscan : scanHeaders c f true 0 s'.rom = scanHeaders c f true 0 s.rom := by rw [hrom]
  rcases (s.withSums c f n ck ck).dispatch_cases with ⟨hill, hd⟩ | ⟨a, habsent, hd⟩ | ⟨a, hfound, hd⟩ <;> rw [hd]
  · rw [State.dispatch_of_illFormed (s := s'.withSums c f n ck ck) (hscan.trans hill)]
    exact .refused _
  · rw [State.dispatch_of_absent (s := s'.withSums c f n ck ck) (hscan.trans habsent)]
    exact .verdict (.unknown c f n ck a)
  · rw [State.dispatch_of_found (s := s'.withSums c f n ck ck) (hscan.trans hfound)]
    exact .verdict (.entered c f n ck a)

include hrom in
theorem sameVerdict_checkFrame (c f n : Byte) (raw : List Byte) :
    SameVerdict s s' (({ s with ctl := c, fn := f, n := n } : State).checkFrame raw)
      (({ s' with ctl := c, fn := f, n := n } : State).checkFrame raw) := by
  by_cases hck : checksumOf (raw.take (9 + n.toNat)) = receivedOf ((raw.drop (9 + n.toNat)).take 2)
  · rw [State.checkFrame_of_match (s := { s with ctl := c, fn := f, n := n }) rfl hck.symm,
      State.checkFrame_of_match (s := { s' with ctl := c, fn := f, n := n }) rfl hck.symm]
    exact sameVerdict_dispatch hrom c f n _
  · rw [State.checkFrame_of_mismatch (s := { s with ctl := c, fn := f, n := n }) rfl rfl hck,
      State.checkFrame_of_mismatch (s := { s' with ctl := c, fn := f, n := n }) rfl rfl hck]
    exact .verdict (.mismatch raw c f n _ _)

include hrom hlen hbuf in
theorem sameVerdict_checkLength (c f n : Byte) : SameVerdict s s' (s.checkLength c f n) (s'.checkLength c f n) := by
  have hbuffer : s'.buffer = s.buffer := by rw [State.buffer, State.buffer, State.bufSlice, State.bufSlice, hbuf, hlen]
  rcases s.checkLength_cases c f n with ⟨hshort, hl⟩ | ⟨hwhole, hnone, hl⟩ | ⟨raw, hwhole, hraw, hl⟩ <;> rw [hl]
  · rw [State.checkLength_of_short (hlen.symm ▸ hshort)]
    exact .verdict (.waiting c f n)
  · rw [State.checkLength_of_noValue (hlen.symm ▸ hwhole) (hbuffer.trans hnone)]
    exact .fault _
  · rw [State.checkLength_of_whole (hlen.symm ▸ hwhole) (hbuffer.trans hraw)]
    exact sameVerdict_checkFrame hrom c f n raw

include hrom hlen hbuf in
theorem sameVerdict_tryValidate : SameVerdict s s' s.tryValidate s'.tryValidate := by
  unfold State.tryValidate
  rw [hlen, hbuf]
  split
  · exact .verdict (.done .incomplete)
  · split
    · split
      · exact .verdict (.done .malformedStart)
      · split
        · exact .verdict (.done .incomplete)
        · split
          · exact sameVerdict_checkLength hrom hlen hbuf _ _ _
          · exact .fault _
    · exact .fault _

end Verdicts

/-- What FEED stores depends on BUF, LEN, LAST_TS, the time and the sizing parameters. -/
theorem receive_stored_congr {s s' : State} (hmem : s'.mem = s.mem) (hlen : s'.len = s.len) (hts : s'.lastTs = s.lastTs)
    (hnow : s'.now = s.now) (htsW : s'.params.tsW = s.params.tsW) (htimeout : s'.params.timeout = s.params.timeout)
    (hcap : s'.params.bufCap = s.params.bufCap) (b : Byte) :
    (s'.receive b).mem = (s.receive b).mem ∧ (s'.receive b).len = (s.receive b).len := by
  have hport : s'.nowPort = s.nowPort := by rw [State.nowPort, State.nowPort, hnow, htsW]
  have htime : s'.timedOut = s.timedOut := by rw [State.timedOut, State.timedOut, hport, htsW, htimeout, hts]
  have haddr : s'.timeoutDiscard.stamp.appendAddr = s.timeoutDiscard.stamp.appendAddr := by
    simp only [State.appendAddr, State.stamp_len, State.timeoutDiscard_len, State.stamp_params, State.timeoutDiscard_params,
      htime, hlen, hcap]
  rw [State.receive, State.receive, State.append_mem, State.append_mem, State.append_len, State.append_len, haddr]
  simp only [State.stamp_len, State.stamp_mem, State.timeoutDiscard_len, State.timeoutDiscard_mem, hmem, hlen, htime,
    and_self]

/-! ### The transient registers between commands (R20) -/

/-- A state with the transient registers of another one. -/
def State.withTransients (s x : State) : State :=
  { s with n := x.n, sum := x.sum, rcv := x.rcv, ctl := x.ctl, fn := x.fn, plen := x.plen, cur := x.cur, dp := x.dp,
           acc := x.acc, pend := x.pend }

/-- The next states agree on all but the transient registers, and inside a FEED on those the dispatch has set. -/
def State.alikeAfter (t t' : State) : Prop :=
  t.sameButTransient t' ∧ (t.phase = .decode → t'.plen = t.plen ∧ t'.dp = t.dp ∧ t'.ctl = t.ctl ∧ t'.fn = t.fn ∧ t'.n = t.n ∧
    t'.sum = t.sum ∧ t'.rcv = t.rcv)

/-- Two outcomes that stop alike, or answer next states related so. -/
def OutcomesRelated (R : State → State → Prop) (o o' : Outcome) : Prop :=
  (∃ t t', o = .next t ∧ o' = .next t' ∧ R t t') ∨ (∃ r, o = .fault r ∧ o' = .fault r) ∨
    ∃ r, o = .refused r ∧ o' = .refused r

theorem OutcomesRelated.next {R : State → State → Prop} {t t' : State} (h : R t t') :
    OutcomesRelated R (.next t) (.next t') := .inl ⟨t, t', rfl, rfl, h⟩

/-- Outcomes of one verdict are related as its next states are. -/
theorem SameVerdict.related {R : State → State → Prop} {s s' : State} {o o' : Outcome} (h : SameVerdict s s' o o')
    (hR : ∀ v : Verdict, R (v.apply s) (v.apply s')) : OutcomesRelated R o o' :=
  h.imp_left fun ⟨v, ho, ho'⟩ => ⟨_, _, ho, ho', hR v⟩

theorem State.alikeAfter_of_rest {s : State} (hp : s.phase = .rest) (x : State) : s.alikeAfter (s.withTransients x) :=
  ⟨rfl, fun hd => absurd (hp.symm.trans hd) nofun⟩

theorem State.alikeAfter_verdict (v : Verdict) (u x : State) : (v.apply u).alikeAfter (v.apply (u.withTransients x)) := by
  cases v with
  | entered => exact ⟨rfl, fun _ => ⟨rfl, rfl, rfl, rfl, rfl, rfl, rfl⟩⟩
  | done | waiting | mismatch | unknown => exact ⟨rfl, nofun⟩

theorem receive_withTransients (s x : State) (b : Byte) :
    (s.withTransients x).receive b = (s.receive b).withTransients x := by
  obtain ⟨hmem, hlen⟩ := receive_stored_congr (s := s) (s' := s.withTransients x) rfl rfl rfl rfl rfl rfl rfl b
  rw [State.receive_frame, State.receive_frame s, hmem, hlen]
  rfl

theorem feed_withTransients (s x : State) (b : Byte) :
    OutcomesRelated State.alikeAfter (exec (.feed b) s) (exec (.feed b) (s.withTransients x)) := by
  have hreceive := receive_withTransients s.startCommand x b
  rw [exec_feed, exec_feed, show (s.withTransients x).startCommand = s.startCommand.withTransients x from rfl, hreceive]
  generalize s.startCommand.receive b = u
  have hverdict : SameVerdict u (u.withTransients x) _ _ := sameVerdict_tryValidate rfl rfl rfl
  exact hverdict.related fun v => State.alikeAfter_verdict v u x

theorem step_withTransients {s : State} (hp : s.phase = .rest) (x : State) :
    OutcomesRelated State.alikeAfter (step s) (step (s.withTransients x)) := by
  cases hdefect : paramsDefect s.params with
  | some why =>
    have hstep' : step (s.withTransients x) = .refused why := step_refused hdefect
    rw [step_refused hdefect, hstep']
    exact .inr (.inr ⟨why, rfl, rfl⟩)
  | none =>
    have hok' : paramsOk (s.withTransients x).params := hdefect
    cases hs : s.stat with
    | some n =>
      rw [step_run hdefect (State.fetch_statusRead hp hs), step_run hok' (State.fetch_statusRead hp hs)]
      exact .next ⟨rfl, fun hd => absurd (hp.symm.trans hd) nofun⟩
    | none =>
      cases hi : s.inputs with
      | nil =>
        rw [(stepRunsDecoded s hdefect).1 hp hs hi, (stepRunsDecoded _ hok').1 hp hs hi]
        exact .next (State.alikeAfter_of_rest hp x)
      | cons k ks =>
        rw [step_run hdefect (State.fetch_command hp hs hi), step_run hok' (State.fetch_command hp hs hi)]
        rcases decodeCommand_cases k.cmd with hc | hc | ⟨b, hc⟩ <;> rw [hc]
        · exact .next ⟨rfl, nofun⟩
        · exact .next ⟨rfl, fun hd => absurd (hp.symm.trans hd) nofun⟩
        · exact feed_withTransients { s with inputs := ks, now := k.now, stat := k.stat } x b

/-- Settles O44: no command reads a transient register before the validation has written it, and the verdict of the validation
is the same. -/
theorem transientsUnobservable : Obligations.TransientsUnobservable := by
  intro s s' hp hsame
  have hrelated : OutcomesRelated State.alikeAfter (step s) (step s') :=
    (show s' = s.withTransients s' from hsame) ▸ step_withTransients hp s'
  rcases hrelated with ⟨t, t', ht, ht', halike⟩ | ⟨r, hr, hr'⟩ | ⟨r, hr, hr'⟩
  · rw [ht, ht']
    refine ⟨fun u hu => ?_, nofun, nofun⟩
    cases hu
    exact ⟨t', rfl, halike⟩
  · rw [hr, hr']
    exact ⟨nofun, fun _ h => h ▸ rfl, nofun⟩
  · rw [hr, hr']
    exact ⟨nofun, nofun, fun _ h => h ▸ rfl⟩

end Sys2Proof.Machine

/-! ### The other role's ROM (R62, R222) -/

namespace Sys2Proof.Machine

/-- Another content of the ROM that is not the role's. -/
def State.withOtherRom (role : Role) (rom : List Word) (s : State) : State :=
  { s with params := { s.params with
      rom0 := if role = .loggerGateway then rom else s.params.rom0
      rom1 := if role = .deviceTelemetry then rom else s.params.rom1 } }

theorem step_beyondRom {s : State} (hok : paramsOk s.params) (hp : s.phase = .decode)
    (hw : s.rom[s.dp.toNat]? = none) : step s = .fault .fetchBeyondRom := by
  have hdefect : paramsDefect s.params = none := hok
  simp [step, hdefect, State.fetch, hp, hw]

theorem step_illegal {s : State} {w : Word} {why : Illegal} (hok : paramsOk s.params) (hp : s.phase = .decode)
    (hw : s.rom[s.dp.toNat]? = some w) (hi : decodeDescriptor w = .error why) :
    step s = .refused (.illFormedRom .wfWords) := by
  have hdefect : paramsDefect s.params = none := hok
  simp [step, hdefect, State.fetch, hp, hw, hi]

section OtherRom

variable {role : Role} (rom : List Word) {s : State} (hrole : s.params.role = role)

include hrole in
theorem roleRom_withOtherRom : roleRom (s.withOtherRom role rom).params = roleRom s.params := by
  cases role <;> simp [State.withOtherRom, roleRom, hrole]

include hrole in
theorem rom_withOtherRom : (s.withOtherRom role rom).rom = s.rom := roleRom_withOtherRom rom hrole

include hrole in
theorem paramsDefect_withOtherRom : paramsDefect (s.withOtherRom role rom).params = paramsDefect s.params := by
  rw [paramsDefect, roleRom_withOtherRom rom hrole]
  rfl

theorem receive_withOtherRom (s : State) (b : Byte) :
    (s.withOtherRom role rom).receive b = (s.receive b).withOtherRom role rom := by
  obtain ⟨hmem, hlen⟩ :=
    receive_stored_congr (s := s) (s' := s.withOtherRom role rom) rfl rfl rfl rfl rfl rfl rfl b
  rw [State.receive_frame, State.receive_frame s, hmem, hlen]
  rfl

/-- The outcome in the state with another content of the other ROM, when it is the same outcome. -/
def SameWithOtherRom (role : Role) (rom : List Word) : Outcome → Outcome → Prop :=
  OutcomesRelated fun t t' => t' = t.withOtherRom role rom

include hrole in
theorem feed_withOtherRom (b : Byte) :
    SameWithOtherRom role rom (exec (.feed b) s) (exec (.feed b) (s.withOtherRom role rom)) := by
  have hreceive := receive_withOtherRom (role := role) rom s.startCommand b
  have hrole : (s.startCommand.receive b).params.role = role := by simpa using hrole
  rw [exec_feed, exec_feed, show (s.withOtherRom role rom).startCommand = s.startCommand.withOtherRom role rom from rfl,
    hreceive]
  generalize s.startCommand.receive b = u at hrole
  have hverdict : SameVerdict u (u.withOtherRom role rom) _ _ :=
    sameVerdict_tryValidate (rom_withOtherRom rom hrole) rfl rfl
  exact hverdict.related fun v => by cases v <;> rfl

/-- A field reads the payload and WS, which are no part of the ROMs. -/
theorem field_withOtherRom {i : Instr} (hi : i.isField = true) (s : State) :
    SameWithOtherRom role rom (exec i s) (exec i (s.withOtherRom role rom)) := by
  rw [exec_field hi, exec_field hi]
  unfold State.readField
  rw [show (s.withOtherRom role rom).payRead (s.withOtherRom role rom).cur.toNat i.width = s.payRead s.cur.toNat i.width
    from rfl]
  split
  · exact .next rfl
  · exact .inr (.inl ⟨_, rfl, rfl⟩)
  · exact .next rfl

include hrole in
theorem exec_withOtherRom (i : Instr) :
    SameWithOtherRom role rom (exec i s) (exec i (s.withOtherRom role rom)) := by
  by_cases hfield : i.isField = true
  · exact field_withOtherRom rom hfield s
  · cases i with
    | feed b => exact feed_withOtherRom rom hrole b
    | rtn lg c f e =>
      by_cases hsize : s.plen = e
      · rw [exec_rtn_of_eq hsize, exec_rtn_of_eq (s := s.withOtherRom role rom) hsize]
        exact .next rfl
      · cases lg
        · rw [exec_rtn_of_ne hsize, exec_rtn_of_ne (s := s.withOtherRom role rom) hsize]
          exact .next rfl
        · rw [exec_rtn_legacy_of_ne hsize, exec_rtn_legacy_of_ne (s := s.withOtherRom role rom) hsize]
          exact .next rfl
    | regrd n =>
      rw [exec_regrd, exec_regrd]
      exact .next rfl
    | reset | idle | nodata | lgcy | end_ => exact .next rfl
    | _ => exact absurd rfl hfield

include hrole in
theorem step_decode_withOtherRom (hok : paramsOk s.params) (hp : s.phase = .decode) :
    SameWithOtherRom role rom (step s) (step (s.withOtherRom role rom)) := by
  have hok' : paramsOk (s.withOtherRom role rom).params := (paramsDefect_withOtherRom rom hrole).trans hok
  have hrom := rom_withOtherRom rom hrole
  cases hw : s.rom[s.dp.toNat]? with
  | none =>
    rw [step_beyondRom hok hp hw, step_beyondRom (s := s.withOtherRom role rom) hok' hp (hrom ▸ hw)]
    exact .inr (.inl ⟨_, rfl, rfl⟩)
  | some w =>
    cases hi : decodeDescriptor w with
    | error why =>
      rw [step_illegal hok hp hw hi, step_illegal (s := s.withOtherRom role rom) hok' hp (hrom ▸ hw) hi]
      exact .inr (.inr ⟨_, rfl, rfl⟩)
    | ok i =>
      rw [step_decode hok hp hw hi, step_decode (s := s.withOtherRom role rom) hok' hp (hrom ▸ hw) hi]
      exact exec_withOtherRom rom hrole i

include hrole in
theorem step_rest_withOtherRom (hok : paramsOk s.params) (hp : s.phase = .rest) :
    SameWithOtherRom role rom (step s) (step (s.withOtherRom role rom)) := by
  have hok' : paramsOk (s.withOtherRom role rom).params := (paramsDefect_withOtherRom rom hrole).trans hok
  cases hs : s.stat with
  | some n =>
    rw [step_run hok (State.fetch_statusRead hp hs), step_run hok' (State.fetch_statusRead hp hs)]
    exact exec_withOtherRom (s := { s with stat := none }) rom hrole (.regrd n)
  | none =>
    cases hi : s.inputs with
    | nil =>
      rw [(stepRunsDecoded s hok).1 hp hs hi, (stepRunsDecoded _ hok').1 hp hs hi]
      exact .next rfl
    | cons k ks =>
      rw [step_run hok (State.fetch_command hp hs hi), step_run hok' (State.fetch_command hp hs hi)]
      exact exec_withOtherRom (s := { s with inputs := ks, now := k.now, stat := k.stat }) rom hrole _

include hrole in
theorem step_withOtherRom : SameWithOtherRom role rom (step s) (step (s.withOtherRom role rom)) := by
  cases hdefect : paramsDefect s.params with
  | some why =>
    rw [step_refused hdefect, step_refused ((paramsDefect_withOtherRom rom hrole).trans hdefect)]
    exact .inr (.inr ⟨why, rfl, rfl⟩)
  | none =>
    cases hp : s.phase with
    | decode => exact step_decode_withOtherRom rom hrole hdefect hp
    | rest => exact step_rest_withOtherRom rom hrole hdefect hp

end OtherRom

/-- Settles O43: the checks of the parameters, the fetch and the scan read the role's own ROM, and no instruction reads another
word of a ROM. -/
theorem otherRomUnread : Obligations.OtherRomUnread := by
  intro s rom swap
  have hstep : SameWithOtherRom s.params.role rom (step s) (step (swap s)) := step_withOtherRom rom rfl
  rcases hstep with ⟨t, t', ht, ht', rfl⟩ | ⟨r, hr, hr'⟩ | ⟨r, hr, hr'⟩
  · rw [ht, ht']
    rfl
  · rw [hr, hr']
  · rw [hr, hr']

end Sys2Proof.Machine
